-- ==== Sys2Proof/Word.lean ====
section
/-! DEFINITION. The word types of the block: a bus word, a byte, a field register, one answer of the `RNG`,
and byte strings of a fixed length. -/

namespace Sys2Proof

/-- A 32-bit word: a command, a count register, the datum of one host access (R51, R70). -/
abbrev Word := BitVec 32

/-- One byte of a byte buffer (R33). -/
abbrev Byte := BitVec 8

/-- The contents of a field register or store entry: `W = 257` bits (R7, R21). -/
abbrev FieldWord := BitVec 257

/-- One answer of the `RNG`: an integer in `[0, 2^256)`, `KEYBITS = 256` (R7, R9). -/
abbrev Answer := BitVec 256

/-- A byte string of exactly `n` bytes: `Bytes 32` is a digest or a key, `Bytes 16` a cipher block (R8). -/
abbrev Bytes (n : Nat) := List.Vector Byte n

end Sys2Proof
end

