-- ==== Sys2Proof/Syntax.lean ====
section
/-! DEFINITION. The ten commands of `CORE-CMD` version 1, their opcodes, and a command word cut into the fields of
the one format `C` (R70, R71, R73). -/

namespace Sys2Proof

/-- The index of a field register, `f[0]` to `f[7]` (R21, R70). -/
abbrev FReg := Fin 8

/-- One constructor per row of the opcode table (R73). A command carries register indices and nothing else; every
other input is a named register, store or buffer (R71). -/
inductive Instr where
  /-- `FADD fd, fs1, fs2` (R105). -/
  | fadd (fd fs1 fs2 : FReg)
  /-- `FSUB fd, fs1, fs2` (R106). -/
  | fsub (fd fs1 fs2 : FReg)
  /-- `FMUL fd, fs1, fs2` (R107). -/
  | fmul (fd fs1 fs2 : FReg)
  /-- `FINV fd, fs1` (R108). -/
  | finv (fd fs1 : FReg)
  /-- `PCONS fs1` (R123). -/
  | pcons (fs1 : FReg)
  /-- `PEVAL fd, fs1` (R126). -/
  | peval (fd fs1 : FReg)
  /-- `PSHARE` (R128). -/
  | pshare
  /-- `LRECON fd` (R143). -/
  | lrecon (fd : FReg)
  /-- `ENCRYPT` (R165). -/
  | encrypt
  /-- `DECRYPT` (R170). -/
  | decrypt
deriving DecidableEq, Repr

/-- The ten opcodes (R73). -/
inductive Opcode where
  | fadd | fsub | fmul | finv | pcons | peval | pshare | lrecon | encrypt | decrypt
deriving DecidableEq, Repr

/-- Every opcode, in the table's order. -/
def Opcode.all : List Opcode :=
  [.fadd, .fsub, .fmul, .finv, .pcons, .peval, .pshare, .lrecon, .encrypt, .decrypt]

/-- The `op` byte of a row (R73); its high digit names the unit family. -/
def Opcode.byte : Opcode → BitVec 8
  | .fadd    => 0x01
  | .fsub    => 0x02
  | .fmul    => 0x03
  | .finv    => 0x04
  | .pcons   => 0x10
  | .peval   => 0x11
  | .pshare  => 0x12
  | .lrecon  => 0x20
  | .encrypt => 0x30
  | .decrypt => 0x31

/-- A command word cut into the fields of format `C` (R70), before anything is known of them. -/
structure RawCommand where
  /-- Bits 7:0. -/
  op  : BitVec 8
  /-- Bits 11:8. -/
  fd  : BitVec 4
  /-- Bits 15:12. -/
  fs1 : BitVec 4
  /-- Bits 19:16. -/
  fs2 : BitVec 4
  /-- Bits 31:20, reserved, must be 0. -/
  rsv : BitVec 12
deriving DecidableEq, Repr

/-- The fields of a command word (R70). -/
def RawCommand.ofWord (w : Word) : RawCommand where
  op  := w.extractLsb' 0 8
  fd  := w.extractLsb' 8 4
  fs1 := w.extractLsb' 12 4
  fs2 := w.extractLsb' 16 4
  rsv := w.extractLsb' 20 12

/-- The command word of given fields (R70): in hex, `rsv` `fs2` `fs1` `fd` `op`. -/
def RawCommand.toWord (r : RawCommand) : Word :=
  r.rsv ++ r.fs2 ++ r.fs1 ++ r.fd ++ r.op

/-- The opcode of a command. -/
def Instr.opcode : Instr → Opcode
  | .fadd ..  => .fadd
  | .fsub ..  => .fsub
  | .fmul ..  => .fmul
  | .finv ..  => .finv
  | .pcons .. => .pcons
  | .peval .. => .peval
  | .pshare   => .pshare
  | .lrecon _ => .lrecon
  | .encrypt  => .encrypt
  | .decrypt  => .decrypt

end Sys2Proof
end

