-- ==== Sys2Proof/WellFormed.lean ====
section
/-! DEFINITION. Which command words are legal, check by check on the word's fields (R71, R75). A term of `Instr`
carries `Fin 8` register indices, so every one of them is well formed; what can be ill formed is a word a host
writes, and its fields are checked here, each check under a name. -/

namespace Sys2Proof

/-- Whether the row's `fd` field names a register (R71); otherwise the field must be 0. -/
def Opcode.usesFd : Opcode → Bool
  | .fadd | .fsub | .fmul | .finv | .peval | .lrecon => true
  | .pcons | .pshare | .encrypt | .decrypt => false

/-- Whether the row's `fs1` field names a register (R71). -/
def Opcode.usesFs1 : Opcode → Bool
  | .fadd | .fsub | .fmul | .finv | .pcons | .peval => true
  | .pshare | .lrecon | .encrypt | .decrypt => false

/-- Whether the row's `fs2` field names a register (R71). -/
def Opcode.usesFs2 : Opcode → Bool
  | .fadd | .fsub | .fmul => true
  | .finv | .pcons | .peval | .pshare | .lrecon | .encrypt | .decrypt => false

/-- The opcode an `op` byte names, if any (R73). -/
def Opcode.ofByte? (b : BitVec 8) : Option Opcode :=
  Opcode.all.find? fun o => o.byte == b

/-- A register field the row uses must be 0..7, one it does not use must be 0 (R71, R75). -/
def fieldOk (used : Bool) (v : BitVec 4) : Bool :=
  if used then v < 8 else v == 0

/-- Check 1 (R75): bits 31:20 are 0. -/
def RawCommand.reservedZero (r : RawCommand) : Bool := r.rsv == 0

/-- Check 2 (R75): the `op` byte is one of the ten. -/
def RawCommand.opcodeKnown (r : RawCommand) : Bool := (Opcode.ofByte? r.op).isSome

/-- Check 3 (R75): the `fd` field is a register index where it is used and 0 where it is not. -/
def RawCommand.fdOk (r : RawCommand) : Bool :=
  (Opcode.ofByte? r.op).all fun o => fieldOk o.usesFd r.fd

/-- Check 4 (R75): the same of `fs1`. -/
def RawCommand.fs1Ok (r : RawCommand) : Bool :=
  (Opcode.ofByte? r.op).all fun o => fieldOk o.usesFs1 r.fs1

/-- Check 5 (R75): the same of `fs2`. -/
def RawCommand.fs2Ok (r : RawCommand) : Bool :=
  (Opcode.ofByte? r.op).all fun o => fieldOk o.usesFs2 r.fs2

/-- A legal command word: all five checks (R75 lists the words that fail one of them). -/
def RawCommand.wellFormed (r : RawCommand) : Bool :=
  r.reservedZero && r.opcodeKnown && r.fdOk && r.fs1Ok && r.fs2Ok

end Sys2Proof
end

