-- ==== Sys2Proof/Decode.lean ====
section
/-! DEFINITION. The decoder of a command word, total and rejecting by name, and the encoder (R70, R73 to R76). -/

namespace Sys2Proof

/-- Why a word is no command; the block reports all of these by the one code `IllegalCommand` (R75, R185). -/
inductive Reject where
  /-- A non-zero bit in 31:20. -/
  | reservedBits
  /-- An `op` byte that no row has. -/
  | unknownOpcode
  /-- A register field the row uses holds 8..15. -/
  | registerIndex
  /-- A register field the row does not use is not 0. -/
  | unusedField
deriving DecidableEq, Repr

/-- The `mask` column of the opcode map (R73). -/
def Opcode.mask : Opcode → Word
  | .fadd    => 0xFFF888FF
  | .fsub    => 0xFFF888FF
  | .fmul    => 0xFFF888FF
  | .finv    => 0xFFFF88FF
  | .pcons   => 0xFFFF8FFF
  | .peval   => 0xFFFF88FF
  | .pshare  => 0xFFFFFFFF
  | .lrecon  => 0xFFFFF8FF
  | .encrypt => 0xFFFFFFFF
  | .decrypt => 0xFFFFFFFF

/-- The `match` column of the opcode map (R73). -/
def Opcode.pattern : Opcode → Word
  | .fadd    => 0x00000001
  | .fsub    => 0x00000002
  | .fmul    => 0x00000003
  | .finv    => 0x00000004
  | .pcons   => 0x00000010
  | .peval   => 0x00000011
  | .pshare  => 0x00000012
  | .lrecon  => 0x00000020
  | .encrypt => 0x00000030
  | .decrypt => 0x00000031

/-- `w` is the command of this row exactly when `w & mask = match` (R73). -/
def Opcode.matchesWord (o : Opcode) (w : Word) : Bool := w &&& o.mask == o.pattern

/-- The register index in the three low bits of the field at bit `lo`; a matching row has its fourth bit 0 (R74). -/
def regField (w : Word) (lo : Nat) : FReg := (w.extractLsb' lo 3).toFin

/-- The command of a row with `fd = w[11:8]`, `fs1 = w[15:12]`, `fs2 = w[19:16]` (R74). -/
def Opcode.build (o : Opcode) (fd fs1 fs2 : FReg) : Instr :=
  match o with
  | .fadd    => .fadd fd fs1 fs2
  | .fsub    => .fsub fd fs1 fs2
  | .fmul    => .fmul fd fs1 fs2
  | .finv    => .finv fd fs1
  | .pcons   => .pcons fs1
  | .peval   => .peval fd fs1
  | .pshare  => .pshare
  | .lrecon  => .lrecon fd
  | .encrypt => .encrypt
  | .decrypt => .decrypt

/-- The name under which an illegal word is rejected: the first item of R75 it falls under, in the order reserved
bits, opcode, used fields, unused fields. -/
def rejectReason (w : Word) : Reject :=
  let r := RawCommand.ofWord w
  if r.rsv != 0 then .reservedBits
  else match Opcode.ofByte? r.op with
    | none => .unknownOpcode
    | some o =>
      if (o.usesFd && 8 ≤ r.fd) || (o.usesFs1 && 8 ≤ r.fs1) || (o.usesFs2 && 8 ≤ r.fs2) then .registerIndex
      else .unusedField

/-- The decoder (R74): the command of the row that matches, or the word's rejection. Total on all `2^32` words. -/
def decode (w : Word) : Except Reject Instr :=
  match Opcode.all.find? fun o => o.matchesWord w with
  | some o => .ok (o.build (regField w 8) (regField w 12) (regField w 16))
  | none   => .error (rejectReason w)

/-- A register index as a 4-bit field. -/
def FReg.field (r : FReg) : BitVec 4 := BitVec.ofNat 4 r.val

/-- The fields of a command (R70, R71, R73): its opcode byte, its register indices, 0 in every field it does not use. -/
def Instr.raw (i : Instr) : RawCommand :=
  match i with
  | .fadd fd fs1 fs2 => ⟨i.opcode.byte, FReg.field fd, FReg.field fs1, FReg.field fs2, 0⟩
  | .fsub fd fs1 fs2 => ⟨i.opcode.byte, FReg.field fd, FReg.field fs1, FReg.field fs2, 0⟩
  | .fmul fd fs1 fs2 => ⟨i.opcode.byte, FReg.field fd, FReg.field fs1, FReg.field fs2, 0⟩
  | .finv fd fs1     => ⟨i.opcode.byte, FReg.field fd, FReg.field fs1, 0, 0⟩
  | .pcons fs1       => ⟨i.opcode.byte, 0, FReg.field fs1, 0, 0⟩
  | .peval fd fs1    => ⟨i.opcode.byte, FReg.field fd, FReg.field fs1, 0, 0⟩
  | .pshare          => ⟨i.opcode.byte, 0, 0, 0, 0⟩
  | .lrecon fd       => ⟨i.opcode.byte, FReg.field fd, 0, 0, 0⟩
  | .encrypt         => ⟨i.opcode.byte, 0, 0, 0, 0⟩
  | .decrypt         => ⟨i.opcode.byte, 0, 0, 0, 0⟩

/-- The encoder: the one word of a command (R70). -/
def encode (i : Instr) : Word := i.raw.toWord

/-- The 32-bit command word made of an opcode-table row's `nbits` low bits of `w`, every bit above them 0. A
command is one 32-bit word and is not laid out in any memory (R24, R76): the host writes it whole to `CMD`. -/
def tableWord (nbits w : Nat) : Word := BitVec.ofNat 32 (w % 2 ^ nbits)

/-- What the decoder reads from an opcode-table word. -/
def decodeTableWord (nbits w : Nat) : Option Instr :=
  match decode (tableWord nbits w) with
  | .ok i    => some i
  | .error _ => none

end Sys2Proof
end

