-- ==== Sys2Proof/Machine/Arith.lean ====
section
/-! DEFINITION. The arithmetic of the units, in unbounded integers (R112): the four field functions (R102), the
units' transaction-level interfaces (R104), Horner's method (R121) and Lagrange's formula at 0 (R141). Every
function takes the modulus `p`. -/

namespace Sys2Proof.Machine

/-- A field value as the contents of a 257-bit register. -/
def toField (v : Nat) : FieldWord := BitVec.ofNat 257 v

/-- `fadd(a, b) = (a + b) mod P` (R102). -/
def fadd (p a b : Nat) : Nat := (a + b) % p

/-- `fsub(a, b) = (a - b) mod P`, never negative (R11, R102). -/
def fsub (p a b : Nat) : Nat := (((a : Int) - (b : Int)) % (p : Int)).toNat

/-- `fmul(a, b) = (a * b) mod P` (R102). -/
def fmul (p a b : Nat) : Nat := (a * b) % p

/-- Square and multiply with `fuel` squarings: `acc * b ^ e mod m` when `e < 2 ^ fuel` (R110: the method is not part
of the contract). -/
def powModLoop (m : Nat) : Nat → Nat → Nat → Nat → Nat
  | 0, _, _, acc => acc
  | fuel + 1, b, e, acc =>
    powModLoop m fuel (b * b % m) (e / 2) (if e % 2 = 1 then acc * b % m else acc)

/-- `b ^ e mod m` (R110; `powMod_eq` in `Laws/Arith.lean` says so). -/
def powMod (b e m : Nat) : Nat := powModLoop m (e.log2 + 1) (b % m) e (1 % m)

/-- `finv(a)`: raises (`none`) when `a mod P = 0`, else `a ^ (P - 2) mod P` (R102). -/
def finv (p a : Nat) : Option Nat := if a % p = 0 then none else some (powMod a (p - 2) p)

/-- The adder unit `modular_adder_257bit` (R104): adds, or subtracts when `sub` is 1. -/
def adderUnit (p a b : Nat) (sub : Bool) : Nat := if sub then fsub p a b else fadd p a b

/-- The unit `modular_multiplier_257bit` (R104). -/
def multiplierUnit (p a b : Nat) : Nat := fmul p a b

/-- The unit `modular_inverse_257bit` (R104): `none` is `err_zero = 1`. -/
def inverseUnit (p a : Nat) : Option Nat := finv p a

/-- `Horner(c, x)` of coefficients in rising index order (R121): the leading coefficient reduced, then for each lower
one multiply by `x` and add. The empty list is never evaluated (R126, R128 raise first). -/
def horner (p : Nat) : List Nat → Nat → Nat
  | [], _ => 0
  | [c], _ => c % p
  | c :: d :: cs, x => adderUnit p (multiplierUnit p (horner p (d :: cs) x) x) c false

/-- One factor `xs[j] * finv(xs[j] - xs[i])` of a basis value (R141). -/
def basisFactor (p xi xj : Nat) : Option Nat :=
  (inverseUnit p (adderUnit p xj xi true)).map fun d => multiplierUnit p xj d

/-- The basis value of share `i` at 0: the product of its factors over all other supplied shares (R141). -/
def basisAtZero (p : Nat) (xs : List Nat) (i : Nat) : Option Nat :=
  (List.range xs.length).foldlM
    (fun L j => if j = i then some L else (basisFactor p (xs.getD i 0) (xs.getD j 0)).map (multiplierUnit p L)) 1

/-- `Recon(xs, ys)` (R141); `none` is `ZeroInverse`. -/
def recon (p : Nat) (xs ys : List Nat) : Option Nat :=
  (List.range xs.length).foldlM
    (fun acc i => (basisAtZero p xs i).map fun L => adderUnit p acc (multiplierUnit p L (ys.getD i 0)) false) 0

/-- The unit `polynomial_evaluator_gf_p` (R130). -/
def evaluatorUnit (p : Nat) (coefs : List Nat) (x : Nat) : Nat := horner p coefs x

/-- The unit `lagrange_interpolator_gf_p` (R147): `none` is `err_zero = 1`. -/
def interpolatorUnit (p : Nat) (xs ys : List Nat) : Option Nat := recon p xs ys

end Sys2Proof.Machine
end

