-- ==== Sys2Proof/Machine/Draws.lean ====
section
/-! DEFINITION. The draw discipline (R122): every draw of the block, in the order the block asks, from the list of the
answers the `RNG` gives. -/

namespace Sys2Proof.Machine

/-- What drawing came to: a value and the answers left, `RngExhausted` with the answers left (those asked for are
consumed, R187), or the `RNG` has not answered yet and the command cannot complete (R38, R66). -/
inductive Drawn (α : Type) where
  | ok (value : α) (rest : List Answer)
  | exhausted (rest : List Answer)
  | waiting
deriving DecidableEq, Repr

/-- Draw, then go on with the value and the answers left. -/
def Drawn.bind {α β : Type} (d : Drawn α) (k : α → List Answer → Drawn β) : Drawn β :=
  match d with
  | .ok v rest      => k v rest
  | .exhausted rest => .exhausted rest
  | .waiting        => .waiting

/-- One `Draw()`. -/
def drawOne : List Answer → Drawn Nat
  | []        => .waiting
  | a :: rest => .ok a.toNat rest

/-- The redraw loop both helpers share (R122): while `v` is not acceptable, raise if `r` redraws of this value have
been made and `limit` is `r`, else redraw. `limit = none` is `RETRY_MAX = INF`. -/
def redraw (bad : Nat → Bool) (limit : Option Nat) (v r : Nat) : List Answer → Drawn Nat
  | [] => if !bad v then .ok v [] else if limit == some r then .exhausted [] else .waiting
  | a :: rest =>
    if !bad v then .ok v (a :: rest)
    else if limit == some r then .exhausted (a :: rest)
    else redraw bad limit a.toNat (r + 1) rest

/-- `DrawNonZero(first)` (R122). -/
def drawNonZero (limit : Option Nat) (first : Nat) (stream : List Answer) : Drawn Nat :=
  redraw (fun v => v == 0) limit first 0 stream

/-- `DrawDistinct(S)` (R122). -/
def drawDistinct (limit : Option Nat) (chosen : List Nat) (stream : List Answer) : Drawn Nat :=
  (drawOne stream).bind fun v rest => redraw (fun w => chosen.contains w) limit v 0 rest

/-- `k` draws in order, none redrawn. -/
def drawMany : Nat → List Answer → Drawn (List Nat)
  | 0, stream => .ok [] stream
  | k + 1, stream =>
    (drawOne stream).bind fun v rest => (drawMany k rest).bind fun vs rest => .ok (v :: vs) rest

/-- `Construct(secret, t - 1)`: the coefficients of a random polynomial (R123, R165 step 5): the secret, then
`t - 1` draws in rising index order, then the redraws of the top one while it is 0. -/
def construct (limit : Option Nat) (secret t : Nat) (stream : List Answer) : Drawn (List Nat) :=
  (drawMany (t - 1) stream).bind fun drawn rest =>
    match drawn.getLast? with
    | none     => .ok [secret] rest
    | some top => (drawNonZero limit top rest).bind fun top rest => .ok (secret :: drawn.dropLast ++ [top]) rest

/-- `k` further share coordinates after those already chosen in this command, each with its own redraws before the
next one's first draw (R122, R128). -/
def drawShares (limit : Option Nat) : Nat → List Nat → List Answer → Drawn (List Nat)
  | 0, chosen, stream => .ok chosen stream
  | k + 1, chosen, stream =>
    (drawDistinct limit chosen stream).bind fun x rest => drawShares limit k (chosen ++ [x]) rest

end Sys2Proof.Machine
end

