-- ==== Sys2Proof/Config.lean ====
section
/-! DEFINITION. What is fixed when a block is built (R6, R7, R8, R203): the prime, the capacities, the redraw
bound and the injected primitives, as PLAIN DATA that `State` carries and no step changes, so that a claim about
every state is a claim about every block the spec allows. The primitives the spec leaves `OPEN` are the
uninterpreted constants at the end. -/

namespace Sys2Proof

/-- Which instantiation of an injected primitive a block was built with: the reference one that the spec's
numeric vectors use (SHA-256, AES-256, the UTF-8 table of R89), or the `k`-th of the uninterpreted ones, about
which nothing is known but the law of R8 (log entries 3 and 4). -/
inductive Primitive where
  | reference
  | free (k : Nat)
deriving DecidableEq, Repr

/-- The implementation parameters (R6, R7, R8). `retryMax = none` is the spec's `INF`. -/
structure Params where
  /-- `P`, the modulus (R6). -/
  p        : Nat
  /-- `T_MAX`, the number of entries of the coefficient store. -/
  tMax     : Nat
  /-- `N_MAX`, the number of entries of the share store. -/
  nMax     : Nat
  /-- `BUF_MAX`, the number of bytes of each of the four byte buffers. -/
  bufMax   : Nat
  /-- `RETRY_MAX`, a positive number of redraws, or `none` for `INF`. -/
  retryMax : Option Nat
  /-- `HASH` (R8). -/
  hash     : Primitive
  /-- `ENC` and `DEC` (R8). -/
  cipher   : Primitive
  /-- `VALID_TEXT` (R8). -/
  text     : Primitive
deriving DecidableEq, Repr

/-- The ranges R6 and R7 give the parameters (D2, D7, D18; U22: no rule says what a block outside them does).
`P` is taken as ANY prime in `(2^256, 2^257)`, as D2 does; the magnitude `2.08 * 10^77` is not used (log entry 2). -/
structure Params.Legal (c : Params) : Prop where
  prime    : c.p.Prime
  above    : 2 ^ 256 < c.p
  below    : c.p < 2 ^ 257
  tMax_pos : 1 ≤ c.tMax
  tMax_le  : c.tMax ≤ c.nMax
  nMax_le  : c.nMax ≤ 256
  buf_dvd  : 16 ∣ c.bufMax
  buf_pos  : 16 ≤ c.bufMax
  buf_le   : c.bufMax ≤ 65536
  retry    : c.retryMax ≠ some 0

/-- `P_REF`, the reference value of the modulus (R6, G1). -/
def pRef : Nat := 0x1cca2d61c8b9093f473c1fa8e3c7c654a8a66b1626da78d234292117dd7d46a41

/-- The reference instantiation the numeric vectors use: `T_MAX = N_MAX = 16`, `BUF_MAX = 4096`,
`RETRY_MAX = INF` (R6, R7, R8 and `95_test_vectors.md`; DESIGN CHOICE for what `State.reset` carries, log entry 2). -/
def Params.reference : Params where
  p        := pRef
  tMax     := 16
  nMax     := 16
  bufMax   := 4096
  retryMax := none
  hash     := .reference
  cipher   := .reference
  text     := .reference

/-- FREE VALUE (D22, log entry 3). The `k`-th uninterpreted hash: a total function from byte strings to 32 bytes,
and nothing more. -/
opaque Config.freeHash : Nat → List Byte → Bytes 32

/-- FREE VALUE (D23, log entry 3). The `k`-th uninterpreted block cipher. R8 gives it one law,
`DEC(k, ENC(k, b)) = b`; blocks are finitely many, so that law says exactly that `ENC(k, ·)` is a permutation of
the blocks and `DEC(k, ·)` its inverse. -/
opaque Config.freeCipher : Nat → Bytes 32 → Equiv.Perm (Bytes 16)

/-- FREE VALUE (D25, log entry 3). The `k`-th uninterpreted test behind "do not decode as valid text". -/
opaque Config.freeText : Nat → List Byte → Bool

end Sys2Proof
end

