-- ==== Sys2Proof/Machine/Memory.lean ====
section
/-! DEFINITION. Indexed storage as plain data in ONE canonical form: a list of (index, value) pairs, indexes
strictly rising, no entry equal to what an unlisted index reads as. The byte buffers use it with 8-bit values keyed
by host byte address, the coefficient and share stores with 257-bit values keyed by entry index. -/

namespace Sys2Proof.Machine

/-- Sparse storage of `w`-bit values; `Memory 8` is a list of `Host.Cell`. -/
abbrev Memory (w : Nat) := List (Nat × BitVec w)

/-- What an unlisted index reads as: 0, the reset contents of every store entry and buffer byte (R42). -/
def Memory.unlisted (w : Nat) : BitVec w := 0

/-- Nothing listed: the contents after reset (R42). -/
def Memory.empty {w : Nat} : Memory w := []

/-- One value. -/
def Memory.read {w : Nat} : Memory w → Nat → BitVec w
  | [], _ => Memory.unlisted w
  | (k, v) :: m, a => if k = a then v else Memory.read m a

/-- Write one value, keeping the canonical form: a value equal to `unlisted` removes the entry. -/
def Memory.write {w : Nat} : Memory w → Nat → BitVec w → Memory w
  | [], a, v => if v = Memory.unlisted w then [] else [(a, v)]
  | (k, u) :: m, a, v =>
    if a < k then (if v = Memory.unlisted w then (k, u) :: m else (a, v) :: (k, u) :: m)
    else if a = k then (if v = Memory.unlisted w then m else (a, v) :: m)
    else (k, u) :: Memory.write m a v

/-- Write `vs` at `a`, `a + 1`, …. -/
def Memory.writeList {w : Nat} (m : Memory w) (a : Nat) : List (BitVec w) → Memory w
  | [] => m
  | v :: vs => Memory.writeList (Memory.write m a v) (a + 1) vs

/-- Read `n` values from `a` on. -/
def Memory.readList {w : Nat} (m : Memory w) (a n : Nat) : List (BitVec w) :=
  (List.range n).map fun j => Memory.read m (a + j)

/-- The canonical form. -/
abbrev Memory.wf {w : Nat} (m : Memory w) : Prop :=
  m.Pairwise (fun c d => c.1 < d.1) ∧ ∀ c ∈ m, c.2 ≠ Memory.unlisted w

/-- Every listed index satisfies `p`: nothing stands where the block has no storage. -/
def Memory.within {w : Nat} (m : Memory w) (p : Nat → Bool) : Prop := ∀ c ∈ m, p c.1 = true

end Sys2Proof.Machine
end

