-- ==== Sys2Proof/Machine/State.lean ====
section
/-! DEFINITION. The state of the block as plain data (R20), the reasons a step can stop, and the state after reset
(R42, R200). -/

namespace Sys2Proof.Machine

/-- `PHASE` (R35). -/
inductive Phase where
  | idle
  | busy
deriving DecidableEq, Repr

/-- The error kinds of `STATUS.ERR` (R181). Codes 6 to 15 are reserved and never produced (R188, U16), so they have
no constructor. -/
inductive CmdError where
  /-- Code 1: `FINV`, `LRECON`, `DECRYPT` (R182). -/
  | zeroInverse
  /-- Code 2: `DECRYPT` (R183). -/
  | decryptionError
  /-- Code 3: `PCONS`, `PEVAL`, `PSHARE`, `LRECON`, `ENCRYPT`, `DECRYPT` (R184). -/
  | invalidParameters
  /-- Code 4: any word that is no command (R185). -/
  | illegalCommand
  /-- Code 5: `PCONS`, `PSHARE`, `ENCRYPT`, only when `RETRY_MAX` is finite (R187). -/
  | rngExhausted
deriving DecidableEq, Repr

/-- One access of the host (R51, R52): the byte address, the width in bytes, and for a write the datum. Only width 4
at a multiple of 4 is an access the port completes (R54). -/
inductive BusRequest where
  | read (addr size : Nat)
  | write (addr size : Nat) (value : Word)
deriving DecidableEq, Repr

/-- The port's response (R51): `OKAY` with a datum for a read, `OKAY` for a write, or `ERROR`. -/
inductive BusResponse where
  | data (value : Word)
  | written
  | error
deriving DecidableEq, Repr

/-- Who moves in a step (log entry 1): the host (one access), the sequencer (a completion), or the reset input. The
reset entry says how many answers the `RNG` had already given an abandoned command (R201, log entry 10). -/
inductive Turn where
  | host
  | sequencer
  | reset (lost : Nat)
deriving DecidableEq, Repr

/-- The hidden registers of R20 that no host access reaches (R39). `RETRY` is "implementation-sized" (log entry 8). -/
structure Hidden where
  /-- `KEY`, 32 bytes, the first in the most significant bits as on the cipher port (R66). -/
  key    : BitVec 256
  /-- `SECRET`, 257 bits. -/
  secret : FieldWord
  /-- `PAY`, `BUF_MAX` bytes, keyed by index. -/
  pay    : Memory 8
  /-- `ACC`, 257 bits. -/
  acc    : FieldWord
  /-- `LI`, 257 bits. -/
  li     : FieldWord
  /-- `RETRY`. -/
  retry  : Nat
deriving DecidableEq, Repr

/-- Every hidden register 0 (R41, R42). -/
def Hidden.cleared : Hidden where
  key    := 0
  secret := 0
  pay    := Memory.empty
  acc    := 0
  li     := 0
  retry  := 0

/-- No step of this machine ends in a fault: every error is a way for a command to complete and is reported in
`STATUS` (R180, R186), and a bus `ERROR` is a response to the host (R57). So there is no reason to list. Safe. -/
inductive Fault where
deriving DecidableEq, Repr

/-- Why a step has no meaning. -/
inductive Refusal where
  /-- Raised by an arm of `exec` whose instruction has no meaning yet; every arm has one, so no step raises it.
  Safe: a refused step proves nothing. -/
  | notModelled (mnemonic : String)
deriving DecidableEq, Repr

/-- The state. The first part is the block's own (R20), each field at one home; the last part is the model's own
view of what stands outside the block: its parameters (log entry 2), the `RNG`'s answers (log entry 5), whose turn
it is (log entry 1) and the host port (log entry 7). -/
structure State where
  /-- `f[0..7]` (R21). -/
  f      : Vector FieldWord 8
  /-- `COEF`, keyed by index (R31). -/
  coef   : Memory 257
  /-- `CLEN` (R29). -/
  clen   : Word
  /-- `SHX`, keyed by index (R32). -/
  shx    : Memory 257
  /-- `SHY`, keyed by index (R32). -/
  shy    : Memory 257
  /-- `SHN` (R29). -/
  shn    : Word
  /-- `N` (R28). -/
  n      : Word
  /-- `T` (R28). -/
  t      : Word
  /-- The bytes of `PW`, `LBL`, `DAT`, `CT`, keyed by host byte address (R33, R55, log entry 12). -/
  mem    : Memory 8
  /-- `PWLEN` (R30). -/
  pwlen  : Word
  /-- `LBLLEN` (R30). -/
  lbllen : Word
  /-- `DATLEN` (R30). -/
  datlen : Word
  /-- `CTLEN` (R30). -/
  ctlen  : Word
  /-- `PHASE`; `STATUS.BUSY` reads it (R35). -/
  phase  : Phase
  /-- `CMDL`, the latched command word, meaningful only while busy (R35). -/
  cmdl   : Word
  /-- `STATUS.DONE` (R27). -/
  done   : Bool
  /-- `STATUS.ERR`; `none` is code 0 (R27, R181). -/
  err    : Option CmdError
  /-- `KEY`, `SECRET`, `PAY`, `ACC`, `LI`, `RETRY` (R39). -/
  hidden : Hidden
  /-- The parameters the block was built with; no step changes them (R203). -/
  cfg    : Params
  /-- The answers the `RNG` gives from here on, in order (R9, R40). -/
  rng    : List Answer
  /-- Who moves next; empty: the sequencer while a command runs, else the host. -/
  turns  : List Turn
  /-- The host's accesses not yet completed, in its order (R60). -/
  inbox  : List BusRequest
  /-- The responses given so far, oldest first. -/
  outbox : List BusResponse
deriving DecidableEq, Repr

/-- The state right after reset (R42, R200): every bit of the block's state 0, idle, nothing listed. The model's own
fields: the reference parameters, no answer, no access and no turn waiting (log entries 1, 2, 5, 7). -/
def State.reset : State where
  f      := Vector.replicate 8 0
  coef   := Memory.empty
  clen   := 0
  shx    := Memory.empty
  shy    := Memory.empty
  shn    := 0
  n      := 0
  t      := 0
  mem    := Memory.empty
  pwlen  := 0
  lbllen := 0
  datlen := 0
  ctlen  := 0
  phase  := .idle
  cmdl   := 0
  done   := false
  err    := none
  hidden := Hidden.cleared
  cfg    := Params.reference
  rng    := []
  turns  := []
  inbox  := []
  outbox := []

end Sys2Proof.Machine
end

