-- ==== Sys2Proof/Machine/Flags.lean ====
section
/-! DEFINITION. The only flag-like state of the block (R25): the `STATUS` word and the error codes (R27, R181). -/

namespace Sys2Proof.Machine

/-- The code of an error kind (R181). -/
def CmdError.code : CmdError → BitVec 4
  | .zeroInverse       => 1
  | .decryptionError   => 2
  | .invalidParameters => 3
  | .illegalCommand    => 4
  | .rngExhausted      => 5

/-- `STATUS.ERR`: the code of the last completed command, 0 for none (R27, R181). -/
def State.errCode (s : State) : BitVec 4 :=
  match s.err with
  | none   => 0
  | some e => e.code

/-- `STATUS.BUSY` reads `PHASE` (R35). -/
def State.busyBit (s : State) : BitVec 1 :=
  match s.phase with
  | .idle => 0
  | .busy => 1

/-- `STATUS.DONE` (R27). -/
def State.doneBit (s : State) : BitVec 1 := BitVec.ofBool s.done

/-- The `STATUS` word: `BUSY` in bit 0, `DONE` in bit 1, `ERR` in bits 7:4, every reserved bit 0 (R27, R43). -/
def State.statusWord (s : State) : Word :=
  (0 : BitVec 24) ++ s.errCode ++ (0 : BitVec 2) ++ s.doneBit ++ s.busyBit

end Sys2Proof.Machine
end

