-- ==== Sys2Proof/Machine/Operands.lean ====
section
/-! DEFINITION. Every way a command reads an input (R71): a field register by index, and the named registers, stores
and buffers its rule lists, below their count or length (R31 to R33). -/

namespace Sys2Proof.Machine

/-- The four byte buffers (R33). -/
inductive Buffer where
  | pw | lbl | dat | ct
deriving DecidableEq, Repr

/-- The host byte address of byte 0 of a buffer (R55). -/
def Buffer.base : Buffer → Nat
  | .pw  => 0x10000
  | .lbl => 0x20000
  | .dat => 0x30000
  | .ct  => 0x40000

/-- `f[r]`. -/
def State.reg (s : State) (r : FReg) : FieldWord := s.f[r]

/-- `f[r]` as the integer it is, reduced or not (R101). -/
def State.operand (s : State) (r : FReg) : Nat := (s.reg r).toNat

/-- The first `k` entries of a store as integers. -/
def entries (m : Memory 257) (k : Nat) : List Nat := (Memory.readList m 0 k).map BitVec.toNat

/-- `COEF[0 .. CLEN-1]` (R31). -/
def State.coefs (s : State) : List Nat := entries s.coef s.clen.toNat

/-- `SHX[0 .. SHN-1]` (R32). -/
def State.shareXs (s : State) : List Nat := entries s.shx s.shn.toNat

/-- `SHY[0 .. SHN-1]` (R32). -/
def State.shareYs (s : State) : List Nat := entries s.shy s.shn.toNat

/-- The length register of a buffer (R30). -/
def State.lenOf (s : State) : Buffer → Word
  | .pw  => s.pwlen
  | .lbl => s.lbllen
  | .dat => s.datlen
  | .ct  => s.ctlen

/-- The first `k` bytes of a buffer. -/
def State.bufferBytes (s : State) (b : Buffer) (k : Nat) : List Byte := Memory.readList s.mem b.base k

/-- The bytes of a buffer below its length register (R33). -/
def State.contents (s : State) (b : Buffer) : List Byte := s.bufferBytes b (s.lenOf b).toNat

end Sys2Proof.Machine
end

