-- ==== Sys2Proof/Machine/Ops.lean ====
section
/-! DEFINITION. The named operations on the state: issue (R36), completion (R38, R41), an error as ONE shared
operation (R186), the writes of the destinations the rules name, and reset (R200). -/

namespace Sys2Proof.Machine

/-- What a step answers. -/
abbrev Result := Host.Outcome State Fault Refusal

/-- Issue of command word `w` (R36): latched, `PHASE` busy, `DONE` and `ERR` cleared; nothing else changes. -/
def State.issue (s : State) (w : Word) : State :=
  { s with cmdl := w, phase := .busy, done := false, err := none }

/-- Parts (d) and (e) of a completion (R38): the hidden registers cleared, `CMDL` too (R41, D32, log entry 9), `ERR`
the error's code or 0, `DONE` set, `PHASE` idle. -/
def State.complete (s : State) (e : Option CmdError) : State :=
  { s with hidden := Hidden.cleared, cmdl := 0, err := e, done := true, phase := .idle }

/-- Completion without error of a command whose destinations are already written in `s` (R38). -/
def State.finish (s : State) : Result := .next (s.complete none)

/-- `raise <Error>` (R186): the command completes, and nothing but `STATUS` and the hidden state changes from `s`,
the state at issue. Nothing is saved and control goes nowhere. There is no return from an error (R191): the next
issue clears `DONE` and `ERR`. -/
def State.raise (s : State) (e : CmdError) : Result := .next (s.complete (some e))

/-- `f[r] <- v` for a value already reduced (R21). -/
def State.setReg (s : State) (r : FReg) (v : Nat) : State := { s with f := s.f.set r (toField v) }

/-- `f[r] <- v` for a value that may be missing because an inverse of zero was asked for (R182). -/
def State.finishReg (s : State) (r : FReg) (v : Option Nat) : Result :=
  match v with
  | some x => (s.setReg r x).finish
  | none   => s.raise .zeroInverse

/-- A command that draws completes only when every draw it needs has been answered (R38): until then nothing
changes (log entry 6). Answers it asked for are consumed with or without error (R186, R187). -/
def State.withDraws {α : Type} (s : State) (d : Drawn α) (k : α → State → Result) : Result :=
  match d with
  | .ok v rest      => k v { s with rng := rest }
  | .exhausted rest => State.raise { s with rng := rest } .rngExhausted
  | .waiting        => .next s

/-- `COEF[i] <- c[i]` for every coefficient, `CLEN <- len` (R123). Entries above are not written. -/
def State.setCoefs (s : State) (c : List Nat) (len : Word) : State :=
  { s with coef := Memory.writeList s.coef 0 (c.map toField), clen := len }

/-- `COEF[i] <- 0` for every entry of the store, `CLEN <- 0` (R165 step 9, R166). -/
def State.clearCoefs (s : State) : State :=
  { s with coef := Memory.writeList s.coef 0 (List.replicate s.cfg.tMax 0), clen := 0 }

/-- `SHX[i] <- xs[i]`, `SHY[i] <- ys[i]` for every share, `SHN <- len` (R128). Entries above are not written. -/
def State.setShares (s : State) (xs ys : List Nat) (len : Word) : State :=
  { s with
    shx := Memory.writeList s.shx 0 (xs.map toField)
    shy := Memory.writeList s.shy 0 (ys.map toField)
    shn := len }

/-- The length register of a buffer written (R30). -/
def State.setLen (s : State) (b : Buffer) (v : Word) : State :=
  match b with
  | .pw  => { s with pwlen := v }
  | .lbl => { s with lbllen := v }
  | .dat => { s with datlen := v }
  | .ct  => { s with ctlen := v }

/-- A byte string to a buffer from byte 0 on, and its length to the length register (R165 step 9, R170 step 8).
Bytes at or above the new length are not written (R33). -/
def State.setBuffer (s : State) (b : Buffer) (bytes : List Byte) : State :=
  { s with mem := Memory.writeList s.mem b.base bytes }.setLen b (BitVec.ofNat 32 bytes.length)

/-- Reset (R200): every bit of the block's state as in `State.reset`; the parameters, the `RNG` and the host stay
(R203, log entry 10). -/
def State.resetBlock (s : State) : State :=
  { State.reset with cfg := s.cfg, rng := s.rng, turns := s.turns, inbox := s.inbox, outbox := s.outbox }

end Sys2Proof.Machine
end

