-- ==== Sys2Proof/Machine/Bus.lean ====
section
/-! DEFINITION. The host port (R50 to R59): the address map, one 32-bit access, and the hold (R37). -/

namespace Sys2Proof.Machine

/-- The eight 32-bit read-write registers (R28 to R30). -/
inductive CountReg where
  | n | t | clen | shn | pwlen | lbllen | datlen | ctlen
deriving DecidableEq, Repr

/-- The three stores of 257-bit entries (R31, R32). -/
inductive Store where
  | coef | shx | shy
deriving DecidableEq, Repr

/-- What the map places at a word address (R55): `w` is a word index 0..8 of a 257-bit location. -/
inductive Loc where
  | cmd
  | status
  | count (r : CountReg)
  | field (r : FReg) (w : Fin 9)
  | entry (st : Store) (i : Nat) (w : Fin 9)
  | bytes (a : Nat)
deriving DecidableEq, Repr

/-- The address of a 32-bit register (R55). -/
def CountReg.addr : CountReg → Nat
  | .n      => 0x00008
  | .t      => 0x0000C
  | .clen   => 0x00010
  | .shn    => 0x00014
  | .pwlen  => 0x00018
  | .lbllen => 0x0001C
  | .datlen => 0x00020
  | .ctlen  => 0x00024

/-- The eight registers in address order. -/
def CountReg.all : List CountReg := [.n, .t, .clen, .shn, .pwlen, .lbllen, .datlen, .ctlen]

/-- The address of entry 0 of a store (R55). -/
def Store.base : Store → Nat
  | .coef => 0x01000
  | .shx  => 0x05000
  | .shy  => 0x09000

/-- The number of entries of a store (R7). -/
def Store.count (c : Params) : Store → Nat
  | .coef => c.tMax
  | .shx  => c.nMax
  | .shy  => c.nMax

/-- The address of `f[0]` (R55). -/
def fieldBase : Nat := 0x00100

/-- An address in a bank of `count` 64-byte slots at `base`: the slot and the word in it. Words 9..15 of a slot are
reserved (R55, R57). -/
def slotOf (base count addr : Nat) : Option (Nat × Fin 9) :=
  if base ≤ addr ∧ addr < base + 0x40 * count then
    let off := addr - base
    if h : off % 0x40 / 4 < 9 then some (off / 0x40, ⟨off % 0x40 / 4, h⟩) else none
  else none

/-- The field register words of the map (R55). -/
def locField (addr : Nat) : Option Loc :=
  match slotOf fieldBase 8 addr with
  | some (i, w) => if h : i < 8 then some (.field ⟨i, h⟩ w) else none
  | none        => none

/-- The words of a store in the map (R55). -/
def locStore (c : Params) (st : Store) (addr : Nat) : Option Loc :=
  (slotOf st.base (st.count c) addr).map fun iw => .entry st iw.1 iw.2

/-- The words of a buffer in the map (R55, R59). -/
def locBuffer (c : Params) (b : Buffer) (addr : Nat) : Option Loc :=
  if b.base ≤ addr ∧ addr < b.base + c.bufMax then some (.bytes addr) else none

/-- The map at a word address (R55); `none` is a reserved address (R57). -/
def locOf (c : Params) (addr : Nat) : Option Loc :=
  if addr = 0x00000 then some .cmd
  else if addr = 0x00004 then some .status
  else match CountReg.all.find? fun r => r.addr == addr with
    | some r => some (.count r)
    | none =>
      ((((((locField addr).or (locStore c .coef addr)).or (locStore c .shx addr)).or (locStore c .shy addr)).or
        (locBuffer c .pw addr)).or (locBuffer c .lbl addr)).or
        ((locBuffer c .dat addr).or (locBuffer c .ct addr))

/-- Word `w` of a 257-bit value, least significant first; word 8 holds bit 256 in its bit 0 (R56). -/
def wordAt (v : FieldWord) (w : Fin 9) : Word := (v >>> (32 * w.val)).setWidth 32

/-- A 257-bit value with word `w` replaced; bits 31:1 of word 8 are ignored (R56). -/
def withWord (v : FieldWord) (w : Fin 9) (x : Word) : FieldWord :=
  (v &&& ~~~((0xFFFFFFFF : FieldWord) <<< (32 * w.val))) ||| (x.setWidth 257 <<< (32 * w.val))

/-- A 32-bit register read. -/
def State.count (s : State) : CountReg → Word
  | .n      => s.n
  | .t      => s.t
  | .clen   => s.clen
  | .shn    => s.shn
  | .pwlen  => s.pwlen
  | .lbllen => s.lbllen
  | .datlen => s.datlen
  | .ctlen  => s.ctlen

/-- A 32-bit register written: every value is storable (R28 to R30). -/
def State.setCount (s : State) (r : CountReg) (v : Word) : State :=
  match r with
  | .n      => { s with n := v }
  | .t      => { s with t := v }
  | .clen   => { s with clen := v }
  | .shn    => { s with shn := v }
  | .pwlen  => { s with pwlen := v }
  | .lbllen => { s with lbllen := v }
  | .datlen => { s with datlen := v }
  | .ctlen  => { s with ctlen := v }

/-- A store. -/
def State.store (s : State) : Store → Memory 257
  | .coef => s.coef
  | .shx  => s.shx
  | .shy  => s.shy

/-- A store replaced. -/
def State.setStore (s : State) (st : Store) (m : Memory 257) : State :=
  match st with
  | .coef => { s with coef := m }
  | .shx  => { s with shx := m }
  | .shy  => { s with shy := m }

/-- The four bytes at `a` as a word, the byte of lowest address in bits 7:0 (R53, R59). -/
def readWord (m : Memory 8) (a : Nat) : Word :=
  Memory.read m (a + 3) ++ Memory.read m (a + 2) ++ Memory.read m (a + 1) ++ Memory.read m a

/-- A word to the four bytes at `a` (R53, R59): all four are written. -/
def writeWord (m : Memory 8) (a : Nat) (v : Word) : Memory 8 :=
  Memory.writeList m a
    [v.extractLsb' 0 8, v.extractLsb' 8 8, v.extractLsb' 16 8, v.extractLsb' 24 8]

/-- The word a read of a location returns; no read has a side effect (R26, R27, R56, R58, R59). -/
def State.readLoc (s : State) : Loc → Word
  | .cmd          => 0
  | .status       => s.statusWord
  | .count r      => s.count r
  | .field r w    => wordAt (s.reg r) w
  | .entry st i w => wordAt (Memory.read (s.store st) i) w
  | .bytes a      => readWord s.mem a

/-- A write to a location: `CMD` issues, `STATUS` ignores it, everything else stores it (R26, R27, R56, R58, R59). -/
def State.writeLoc (s : State) (l : Loc) (v : Word) : State :=
  match l with
  | .cmd          => s.issue v
  | .status       => s
  | .count r      => s.setCount r v
  | .field r w    => { s with f := s.f.set r (withWord (s.reg r) w v) }
  | .entry st i w => s.setStore st (Memory.write (s.store st) i (withWord (Memory.read (s.store st) i) w v))
  | .bytes a      => { s with mem := writeWord s.mem a v }

/-- The location an access of a width at an address names; `none` is the response `ERROR` (R54, R57). -/
def accessLoc (c : Params) (addr size : Nat) : Option Loc :=
  if size = 4 ∧ addr % 4 = 0 then locOf c addr else none

/-- `MemRead(addr, size)` (R52). -/
def State.memRead (s : State) (addr size : Nat) : BusResponse :=
  match accessLoc s.cfg addr size with
  | some l => .data (s.readLoc l)
  | none   => .error

/-- `MemWrite(addr, size, v)` (R52): the state after, and the response. -/
def State.memWrite (s : State) (addr size : Nat) (v : Word) : State × BusResponse :=
  match accessLoc s.cfg addr size with
  | some l => (s.writeLoc l v, .written)
  | none   => (s, .error)

/-- One access carried out: the state after, and the response. -/
def State.access (s : State) : BusRequest → State × BusResponse
  | .read addr size    => (s, s.memRead addr size)
  | .write addr size v => s.memWrite addr size v

/-- The one access the port accepts while busy (R37): a read of `STATUS`. -/
def BusRequest.isStatusRead : BusRequest → Bool
  | .read addr size => addr == 0x00004 && size == 4
  | .write ..       => false

/-- Whether an access is held (R37). -/
def State.holds (s : State) (q : BusRequest) : Bool := s.phase == .busy && !q.isStatusRead

/-- The host's turn: its oldest pending access is completed and answered, or held and nothing changes (R37, R60). -/
def State.hostTurn (s : State) : State :=
  match s.inbox with
  | []        => s
  | q :: rest =>
    if s.holds q then s
    else
      let r := s.access q
      { r.1 with inbox := rest, outbox := s.outbox ++ [r.2] }

end Sys2Proof.Machine
end

