-- ==== Sys2Proof/Machine/Bytes.lean ====
section
/-! DEFINITION. Byte strings (R78 to R84): the two big-endian key conversions, the hexadecimal pad digit, and the
padded payload. `Unpad` stands in `EnvelopeCommands.lean`, since it needs the text test and an error. -/

namespace Sys2Proof.Machine

/-- `int_be`: the first byte is the most significant (R78). -/
def intBe (b : List Byte) : Nat := b.foldl (fun acc c => acc * 256 + c.toNat) 0

/-- Byte `i` of the `m`-byte big-endian form of `v`. -/
def byteBe (m v i : Nat) : Byte := BitVec.ofNat 8 (v >>> (8 * (m - 1 - i)))

/-- `bytes_be_32(v)`: byte `i` is `v[255-8i : 248-8i]` (R79). -/
def bytesBe32 (v : Nat) : Bytes 32 := ⟨(List.range 32).map (byteBe 32 v), by simp⟩

/-- A byte string as the bits of a primitive's port: the first byte in the most significant bits (R66). -/
def portBits {n : Nat} (b : Bytes n) : BitVec (8 * n) := BitVec.ofNat (8 * n) (intBe b.toList)

/-- `HexDigit(d)` for `d` in 0..15: `'0'`..`'9'`, then lower-case `'a'`..`'f'` (R81). -/
def hexDigit (d : Nat) : Byte := BitVec.ofNat 8 (if d ≤ 9 then 0x30 + d else 0x61 + (d - 10))

/-- `HexVal(c)`: both cases of letter are read; `none` is "not a hex digit" (R81). -/
def hexVal (c : Byte) : Option Nat :=
  let v := c.toNat
  if 0x30 ≤ v ∧ v ≤ 0x39 then some (v - 0x30)
  else if 0x61 ≤ v ∧ v ≤ 0x66 then some (v - 0x61 + 10)
  else if 0x41 ≤ v ∧ v ≤ 0x46 then some (v - 0x41 + 10)
  else none

/-- The number of pad bytes for `m = len(L) + 1 + len(C)`: `k = 16 - (m mod 16)`, in 1..16 (R82). -/
def padCount (m : Nat) : Nat := 16 - m % 16

/-- `Pad(L, C) = L ‖ [0x00] ‖ C ‖ pad` (R82). -/
def pad (l c : List Byte) : List Byte :=
  let k := padCount (l.length + 1 + c.length)
  l ++ (0 :: c) ++ List.replicate k (hexDigit (k % 16))

/-- The length `lp` of the padded payload of a label and a content of given lengths (R83, R165 step 3). -/
def paddedLength (labelLen contentLen : Nat) : Nat := 16 * ((labelLen + 1 + contentLen) / 16 + 1)

/-- The 16 bytes of block `q` of a byte string. -/
def cipherBlock (m : List Byte) (q : Nat) : Bytes 16 := ⟨(List.range 16).map fun j => m.getD (16 * q + j) 0, by simp⟩

/-- A byte string cut into 16-byte blocks, in order; a rest of fewer than 16 bytes is not reached, since the length
is a multiple of 16 wherever this is used (R152). -/
def blocksOf (m : List Byte) : List (Bytes 16) := (List.range (m.length / 16)).map (cipherBlock m)

/-- The blocks joined again. -/
def joinBlocks (bs : List (Bytes 16)) : List Byte := bs.flatMap fun b => b.toList

end Sys2Proof.Machine
end

