-- ==== Sys2Proof/Machine/Aes.lean ====
section
/-! DEFINITION. AES with a 256-bit key, the reference instantiation of `ENC` and `DEC` (R8, G3). PRESUMED: its inside
is from general knowledge and not in the spec (R4 leaves it out); the spec gives one known-answer pair and some
ciphertexts, which `Tests/Slice0.lean` checks. No rule depends on it (log entry 4). -/

namespace Sys2Proof.Machine

/-- Sixteen rows of sixteen bytes, the first byte of a row in the most significant digits. -/
def sboxRows : List Nat :=
  [0x637c777bf26b6fc53001672bfed7ab76, 0xca82c97dfa5947f0add4a2af9ca472c0,
   0xb7fd9326363ff7cc34a5e5f171d83115, 0x04c723c31896059a071280e2eb27b275,
   0x09832c1a1b6e5aa0523bd6b329e32f84, 0x53d100ed20fcb15b6acbbe394a4c58cf,
   0xd0efaafb434d338545f9027f503c9fa8, 0x51a3408f929d38f5bcb6da2110fff3d2,
   0xcd0c13ec5f974417c4a77e3d645d1973, 0x60814fdc222a908846eeb814de5e0bdb,
   0xe0323a0a4906245cc2d3ac629195e479, 0xe7c8376d8dd54ea96c56f4ea657aae08,
   0xba78252e1ca6b4c6e8dd741f4bbd8b8a, 0x703eb5664803f60e613557b986c11d9e,
   0xe1f8981169d98e949b1e87e9ce5528df, 0x8ca1890dbfe6426841992d0fb054bb16]

/-- The rows of the inverse substitution. -/
def invSboxRows : List Nat :=
  [0x52096ad53036a538bf40a39e81f3d7fb, 0x7ce339829b2fff87348e4344c4dee9cb,
   0x547b9432a6c2233dee4c950b42fac34e, 0x082ea16628d924b2765ba2496d8bd125,
   0x72f8f66486689816d4a45ccc5d65b692, 0x6c704850fdedb9da5e154657a78d9d84,
   0x90d8ab008cbcd30af7e45805b8b34506, 0xd02c1e8fca3f0f02c1afbd0301138a6b,
   0x3a9111414f67dcea97f2cfcef0b4e673, 0x96ac7422e7ad3585e2f937e81c75df6e,
   0x47f11a711d29c5896fb7620eaa18be1b, 0xfc563e4bc6d279209adbc0fe78cd5af4,
   0x1fdda8338807c731b11210592780ec5f, 0x60517fa919b54a0d2de57a9f93c99cef,
   0xa0e03b4dae2af5b0c8ebbb3c83539961, 0x172b047eba77d626e169146355210c7d]

/-- The byte of a table at index `b`. -/
def tableByte (rows : List Nat) (b : Byte) : Byte :=
  BitVec.ofNat 8 (rows.getD (b.toNat / 16) 0 >>> (8 * (15 - b.toNat % 16)))

/-- The byte substitution. -/
def subByte (b : Byte) : Byte := tableByte sboxRows b

/-- The inverse byte substitution. -/
def invSubByte (b : Byte) : Byte := tableByte invSboxRows b

/-- Multiplication by `x` in the byte field. -/
def xtime (b : Byte) : Byte := (b <<< 1) ^^^ (if b.msb then 0x1b else 0)

/-- Multiplication by a constant below 16 in the byte field. -/
def gfMul (k : BitVec 4) (b : Byte) : Byte :=
  (if k.getLsbD 0 then b else 0) ^^^ (if k.getLsbD 1 then xtime b else 0) ^^^
    (if k.getLsbD 2 then xtime (xtime b) else 0) ^^^ (if k.getLsbD 3 then xtime (xtime (xtime b)) else 0)

/-- Byte `i` of a block; byte `4c + r` is row `r` of column `c`. -/
def blockAt (b : Bytes 16) (i : Nat) : Byte := b.toList.getD i 0

/-- The block of given bytes. -/
def blockOf (g : Nat → Byte) : Bytes 16 := ⟨(List.range 16).map g, by simp⟩

/-- The round key is added. -/
def addRoundKey (k b : Bytes 16) : Bytes 16 := blockOf fun i => blockAt b i ^^^ blockAt k i

/-- Every byte is substituted. -/
def subBytes (b : Bytes 16) : Bytes 16 := blockOf fun i => subByte (blockAt b i)

/-- Every byte is substituted back. -/
def invSubBytes (b : Bytes 16) : Bytes 16 := blockOf fun i => invSubByte (blockAt b i)

/-- Row `r` is rotated left by `r`. -/
def shiftRows (b : Bytes 16) : Bytes 16 := blockOf fun i => blockAt b ((i + 4 * (i % 4)) % 16)

/-- Row `r` is rotated right by `r`. -/
def invShiftRows (b : Bytes 16) : Bytes 16 := blockOf fun i => blockAt b ((i + 12 * (i % 4)) % 16)

/-- Each column is multiplied by the circulant matrix with first row `k0 k1 k2 k3`. -/
def mixWith (k0 k1 k2 k3 : BitVec 4) (b : Bytes 16) : Bytes 16 :=
  blockOf fun i =>
    let c := 4 * (i / 4)
    gfMul k0 (blockAt b (c + i % 4)) ^^^ gfMul k1 (blockAt b (c + (i + 1) % 4)) ^^^
      gfMul k2 (blockAt b (c + (i + 2) % 4)) ^^^ gfMul k3 (blockAt b (c + (i + 3) % 4))

/-- The column mixing. -/
def mixColumns : Bytes 16 → Bytes 16 := mixWith 2 3 1 1

/-- The inverse column mixing. -/
def invMixColumns : Bytes 16 → Bytes 16 := mixWith 14 11 13 9

/-- Four bytes added to four bytes. -/
def xorBytes (a b : List Byte) : List Byte := List.zipWith (· ^^^ ·) a b

/-- Words 1, 2, 3 after the first of a half group: each is the word before it added to its predecessor's. -/
def keyHalf (first : List Byte) (olds : List (List Byte)) : List (List Byte) :=
  olds.foldl (fun ws o => ws ++ [xorBytes o (ws.getLastD [])]) [first]

/-- The next eight words of the key schedule after the eight words `g`. -/
def nextKeyGroup (g : List (List Byte)) (rcon : Byte) : List (List Byte) :=
  let last := g.getD 7 []
  let rot := (last.drop 1 ++ last.take 1).map subByte
  let w0 := xorBytes (g.getD 0 []) (xorBytes rot [rcon, 0, 0, 0])
  let lo := keyHalf w0 ((g.drop 1).take 3)
  let w4 := xorBytes (g.getD 4 []) ((lo.getD 3 []).map subByte)
  lo ++ keyHalf w4 (g.drop 5)

/-- The words of the key schedule, eight at a time. -/
def keyGroups (g : List (List Byte)) : List Byte → List (List Byte)
  | [] => g
  | r :: rs => g ++ keyGroups (nextKeyGroup g r) rs

/-- The fifteen round keys. -/
def roundKeys (k : Bytes 32) : List (Bytes 16) :=
  let words := keyGroups ((List.range 8).map fun i => (k.toList.drop (4 * i)).take 4)
    [0x01, 0x02, 0x04, 0x08, 0x10, 0x20, 0x40]
  let bytes := words.flatten
  (List.range 15).map fun r => blockOf fun i => bytes.getD (16 * r + i) 0

/-- One middle round. -/
def aesRound (b k : Bytes 16) : Bytes 16 := addRoundKey k (mixColumns (shiftRows (subBytes b)))

/-- One middle round undone. -/
def aesInvRound (b k : Bytes 16) : Bytes 16 := invSubBytes (invShiftRows (invMixColumns (addRoundKey k b)))

/-- A round key by number. -/
def keyAt (ks : List (Bytes 16)) (r : Nat) : Bytes 16 := ks.getD r (blockOf fun _ => 0)

/-- Encipher one block: fourteen rounds, the last without column mixing. -/
def aesEnc (k : Bytes 32) (b : Bytes 16) : Bytes 16 :=
  let ks := roundKeys k
  let mid := (List.range 13).foldl (fun s r => aesRound s (keyAt ks (r + 1))) (addRoundKey (keyAt ks 0) b)
  addRoundKey (keyAt ks 14) (shiftRows (subBytes mid))

/-- Decipher one block: the steps of `aesEnc` undone in reverse order. -/
def aesDec (k : Bytes 32) (b : Bytes 16) : Bytes 16 :=
  let ks := roundKeys k
  let mid := invSubBytes (invShiftRows (addRoundKey (keyAt ks 14) b))
  addRoundKey (keyAt ks 0) ((List.range 13).foldr (fun r s => aesInvRound s (keyAt ks (r + 1))) mid)

end Sys2Proof.Machine
end

