-- ==== Sys2Proof/Machine/Sha256.lean ====
section
/-! DEFINITION. SHA-256, the reference instantiation of `HASH` (R8, G2). PRESUMED: its inside is from general
knowledge and not in the spec (R4 leaves it out); the spec gives only three digests, which `Tests/Slice0.lean`
checks. No rule depends on it (log entry 4). -/

namespace Sys2Proof.Machine

/-- The primes below 312, 64 of them: trial division by the primes up to 17 decides below 19 squared. -/
def shaPrimes : List Nat :=
  ((List.range 312).drop 2).filter fun n => [2, 3, 5, 7, 11, 13, 17].all fun d => n == d || n % d != 0

/-- The largest `r` with `r ^ e ≤ n` found bit by bit: `r` so far, `bits` low bits to go. -/
def rootFloor (e n : Nat) : Nat → Nat → Nat
  | 0, r => r
  | bits + 1, r => rootFloor e n bits (if (r + 2 ^ bits) ^ e ≤ n then r + 2 ^ bits else r)

/-- The first 32 bits of the fractional part of the `e`-th root of `q`; a root below 16 has 36 bits to find. -/
def rootFraction (e q : Nat) : Word := BitVec.ofNat 32 (rootFloor e (q * 2 ^ (32 * e)) 36 0)

/-- The round constants, from the cube roots of the 64 primes. -/
def shaK : List Word := shaPrimes.map (rootFraction 3)

/-- The chaining value before the first block, from the square roots of the first eight primes. -/
def shaInit : List Word := (shaPrimes.take 8).map (rootFraction 2)

/-- The message followed by `0x80`, zeros, and its bit length in eight bytes: a multiple of 64 bytes. -/
def shaPad (m : List Byte) : List Byte :=
  let bits := 8 * m.length
  m ++ [(0x80 : Byte)] ++ List.replicate ((119 - m.length % 64) % 64) (0 : Byte) ++
    (List.range 8).map fun i => (BitVec.ofNat 8 (bits >>> (8 * (7 - i))) : Byte)

/-- The sixteen words of block `q`, big-endian. -/
def shaWords (m : List Byte) (q : Nat) : List Word :=
  (List.range 16).map fun i =>
    m.getD (64 * q + 4 * i) 0 ++ m.getD (64 * q + 4 * i + 1) 0 ++ m.getD (64 * q + 4 * i + 2) 0 ++
      m.getD (64 * q + 4 * i + 3) 0

/-- One round over the eight working words, with a window of the sixteen latest schedule words. -/
def shaRound (sw : List Word × List Word) (k : Word) : List Word × List Word :=
  match sw.1, sw.2 with
  | [a, b, c, d, e, f, g, h], w0 :: ws =>
    let s1 := e.rotateRight 6 ^^^ e.rotateRight 11 ^^^ e.rotateRight 25
    let ch := (e &&& f) ^^^ (~~~e &&& g)
    let t1 := h + s1 + ch + k + w0
    let s0 := a.rotateRight 2 ^^^ a.rotateRight 13 ^^^ a.rotateRight 22
    let maj := (a &&& b) ^^^ (a &&& c) ^^^ (b &&& c)
    let w1 := ws.getD 0 0
    let w14 := ws.getD 13 0
    let x0 := w1.rotateRight 7 ^^^ w1.rotateRight 18 ^^^ (w1 >>> 3)
    let x1 := w14.rotateRight 17 ^^^ w14.rotateRight 19 ^^^ (w14 >>> 10)
    ([t1 + (s0 + maj), a, b, c, d + t1, e, f, g], ws ++ [x1 + ws.getD 8 0 + x0 + w0])
  | s, w => (s, w)

/-- One block into the chaining value. -/
def shaBlock (m : List Byte) (h : List Word) (q : Nat) : List Word :=
  List.zipWith (· + ·) h (shaK.foldl shaRound (h, shaWords m q)).1

/-- The digest of a byte string, 32 bytes. -/
def sha256 (m : List Byte) : Bytes 32 :=
  let p := shaPad m
  let h := (List.range (p.length / 64)).foldl (shaBlock p) shaInit
  ⟨(List.range 32).map fun i => (h.getD (i / 4) 0).extractLsb' (8 * (3 - i % 4)) 8, by simp⟩

end Sys2Proof.Machine
end

