-- ==== Sys2Proof/Machine/Utf8.lean ====
section
/-! DEFINITION. Well-formed UTF-8 by the table of R89, the reference instantiation of `VALID_TEXT` (R8, G5, log
entry 4). -/

namespace Sys2Proof.Machine

/-- The ranges of the bytes that follow a first byte, by the rows of the table of R89; `none` when no row has that
first byte. -/
def utf8Tail (b : Byte) : Option (List (Byte × Byte)) :=
  if b ≤ 0x7F then some []
  else if 0xC2 ≤ b ∧ b ≤ 0xDF then some [(0x80, 0xBF)]
  else if b = 0xE0 then some [(0xA0, 0xBF), (0x80, 0xBF)]
  else if 0xE1 ≤ b ∧ b ≤ 0xEC then some [(0x80, 0xBF), (0x80, 0xBF)]
  else if b = 0xED then some [(0x80, 0x9F), (0x80, 0xBF)]
  else if 0xEE ≤ b ∧ b ≤ 0xEF then some [(0x80, 0xBF), (0x80, 0xBF)]
  else if b = 0xF0 then some [(0x90, 0xBF), (0x80, 0xBF), (0x80, 0xBF)]
  else if 0xF1 ≤ b ∧ b ≤ 0xF3 then some [(0x80, 0xBF), (0x80, 0xBF), (0x80, 0xBF)]
  else if b = 0xF4 then some [(0x80, 0x8F), (0x80, 0xBF), (0x80, 0xBF)]
  else none

/-- Read a byte string with the ranges still owed to the sequence under way; a sequence cut short is ill-formed. -/
def utf8Loop : List (Byte × Byte) → List Byte → Bool
  | [], [] => true
  | _ :: _, [] => false
  | [], b :: bs =>
    match utf8Tail b with
    | some owed => utf8Loop owed bs
    | none => false
  | (lo, hi) :: owed, b :: bs => decide (lo ≤ b ∧ b ≤ hi) && utf8Loop owed bs

/-- The reference `VALID_TEXT` (R89). -/
def utf8Valid (bs : List Byte) : Bool := utf8Loop [] bs

end Sys2Proof.Machine
end

