-- ==== Sys2Proof/Machine/Primitives.lean ====
section
/-! DEFINITION. The injected primitives a block was built with (R8), as the parameters say. -/

namespace Sys2Proof

/-- `HASH` (R8). -/
def Params.hashOf (c : Params) (m : List Byte) : Bytes 32 :=
  match c.hash with
  | .reference => Machine.sha256 m
  | .free k    => Config.freeHash k m

/-- `ENC` (R8). -/
def Params.enc (c : Params) (key : Bytes 32) (b : Bytes 16) : Bytes 16 :=
  match c.cipher with
  | .reference => Machine.aesEnc key b
  | .free k    => Config.freeCipher k key b

/-- `DEC` (R8); `Laws/Primitives.lean` proves `DEC(k, ENC(k, b)) = b`. -/
def Params.dec (c : Params) (key : Bytes 32) (b : Bytes 16) : Bytes 16 :=
  match c.cipher with
  | .reference => Machine.aesDec key b
  | .free k    => (Config.freeCipher k key).symm b

/-- `VALID_TEXT` (R8, R89). -/
def Params.validText (c : Params) (m : List Byte) : Bool :=
  match c.text with
  | .reference => Machine.utf8Valid m
  | .free k    => Config.freeText k m

end Sys2Proof
end

