-- ==== Sys2Proof/Machine/EnvelopeCommands.lean ====
section
/-! DEFINITION. `ENCRYPT` and `DECRYPT` (R165, R170): the key envelope unit, with `Kdf` (R151), the per-block cipher
mode (R152) and `Unpad` (R84). -/

namespace Sys2Proof.Machine

/-- `Kdf(pw)`: one hash; the key is the digest's bytes and the secret is `int_be` of the same bytes (R80, R151). -/
def kdf (c : Params) (pw : List Byte) : Bytes 32 × Nat :=
  let d := c.hashOf pw
  (d, intBe d.toList)

/-- `EcbEnc(K, M)`: each 16-byte block on its own (R152). -/
def ecbEnc (c : Params) (key : Bytes 32) (m : List Byte) : List Byte :=
  joinBlocks ((blocksOf m).map (c.enc key))

/-- `EcbDec(K, M)` (R152). -/
def ecbDec (c : Params) (key : Bytes 32) (m : List Byte) : List Byte :=
  joinBlocks ((blocksOf m).map (c.dec key))

/-- `Unpad(B)`, step by step (R84); every failure is `DecryptionError`. Only the last pad byte is looked at. -/
def unpad (c : Params) (b : List Byte) : Except CmdError (List Byte × List Byte) :=
  if c.validText b = false then .error .decryptionError
  else
    match b.findIdx? (fun x => x == 0) with
    | none => .error .decryptionError
    | some z =>
      let rem := b.drop (z + 1)
      match rem.getLast? with
      | none => .error .decryptionError
      | some last =>
        match hexVal last with
        | none => .error .decryptionError
        | some v =>
          let k := if v = 0 then 16 else v
          if rem.length < k then .error .decryptionError
          else .ok (b.take z, rem.take (rem.length - k))

/-- Steps 1 to 3 of `ENCRYPT`: its parameter and capacity tests (R165, R184). -/
def State.encryptRefused (s : State) : Bool :=
  decide (s.n.toNat = 0 ∨ s.t.toNat = 0 ∨ s.n.toNat < s.t.toNat ∨ s.cfg.nMax < s.n.toNat ∨ s.cfg.tMax < s.t.toNat ∨
    s.cfg.bufMax < s.pwlen.toNat ∨ s.cfg.bufMax < s.lbllen.toNat ∨ s.cfg.bufMax < s.datlen.toNat ∨
    s.cfg.bufMax < paddedLength s.lbllen.toNat s.datlen.toNat)

/-- Steps 5 and 6 of `ENCRYPT`: the coefficients, then the share coordinates (R122, R165). -/
def encryptDraws (limit : Option Nat) (secret t n : Nat) (stream : List Answer) : Drawn (List Nat × List Nat) :=
  (construct limit secret t stream).bind fun c rest =>
    (drawShares limit n [] rest).bind fun xs rest => .ok (c, xs) rest

/-- `ENCRYPT` (R165). -/
def execEncrypt (s : State) : Result :=
  if s.encryptRefused then s.raise .invalidParameters
  else
    let ks := kdf s.cfg (s.contents .pw)
    s.withDraws (encryptDraws s.cfg.retryMax ks.2 s.t.toNat s.n.toNat s.rng) fun cx s =>
      let payload := pad (s.contents .lbl) (s.contents .dat)
      (((s.setBuffer .ct (ecbEnc s.cfg ks.1 payload)).setShares cx.2
        (cx.2.map (evaluatorUnit s.cfg.p cx.1)) s.n).clearCoefs).finish

/-- Steps 2 to 7 of `DECRYPT`: the label and the content, or the first error met (R170, R189). -/
def decryptPayload (c : Params) (xs ys : List Nat) (ct : List Byte) : Except CmdError (List Byte × List Byte) :=
  match interpolatorUnit c.p xs ys with
  | none => .error .zeroInverse
  | some secret =>
    if 2 ^ 256 ≤ secret then .error .decryptionError
    else if ct.length = 0 ∨ ct.length % 16 ≠ 0 then .error .decryptionError
    else unpad c (ecbDec c (bytesBe32 secret) ct)

/-- `DECRYPT` (R170). -/
def execDecrypt (s : State) : Result :=
  if s.shn.toNat = 0 ∨ s.cfg.nMax < s.shn.toNat ∨ s.cfg.bufMax < s.ctlen.toNat then s.raise .invalidParameters
  else
    match decryptPayload s.cfg s.shareXs s.shareYs (s.contents .ct) with
    | .error e => s.raise e
    | .ok (label, content) => ((s.setBuffer .lbl label).setBuffer .dat content).finish

end Sys2Proof.Machine
end

