-- ==== Sys2Proof/Machine/FieldCommands.lean ====
section
/-! DEFINITION. `FADD`, `FSUB`, `FMUL`, `FINV` (R105 to R108): the adder, multiplier and inverse units. -/

namespace Sys2Proof.Machine

/-- `FADD fd, fs1, fs2`: `f[fd] <- fadd(f[fs1], f[fs2])` (R105). -/
def execFadd (fd fs1 fs2 : FReg) (s : State) : Result :=
  (s.setReg fd (adderUnit s.cfg.p (s.operand fs1) (s.operand fs2) false)).finish

/-- `FSUB fd, fs1, fs2`: `f[fd] <- fsub(f[fs1], f[fs2])` (R106). -/
def execFsub (fd fs1 fs2 : FReg) (s : State) : Result :=
  (s.setReg fd (adderUnit s.cfg.p (s.operand fs1) (s.operand fs2) true)).finish

/-- `FMUL fd, fs1, fs2`: `f[fd] <- fmul(f[fs1], f[fs2])` (R107). -/
def execFmul (fd fs1 fs2 : FReg) (s : State) : Result :=
  (s.setReg fd (multiplierUnit s.cfg.p (s.operand fs1) (s.operand fs2))).finish

/-- `FINV fd, fs1`: `f[fd] <- finv(f[fs1])`, or `ZeroInverse` when `f[fs1] mod P = 0` (R108). -/
def execFinv (fd fs1 : FReg) (s : State) : Result :=
  s.finishReg fd (inverseUnit s.cfg.p (s.operand fs1))

end Sys2Proof.Machine
end

