-- ==== Sys2Proof/Machine/LagrangeCommands.lean ====
section
/-! DEFINITION. `LRECON` (R143): the Lagrange interpolator unit. -/

namespace Sys2Proof.Machine

/-- `LRECON fd`: the constant term from the share store (R143). No check that enough or consistent shares were
supplied (R145). -/
def execLrecon (fd : FReg) (s : State) : Result :=
  if s.shn.toNat = 0 ∨ s.cfg.nMax < s.shn.toNat then s.raise .invalidParameters
  else s.finishReg fd (interpolatorUnit s.cfg.p s.shareXs s.shareYs)

end Sys2Proof.Machine
end

