-- ==== Sys2Proof/Machine/PolynomialCommands.lean ====
section
/-! DEFINITION. `PCONS`, `PEVAL`, `PSHARE` (R123, R126, R128): the polynomial evaluator unit, with construction and
share generation. -/

namespace Sys2Proof.Machine

/-- `PCONS fs1`: a random polynomial with secret `f[fs1]` and threshold `T` (R123). -/
def execPcons (fs1 : FReg) (s : State) : Result :=
  if s.t.toNat = 0 ∨ s.cfg.tMax < s.t.toNat then s.raise .invalidParameters
  else
    s.withDraws (construct s.cfg.retryMax (s.operand fs1 % s.cfg.p) s.t.toNat s.rng) fun c s =>
      (s.setCoefs c s.t).finish

/-- `PEVAL fd, fs1`: the stored polynomial at `x = f[fs1]` (R126). -/
def execPeval (fd fs1 : FReg) (s : State) : Result :=
  if s.clen.toNat = 0 ∨ s.cfg.tMax < s.clen.toNat then s.raise .invalidParameters
  else (s.setReg fd (evaluatorUnit s.cfg.p s.coefs (s.operand fs1))).finish

/-- `PSHARE`: `N` shares of the stored polynomial at distinct random points (R128). -/
def execPshare (s : State) : Result :=
  if s.clen.toNat = 0 ∨ s.cfg.tMax < s.clen.toNat ∨ s.cfg.nMax < s.n.toNat then s.raise .invalidParameters
  else
    s.withDraws (drawShares s.cfg.retryMax s.n.toNat [] s.rng) fun xs s =>
      (s.setShares xs (xs.map (evaluatorUnit s.cfg.p s.coefs)) s.n).finish

end Sys2Proof.Machine
end

