-- ==== Sys2Proof/Machine/Dispatch.lean ====
section
/-! DEFINITION. The completion step of each command (R38): one arm per constructor. -/

namespace Sys2Proof.Machine

def exec (i : Instr) (s : State) : Host.Outcome State Fault Refusal :=
  match i with
  -- the adder, multiplier and inverse units
  | .fadd fd fs1 fs2 => Sys2Proof.Machine.execFadd fd fs1 fs2 s
  | .fsub fd fs1 fs2 => Sys2Proof.Machine.execFsub fd fs1 fs2 s
  | .fmul fd fs1 fs2 => Sys2Proof.Machine.execFmul fd fs1 fs2 s
  | .finv fd fs1 => Sys2Proof.Machine.execFinv fd fs1 s
  -- the polynomial evaluator
  | .pcons fs1 => Sys2Proof.Machine.execPcons fs1 s
  | .peval fd fs1 => Sys2Proof.Machine.execPeval fd fs1 s
  | .pshare => Sys2Proof.Machine.execPshare s
  -- the Lagrange interpolator
  | .lrecon fd => Sys2Proof.Machine.execLrecon fd s
  -- the key envelope
  | .encrypt => Sys2Proof.Machine.execEncrypt s
  | .decrypt => Sys2Proof.Machine.execDecrypt s

end Sys2Proof.Machine
end

