-- ==== Sys2Proof/Machine/Sequencer.lean ====
section
/-! DEFINITION. The sequencer's turn (R38) and the reset input's turn (R200, R201). -/

namespace Sys2Proof.Machine

/-- The completion step of the latched word (R38): the command it decodes to, or `IllegalCommand` (R74, R185). -/
def State.runLatched (s : State) : Result :=
  match decode s.cmdl with
  | .ok i    => exec i s
  | .error _ => s.raise .illegalCommand

/-- The sequencer's turn: while busy its one step, while idle nothing (R35, R38). -/
def State.sequencerTurn (s : State) : Result :=
  match s.phase with
  | .idle => .next s
  | .busy => s.runLatched

/-- How many answers the `RNG` can already have given the command under way: those its completion would consume, or
all there are when it waits for more (R38, R201, log entry 10). None while idle. -/
def State.answersAskedFor (s : State) : Nat :=
  match s.phase with
  | .idle => 0
  | .busy =>
    match s.runLatched with
    | .next t    => match t.phase with
      | .idle => s.rng.length - t.rng.length
      | .busy => s.rng.length
    | .fault _   => 0
    | .refused _ => 0

/-- Reset (R200, R201): a command under way is abandoned, none of its results is committed, and of the answers it
had been given `lost` (at most those it can have been given) are lost. -/
def State.resetTurn (s : State) (lost : Nat) : State :=
  { s.resetBlock with rng := s.rng.drop (min lost s.answersAskedFor) }

/-- One agent's move. -/
def State.move (s : State) (who : Turn) : Result :=
  match who with
  | .host       => .next s.hostTurn
  | .sequencer  => s.sequencerTurn
  | .reset lost => .next (s.resetTurn lost)

/-- Who moves when the schedule is empty: the sequencer while a command is under way, else the host. -/
def State.defaultTurn (s : State) : Turn :=
  match s.phase with
  | .idle => .host
  | .busy => .sequencer

/-- Issue of an opcode-table word, so that the sequencer moves next: what `State.withFetchWord` is. -/
def State.issueNow (s : State) (w : Word) : State := { s.issue w with turns := [] }

end Sys2Proof.Machine
end

