-- ==== Sys2Proof/Machine/Step.lean ====
section
/-! DEFINITION. One step of the machine: the agent whose turn it is moves (log entry 1). -/

namespace Sys2Proof.Machine

/-- One step: the first entry of the schedule moves and is used up; with an empty schedule the sequencer moves while
a command is under way and the host moves otherwise. -/
def step (s : State) : Host.Outcome State Fault Refusal :=
  match s.turns with
  | []          => s.move s.defaultTurn
  | who :: rest => State.move { s with turns := rest } who

/-- `s` with an opcode-table word issued, so that the very next step runs it (log entry 11). The block fetches
nothing: a command reaches it by the host's write to `CMD`, which is what this stands for (R24, R36). -/
def State.withFetchWord (s : State) (nbits w : Nat) : State := s.issueNow (tableWord nbits w)

end Sys2Proof.Machine
end

