-- ==== Sys2Proof/Machine/Script.lean ====
section
/-! DEFINITION. The host-script notation of R77 as the accesses its lines stand for. A program is a list of these
(R24): it runs when they stand in `State.inbox`. -/

namespace Sys2Proof.Machine

/-- A 257-bit location a script names. -/
inductive ScriptLoc where
  | f (r : FReg)
  | store (st : Store) (i : Nat)
deriving DecidableEq, Repr

/-- The address of word 0 of a 257-bit location (R55). -/
def ScriptLoc.addr : ScriptLoc → Nat
  | .f r        => fieldBase + 0x40 * r.val
  | .store st i => st.base + 0x40 * i

/-- The length register of a buffer. -/
def Buffer.lenReg : Buffer → CountReg
  | .pw  => .pwlen
  | .lbl => .lbllen
  | .dat => .datlen
  | .ct  => .ctlen

/-- `WR <loc>, <value>` (R77). -/
def scriptWr (r : CountReg) (v : Word) : List BusRequest := [.write r.addr 4 v]

/-- `RD <loc>` (R77). -/
def scriptRd (r : CountReg) : List BusRequest := [.read r.addr 4]

/-- A command line: one write of the command's word to `CMD` (R77). -/
def scriptCmd (i : Instr) : List BusRequest := [.write 0x00000 4 (encode i)]

/-- `WAIT` as the `k + 1` polls of `STATUS` it takes (R77). -/
def scriptWait (k : Nat) : List BusRequest := List.replicate (k + 1) (.read 0x00004 4)

/-- `SET <loc>, <integer>`: nine writes, word 0 first (R56, R77). -/
def scriptSet (l : ScriptLoc) (v : FieldWord) : List BusRequest :=
  (List.finRange 9).map fun w => .write (l.addr + 4 * w.val) 4 (wordAt v w)

/-- `GET <loc>`: nine reads, word 0 first (R56, R77). -/
def scriptGet (l : ScriptLoc) : List BusRequest :=
  (List.finRange 9).map fun w => .read (l.addr + 4 * w.val) 4

/-- Four bytes of a string as a word, zero bytes beyond its end (R59, R77). -/
def packWord (bytes : List Byte) (q : Nat) : Word :=
  bytes.getD (4 * q + 3) 0 ++ bytes.getD (4 * q + 2) 0 ++ bytes.getD (4 * q + 1) 0 ++ bytes.getD (4 * q) 0

/-- `SETB <buf>, <bytes>`: the word writes, then the length (R59, R77). -/
def scriptSetb (b : Buffer) (bytes : List Byte) : List BusRequest :=
  ((List.range ((bytes.length + 3) / 4)).map fun q => .write (b.base + 4 * q) 4 (packWord bytes q)) ++
    scriptWr b.lenReg (BitVec.ofNat 32 bytes.length)

/-- `GETB <buf>` for a buffer of `len` bytes: the length, then the words that cover it (R77). -/
def scriptGetb (b : Buffer) (len : Nat) : List BusRequest :=
  scriptRd b.lenReg ++ (List.range ((len + 3) / 4)).map fun q => .read (b.base + 4 * q) 4

/-- `FSQR fd, fs` is `FMUL fd, fs, fs` (R77). -/
def scriptFsqr (fd fs : FReg) : List BusRequest := scriptCmd (.fmul fd fs fs)

/-- `FDBL fd, fs` is `FADD fd, fs, fs` (R77). -/
def scriptFdbl (fd fs : FReg) : List BusRequest := scriptCmd (.fadd fd fs fs)

end Sys2Proof.Machine
end

