-- ==== Sys2Proof/Safety.lean ====
section
/-! DEFINITION. The terms claims use: what holds of every state a run from reset reaches, which addresses a buffer
holds, and what "changes nothing but" means. -/

namespace Sys2Proof.Machine

/-- The host byte addresses that some buffer holds (R33, R55). -/
def bufferAddr (c : Params) (a : Nat) : Bool :=
  [Buffer.pw, .lbl, .dat, .ct].any fun b => decide (b.base ≤ a ∧ a < b.base + c.bufMax)

/-- The storage is in its canonical form and lists nothing where the block has no storage (R20, R57). -/
structure State.StorageOk (s : State) : Prop where
  mem_wf      : s.mem.wf
  coef_wf     : s.coef.wf
  shx_wf      : s.shx.wf
  shy_wf      : s.shy.wf
  mem_within  : s.mem.within (bufferAddr s.cfg)
  coef_within : s.coef.within fun i => decide (i < s.cfg.tMax)
  shx_within  : s.shx.within fun i => decide (i < s.cfg.nMax)
  shy_within  : s.shy.within fun i => decide (i < s.cfg.nMax)

/-- `STATUS` shows one of its three reachable combinations (R27): a busy block has neither `DONE` nor `ERR`, and a
block that has completed nothing has no `ERR`. -/
def State.StatusOk (s : State) : Prop :=
  (s.phase = .busy → s.done = false) ∧ (s.done = false → s.err = none)

/-- The hidden registers are clear whenever the host could look (R39, R41). -/
def State.HiddenClear (s : State) : Prop := s.hidden = Hidden.cleared

/-- The invariant of the block: legal parameters, storage in form, a legal `STATUS`, nothing hidden left. -/
structure State.Inv (s : State) : Prop where
  legal   : s.cfg.Legal
  storage : s.StorageOk
  status  : s.StatusOk
  hidden  : s.HiddenClear

/-- Nothing of the block's host-visible state but `STATUS` differs (R38 (c), R186): registers, stores, counts,
parameters, buffers and lengths. -/
structure SameVisible (s u : State) : Prop where
  f      : u.f = s.f
  coef   : u.coef = s.coef
  clen   : u.clen = s.clen
  shx    : u.shx = s.shx
  shy    : u.shy = s.shy
  shn    : u.shn = s.shn
  n      : u.n = s.n
  t      : u.t = s.t
  mem    : u.mem = s.mem
  pwlen  : u.pwlen = s.pwlen
  lbllen : u.lbllen = s.lbllen
  datlen : u.datlen = s.datlen
  ctlen  : u.ctlen = s.ctlen

/-- What stands outside the block is the same: its parameters, the schedule, the host port; not the `RNG`. -/
structure SameOutside (s u : State) : Prop where
  cfg    : u.cfg = s.cfg
  turns  : u.turns = s.turns
  inbox  : u.inbox = s.inbox
  outbox : u.outbox = s.outbox

/-- The command has completed with this error, or with none (R38 (d), (e)). -/
structure State.Completed (t : State) (e : Option CmdError) : Prop where
  phase  : t.phase = .idle
  done   : t.done = true
  err    : t.err = e
  hidden : t.hidden = Hidden.cleared

/-- The field register a command writes on success, if it writes one (R22). -/
def destReg : Instr → Option FReg
  | .fadd fd _ _ => some fd
  | .fsub fd _ _ => some fd
  | .fmul fd _ _ => some fd
  | .finv fd _   => some fd
  | .pcons _     => none
  | .peval fd _  => some fd
  | .pshare      => none
  | .lrecon fd   => some fd
  | .encrypt     => none
  | .decrypt     => none

/-- One value taken from the `RNG` under the draw discipline (R122): the answers before it were all rejected, and
they are no more than the redraws `RETRY_MAX` allows. -/
def Takes (bad : Nat → Bool) (limit : Option Nat) (stream : List Answer) (v : Nat) (rest : List Answer) : Prop :=
  ∃ (rejected : List Answer) (a : Answer), stream = rejected ++ a :: rest ∧ v = a.toNat ∧ bad v = false ∧
    (∀ b ∈ rejected, bad b.toNat = true) ∧ ∀ m, limit = some m → rejected.length ≤ m

/-- The `RNG` runs out of redraws for one value (R122, R187): `RETRY_MAX` is finite and one answer more than that
many redraws were all rejected. -/
def Exhausts (bad : Nat → Bool) (limit : Option Nat) (stream rest : List Answer) : Prop :=
  ∃ (rejected : List Answer) (m : Nat), limit = some m ∧ stream = rejected ++ rest ∧ rejected.length = m + 1 ∧
    ∀ b ∈ rejected, bad b.toNat = true

/-- The `RNG` has not answered with an acceptable value yet and may still do so (R66, R122). -/
def Awaits (bad : Nat → Bool) (limit : Option Nat) (stream : List Answer) : Prop :=
  (∀ b ∈ stream, bad b.toNat = true) ∧ ∀ m, limit = some m → stream.length ≤ m

/-- A completion as R38 (d), (e) and R41 say it, on a state whose destinations are written: hidden registers 0, `ERR`
the code or 0, `DONE` set, idle. `CMDL` is "meaningless" from then on (R41), so any value `c` may stand there. -/
def State.afterCompletion (u : State) (e : Option CmdError) (c : Word) : State :=
  { u with hidden := Hidden.cleared, cmdl := c, err := e, done := true, phase := .idle }

/-- `m'` is the store `m` with entries `0, 1, …` replaced by `vals` and every other entry as it was. -/
def StoresFirst (m : Memory 257) (vals : List Nat) (m' : Memory 257) : Prop :=
  ∀ i, Memory.read m' i = if i < vals.length then BitVec.ofNat 257 (vals.getD i 0) else Memory.read m i

/-- `m'` is the byte memory `m` with the bytes at `base, base + 1, …` replaced and every other byte as it was. -/
def StoresBytes (m : Memory 8) (base : Nat) (bytes : List Byte) (m' : Memory 8) : Prop :=
  ∀ a, Memory.read m' a = if base ≤ a ∧ a < base + bytes.length then bytes.getD (a - base) 0 else Memory.read m a

/-- Two runs change a storage alike, the one from `m` to `t`, the other from `m'` to `t'`: what stands at an index is
either left alone in both, or the same value after both. -/
def ChangeAlike {w : Nat} (m t m' t' : Memory w) : Prop :=
  ∀ a, (Memory.read t a = Memory.read m a ∧ Memory.read t' a = Memory.read m' a) ∨ Memory.read t' a = Memory.read t a

/-- The bytes of a buffer below its length register are the same in `s.mem` and in `m`. -/
def State.SameContents (s : State) (m : Memory 8) (b : Buffer) : Prop :=
  ∀ j, j < (s.lenOf b).toNat → Memory.read m (b.base + j) = Memory.read s.mem (b.base + j)

/-- The coefficients of a construction (R123): the secret, `t - 2` draws as they come, then the top one, which is not
0; with `t = 1` no draw at all. -/
def TakesCoefs (limit : Option Nat) (secret t : Nat) (stream : List Answer) (coefs : List Nat) (rest : List Answer) :
    Prop :=
  (t = 1 ∧ coefs = [secret] ∧ rest = stream) ∨
  (2 ≤ t ∧ ∃ (middle onward : List Answer) (top : Nat), stream = middle ++ onward ∧ middle.length = t - 2 ∧
    Takes (fun v => v == 0) limit onward top rest ∧ coefs = secret :: middle.map BitVec.toNat ++ [top])

/-- A construction that runs out of redraws of its top coefficient (R122, R187). -/
def ExhaustsCoefs (limit : Option Nat) (t : Nat) (stream rest : List Answer) : Prop :=
  2 ≤ t ∧ ∃ middle onward : List Answer, stream = middle ++ onward ∧ middle.length = t - 2 ∧
    Exhausts (fun v => v == 0) limit onward rest

/-- Share coordinates taken one after another, each distinct from those taken before it in this command (R122,
R128). -/
def TakesShares (limit : Option Nat) (chosen : List Nat) (stream : List Answer) : List Nat → List Answer → Prop
  | [], rest => stream = rest
  | x :: xs, rest => ∃ mid, Takes (fun w => chosen.contains w) limit stream x mid ∧
      TakesShares limit (chosen ++ [x]) mid xs rest

/-- Share generation that runs out of redraws of one coordinate (R122, R187): fewer than `n` were taken before it. -/
def ExhaustsShares (limit : Option Nat) (n : Nat) (stream rest : List Answer) : Prop :=
  ∃ (taken : List Nat) (mid : List Answer), taken.length < n ∧ TakesShares limit [] stream taken mid ∧
    Exhausts (fun w => taken.contains w) limit mid rest

/-- The `RNG` has not answered enough for a construction yet (R38, R66). -/
def AwaitsCoefs (limit : Option Nat) (t : Nat) (stream : List Answer) : Prop :=
  2 ≤ t ∧ (stream.length < t - 2 ∨
    ∃ middle onward : List Answer, stream = middle ++ onward ∧ middle.length = t - 2 ∧
      Awaits (fun v => v == 0) limit onward)

/-- The `RNG` has not answered enough for share generation yet (R38, R66). -/
def AwaitsShares (limit : Option Nat) (n : Nat) (stream : List Answer) : Prop :=
  ∃ (taken : List Nat) (mid : List Answer), taken.length < n ∧ TakesShares limit [] stream taken mid ∧
    Awaits (fun w => taken.contains w) limit mid

/-- The reserved word addresses of the map (R55, R57). -/
def Reserved (c : Params) (a : Nat) : Prop :=
  (0x00028 ≤ a ∧ a < 0x00100) ∨ (0x00300 ≤ a ∧ a < 0x01000) ∨ (0x00100 ≤ a ∧ a < 0x0D000 ∧ 0x24 ≤ a % 0x40) ∨
  (0x01000 + 0x40 * c.tMax ≤ a ∧ a < 0x05000) ∨ (0x05000 + 0x40 * c.nMax ≤ a ∧ a < 0x09000) ∨
  (0x09000 + 0x40 * c.nMax ≤ a ∧ a < 0x0D000) ∨ (0x0D000 ≤ a ∧ a < 0x10000) ∨
  (0x10000 + c.bufMax ≤ a ∧ a < 0x20000) ∨ (0x20000 + c.bufMax ≤ a ∧ a < 0x30000) ∨
  (0x30000 + c.bufMax ≤ a ∧ a < 0x40000) ∨ 0x40000 + c.bufMax ≤ a

/-- What `ENCRYPT` refuses (R184, its row). -/
def EncryptRefused (s : State) : Prop :=
  s.n.toNat = 0 ∨ s.t.toNat = 0 ∨ s.n.toNat < s.t.toNat ∨ s.cfg.nMax < s.n.toNat ∨ s.cfg.tMax < s.t.toNat ∨
  s.cfg.bufMax < s.pwlen.toNat ∨ s.cfg.bufMax < s.lbllen.toNat ∨ s.cfg.bufMax < s.datlen.toNat ∨
  s.cfg.bufMax < 16 * ((s.lbllen.toNat + 1 + s.datlen.toNat) / 16 + 1)

/-- The value at `x` of the polynomial with coefficients `c` in rising index order, modulo `p` (R120, R127 (c)). -/
def polyValue (p : Nat) (c : List Nat) (x : Nat) : Nat :=
  (∑ i ∈ Finset.range c.length, c.getD i 0 * x ^ i) % p

/-- No two of the values are congruent modulo `p`. -/
def DistinctMod (p : Nat) (xs : List Nat) : Prop := xs.Pairwise fun a b => a % p ≠ b % p

/-- The sum of R141 in exact terms: each share's `y` times the product over the other shares of `x_j / (x_j - x_i)`,
in the field. -/
def lagrangeSum (p : Nat) (xs ys : List Nat) : ZMod p :=
  ∑ i ∈ Finset.range xs.length, (ys.getD i 0 : ZMod p) *
    ∏ j ∈ (Finset.range xs.length).erase i,
      ((xs.getD j 0 : ZMod p) * ((xs.getD j 0 : ZMod p) - (xs.getD i 0 : ZMod p))⁻¹)

/-- The share store of `v` holds the shares of `u` at the positions `idx`, in that order. -/
structure HoldsShares (u v : State) (idx : List Nat) : Prop where
  count : v.shn.toNat = idx.length
  xs    : ∀ k (h : k < idx.length), Memory.read v.shx k = Memory.read u.shx idx[k]
  ys    : ∀ k (h : k < idx.length), Memory.read v.shy k = Memory.read u.shy idx[k]

/-- The value a 257-bit location holds. -/
def State.valueAt (s : State) : ScriptLoc → FieldWord
  | .f r        => s.reg r
  | .store st i => Memory.read (s.store st) i

/-- The 257-bit location exists in a block with these parameters (R55). -/
def ScriptLoc.Present (c : Params) : ScriptLoc → Prop
  | .f _        => True
  | .store st i => i < st.count c

/-- One row of the table of well-formed UTF-8 sequences (R89). -/
def Utf8Row (q : List Byte) : Prop :=
  let within (b : Byte) (lo hi : Nat) : Prop := lo ≤ b.toNat ∧ b.toNat ≤ hi
  match q with
  | [a] => within a 0x00 0x7F
  | [a, b] => within a 0xC2 0xDF ∧ within b 0x80 0xBF
  | [a, b, c] =>
    ((within a 0xE0 0xE0 ∧ within b 0xA0 0xBF) ∨ (within a 0xE1 0xEC ∧ within b 0x80 0xBF) ∨
      (within a 0xED 0xED ∧ within b 0x80 0x9F) ∨ (within a 0xEE 0xEF ∧ within b 0x80 0xBF)) ∧ within c 0x80 0xBF
  | [a, b, c, d] =>
    ((within a 0xF0 0xF0 ∧ within b 0x90 0xBF) ∨ (within a 0xF1 0xF3 ∧ within b 0x80 0xBF) ∨
      (within a 0xF4 0xF4 ∧ within b 0x80 0x8F)) ∧ within c 0x80 0xBF ∧ within d 0x80 0xBF
  | _ => False

/-- A command under way in `s` has completed in `u` without error. -/
structure CompletesOk (s u : State) : Prop where
  before : s.phase = .busy
  after  : u.phase = .idle
  noErr  : u.err = none

end Sys2Proof.Machine
end

