-- ==== Sys2Proof/Certificates/Slice0/Obligations.lean ====
section
/-! DEFINITION. The statements for the provers, each formalising what its docstring names. Where a statement needs
the store and buffer contents after a write, it assumes `State.StorageOk`, a part of the invariant that
`StepKeepsTheInvariant` and `ResetMeetsTheInvariant` state; where it needs `P` prime or the capacities in range, it
assumes `Params.Legal` (R6, R7). The value left in `CMDL` by a completion is never stated (R41). -/

section ObligationStatements

open Sys2Proof Sys2Proof.Machine

/-! ## Encoding -/

/-- The example words of R105 to R143 and of R73's rows without operands, decoded. -/
def Obligations.WrittenWordsDecode : Prop :=
  decode 0x00021301 = .ok (.fadd 3 1 2) ∧
  decode 0x00021302 = .ok (.fsub 3 1 2) ∧
  decode 0x00021503 = .ok (.fmul 5 1 2) ∧
  decode 0x00002604 = .ok (.finv 6 2) ∧
  decode 0x00001010 = .ok (.pcons 1) ∧
  decode 0x00001211 = .ok (.peval 2 1) ∧
  decode 0x00000012 = .ok .pshare ∧
  decode 0x00000020 = .ok (.lrecon 0) ∧
  decode 0x00000030 = .ok .encrypt ∧
  decode 0x00000031 = .ok .decrypt

/-- Encoding and decoding agree: every command, with every register index, is encoded as a legal word that decodes to
it, and whatever word decodes to a command is the encoder's. -/
def Obligations.DecodeAndEncodeAgree : Prop :=
  (∀ i : Instr, decode (encode i) = .ok i ∧ (RawCommand.ofWord (encode i)).wellFormed = true) ∧
  ∀ (w : Word) (i : Instr), decode w = .ok i → encode i = w

/-- Decoding as R74 says it: the one row that matches, with the three register fields of the word, or illegal. -/
def Obligations.DecodingFollowsTheRows : Prop :=
  ∀ w : Word,
    (∀ o o' : Opcode, w &&& o.mask = o.pattern → w &&& o'.mask = o'.pattern → o = o') ∧
    (∀ o : Opcode, w &&& o.mask = o.pattern →
      ∃ fd fs1 fs2 : FReg, fd.val = (w.extractLsb' 8 4).toNat ∧ fs1.val = (w.extractLsb' 12 4).toNat ∧
        fs2.val = (w.extractLsb' 16 4).toNat ∧ decode w = .ok (o.build fd fs1 fs2)) ∧
    ((∀ o : Opcode, w &&& o.mask ≠ o.pattern) →
      (∃ r, decode w = .error r) ∧
      ∀ s : State, s.cmdl = w → ∃ c, s.runLatched = .next (s.afterCompletion (some .illegalCommand) c))

/-- The illegal words are exactly those R75 and R185 list, and each completes with `IllegalCommand`, whatever the
state, and changes nothing but `STATUS`. -/
def Obligations.IllegalWordsRaiseIllegalCommand : Prop :=
  (∀ w : Word, (∃ r, decode w = .error r) ↔
    (w.extractLsb' 20 12 ≠ 0 ∨ (∀ o : Opcode, o.byte ≠ w.extractLsb' 0 8) ∨
      ∃ o : Opcode, o.byte = w.extractLsb' 0 8 ∧
        ((o.usesFd = true ∧ 8 ≤ (w.extractLsb' 8 4).toNat) ∨ (o.usesFd = false ∧ w.extractLsb' 8 4 ≠ 0) ∨
         (o.usesFs1 = true ∧ 8 ≤ (w.extractLsb' 12 4).toNat) ∨ (o.usesFs1 = false ∧ w.extractLsb' 12 4 ≠ 0) ∨
         (o.usesFs2 = true ∧ 8 ≤ (w.extractLsb' 16 4).toNat) ∨ (o.usesFs2 = false ∧ w.extractLsb' 16 4 ≠ 0)))) ∧
  ∀ (s : State) (r : Reject), decode s.cmdl = .error r →
    ∃ t, s.runLatched = .next t ∧ SameVisible s t ∧ t.cfg = s.cfg ∧ t.rng = s.rng ∧
      t.Completed (some .illegalCommand) ∧ t.errCode = 4

/-! ## The step -/

/-- Which agent a step moves (the schedule of log entry 1, the model's own): the first entry of `turns`; with none,
the sequencer while busy and the host while idle. -/
def Obligations.StepMovesTheAgentWhoseTurnItIs : Prop :=
  ∀ s : State,
    (s.turns = [] → s.phase = .idle → step s = .next s.hostTurn) ∧
    (s.turns = [] → s.phase = .busy → step s = s.runLatched) ∧
    (∀ ts, s.turns = .host :: ts → step s = .next (State.hostTurn { s with turns := ts })) ∧
    (∀ ts, s.turns = .sequencer :: ts → s.phase = .idle → step s = .next { s with turns := ts }) ∧
    (∀ ts, s.turns = .sequencer :: ts → s.phase = .busy → step s = State.runLatched { s with turns := ts })

/-- When it is the sequencer's turn, a step of a busy block runs the command its latched word decodes to (R38, R74).
Whose turn it is, is the model's choice (log entry 1, DESIGN CHOICE). So is that the VERY NEXT step after `withFetchWord`
runs the word: it empties the schedule (log entry 11, DESIGN CHOICE). -/
def Obligations.StepRunsTheDecodedCommand : Prop :=
  (∀ (s : State) (i : Instr), s.phase = .busy → decode s.cmdl = .ok i →
    (s.turns = [] → step s = exec i s) ∧
    ∀ ts, s.turns = .sequencer :: ts → step s = exec i { s with turns := ts }) ∧
  (∀ (s : State) (i : Instr) (nbits w : Nat), decodeTableWord nbits w = some i →
    step (s.withFetchWord nbits w) =
      exec i { s with cmdl := tableWord nbits w, phase := .busy, done := false, err := none, turns := [] })

/-- A command line of a script: the write to `CMD` issues the command with nothing visible but `STATUS` changed, and the
command then runs on the state the host left (R36, R61, R77). That the write is one step and the command the NEXT one is
the model's default schedule (log entries 1 and 11, DESIGN CHOICE): R211 bounds no time between issue and completion. -/
def Obligations.IssuedCommandRunsNext : Prop :=
  ∀ (s : State) (i : Instr) (rest : List BusRequest),
    s.phase = .idle → s.turns = [] → s.inbox = scriptCmd i ++ rest →
    ∃ u, step s = .next u ∧ step u = exec i u ∧ SameVisible s u ∧ u.rng = s.rng ∧ u.cfg = s.cfg ∧ u.inbox = rest ∧
      u.statusWord = 1

/-- No step faults and none is refused: every error is a way to complete (R180, R186, R57). -/
def Obligations.EveryStepAnswersNext : Prop :=
  ∀ s : State, (∃ t, step s = .next t) ∧ ∀ i : Instr, ∃ t, exec i s = .next t

/-- Every step keeps the invariant: legal parameters, storage in canonical form and only where the block has storage,
`STATUS` in one of its three combinations, every hidden register 0. That the hidden registers are 0 in busy states too is
the model's choice (log entry 8, DESIGN CHOICE): R41 clears them at completion, and R39 says "A model may therefore hold
them as local values of the completion step". So is the canonical form (log entries 12 and 13, DESIGN CHOICE). -/
def Obligations.StepKeepsTheInvariant : Prop :=
  ∀ s t : State, s.Inv → step s = .next t → t.Inv

/-- The state after reset meets the invariant. That `State.reset` carries the reference parameters is the model's choice
(log entry 2, DESIGN CHOICE, unsafe for a claim about `State.reset` alone such as this one); of them only that they are
legal is used. The hidden registers and the canonical form are those of log entries 8, 12 and 13. -/
def Obligations.ResetMeetsTheInvariant : Prop := State.reset.Inv

/-- No step changes a parameter or a primitive (R203). -/
def Obligations.ParametersNeverChange : Prop :=
  ∀ s t : State, step s = .next t → t.cfg = s.cfg

/-- Issue, as a step of the host (R36); a read of `CMD` returns 0 and changes nothing (R26). -/
def Obligations.IssueLatchesTheCommand : Prop :=
  ∀ (s : State) (w : Word) (rest : List BusRequest), s.phase = .idle → s.turns = [] →
    (s.inbox = .write 0x00000 4 w :: rest →
      step s = .next { s with
        cmdl := w, phase := .busy, done := false, err := none, inbox := rest, outbox := s.outbox ++ [.written] }) ∧
    (s.inbox = .read 0x00000 4 :: rest →
      step s = .next { s with inbox := rest, outbox := s.outbox ++ [.data 0] })

/-- The hold (R37): while busy the host's turn completes a read of `STATUS` and nothing else; while idle it completes the
first access in line (R60). The model's choice (log entry 7, DESIGN CHOICE, unsafe in one corner): a held access stays
first in line, and an access that R54 answers with `ERROR` (misaligned, or of another width, a 2-byte read of `STATUS`
among them) is held too while busy. -/
def Obligations.BusyBlockHoldsTheHost : Prop :=
  ∀ (s : State) (q : BusRequest) (rest : List BusRequest), s.inbox = q :: rest →
    (s.phase = .busy → q ≠ .read 0x00004 4 → s.hostTurn = s) ∧
    (q = .read 0x00004 4 → s.hostTurn = { s with inbox := rest, outbox := s.outbox ++ [.data s.statusWord] }) ∧
    (s.phase = .idle → s.hostTurn =
      { (s.access q).1 with inbox := rest, outbox := s.outbox ++ [(s.access q).2] })

/-- The only steps that end `BUSY` are the sequencer's and reset (R37, R201): the host cannot cancel a command. -/
def Obligations.OnlyCompletionOrResetEndsBusy : Prop :=
  ∀ s t : State, s.phase = .busy → step s = .next t → t.phase = .idle →
    (s.turns = [] ∧ s.runLatched = .next t) ∨
    (∃ ts, s.turns = .sequencer :: ts ∧ State.runLatched { s with turns := ts } = .next t) ∨
    (∃ lost ts, s.turns = .reset lost :: ts)

/-- The sequencer's step either waits for the `RNG`, with nothing changed (the model's choice, log entry 6), or
completes the command: idle, `DONE`, hidden registers 0, answers taken from the front of the stream (R38, R41). -/
def Obligations.SequencerWaitsOrCompletes : Prop :=
  ∀ s t : State, s.phase = .busy → s.runLatched = .next t →
    t = s ∨ (t.phase = .idle ∧ t.done = true ∧ t.hidden = Hidden.cleared ∧ SameOutside s t ∧
      ∃ k, t.rng = s.rng.drop k)

/-- `raise` (R186): a command that completes with an error changes no host-visible state but `STATUS`. -/
def Obligations.ErrorChangesNothingButStatus : Prop :=
  ∀ (s t : State) (e : CmdError), s.phase = .busy → s.runLatched = .next t → t.phase = .idle → t.err = some e →
    SameVisible s t ∧ t.cfg = s.cfg ∧ t.errCode = e.code ∧ t.busyBit = 0 ∧ t.doneBit = 1 ∧
    t.hidden = Hidden.cleared ∧ ∃ k, t.rng = s.rng.drop k

/-- The codes of `STATUS.ERR` and which command can report each (R181, R182, R183, R184, R187, R188). -/
def Obligations.ErrorsComeOnlyFromTheirCommands : Prop :=
  CmdError.zeroInverse.code = 1 ∧ CmdError.decryptionError.code = 2 ∧ CmdError.invalidParameters.code = 3 ∧
  CmdError.illegalCommand.code = 4 ∧ CmdError.rngExhausted.code = 5 ∧
  (∀ s : State, (s.err = none ↔ s.errCode = 0) ∧ s.errCode.toNat ≤ 5) ∧
  ∀ (i : Instr) (s t : State) (e : CmdError),
    s.phase = .busy → exec i s = .next t → t.phase = .idle → t.err = some e →
    (e = .zeroInverse → (∃ fd fs1, i = .finv fd fs1) ∨ (∃ fd, i = .lrecon fd) ∨ i = .decrypt) ∧
    (e = .decryptionError → i = .decrypt) ∧
    (e = .invalidParameters → (∃ fs1, i = .pcons fs1) ∨ (∃ fd fs1, i = .peval fd fs1) ∨ i = .pshare ∨
      (∃ fd, i = .lrecon fd) ∨ i = .encrypt ∨ i = .decrypt) ∧
    e ≠ .illegalCommand ∧
    (e = .rngExhausted → s.cfg.retryMax ≠ none ∧ ((∃ fs1, i = .pcons fs1) ∨ i = .pshare ∨ i = .encrypt))

/-- The `STATUS` word in each combination R27 allows, as the host reads it; a write to `STATUS` is ignored. -/
def Obligations.StatusReadsPhaseDoneAndError : Prop :=
  ∀ s : State, s.StatusOk →
    s.memRead 0x00004 4 = .data s.statusWord ∧ (∀ v, s.memWrite 0x00004 4 v = (s, .written)) ∧
    (s.phase = .busy → s.statusWord = 0x01) ∧
    (s.phase = .idle → s.done = false → s.statusWord = 0x00) ∧
    (s.phase = .idle → s.done = true → s.err = none → s.statusWord = 0x02) ∧
    (∀ e, s.phase = .idle → s.done = true → s.err = some e → s.statusWord.toNat = 0x02 + 0x10 * e.code.toNat)

/-- The values after reset (R42). -/
def Obligations.ResetValuesAreZero : Prop :=
  (∀ r, State.reset.reg r = 0) ∧
  (∀ i, Memory.read State.reset.coef i = 0) ∧ State.reset.clen = 0 ∧
  (∀ i, Memory.read State.reset.shx i = 0) ∧ (∀ i, Memory.read State.reset.shy i = 0) ∧ State.reset.shn = 0 ∧
  State.reset.n = 0 ∧ State.reset.t = 0 ∧
  (∀ a, Memory.read State.reset.mem a = 0) ∧ State.reset.pwlen = 0 ∧ State.reset.lbllen = 0 ∧
  State.reset.datlen = 0 ∧ State.reset.ctlen = 0 ∧
  State.reset.statusWord = 0 ∧ State.reset.done = false ∧ State.reset.err = none ∧
  State.reset.phase = .idle ∧ State.reset.cmdl = 0 ∧
  State.reset.hidden.key = 0 ∧ State.reset.hidden.secret = 0 ∧ (∀ i, Memory.read State.reset.hidden.pay i = 0) ∧
  State.reset.hidden.acc = 0 ∧ State.reset.hidden.li = 0 ∧ State.reset.hidden.retry = 0

/-- A reset step, busy or idle: every bit of the block's state as after reset, parameters and pending accesses kept;
of the `RNG`'s answers only ones a command under way can have been given are lost, so none while idle and none beyond
those its completion would consume (R200, R201, R203; what stays outside the block, and that the schedule says how many
are lost, is the model's choice, log entry 10, DESIGN CHOICE). -/
def Obligations.ResetAbandonsTheCommand : Prop :=
  ∀ (s : State) (lost : Nat) (ts : List Turn), s.turns = .reset lost :: ts →
    ∃ k, k ≤ lost ∧ k ≤ s.answersAskedFor ∧ (s.phase = .idle → k = 0) ∧
      (∀ t, s.phase = .busy → s.runLatched = .next t → t.phase = .idle → k ≤ s.rng.length - t.rng.length) ∧
      step s = .next { State.reset with
        cfg := s.cfg, rng := s.rng.drop k, turns := ts, inbox := s.inbox, outbox := s.outbox }

/-! ## Frames -/

/-- A command writes no field register but its destination, and writes that one with a canonical value (R21, R22). -/
def Obligations.CommandsWriteOnlyTheirDestinationRegister : Prop :=
  ∀ (i : Instr) (s t : State), exec i s = .next t →
    (∀ r, destReg i ≠ some r → t.reg r = s.reg r) ∧
    (∀ r, s.cfg.Legal → destReg i = some r → t.err = none → t.operand r < s.cfg.p)

/-- The write table of R34 for everything but the field registers, entry by entry and byte by byte: what its row does
not name as written keeps its value (R44), and so do entries at or above the count and bytes outside the result. -/
def Obligations.CommandsWriteOnlyTheirRow : Prop :=
  ∀ (i : Instr) (s t : State), s.cfg.Legal → s.StorageOk → exec i s = .next t →
    ((∀ fs1, i ≠ .pcons fs1) → i ≠ .encrypt → t.coef = s.coef ∧ t.clen = s.clen) ∧
    (∀ fs1, i = .pcons fs1 → ∀ j, s.t.toNat ≤ j → Memory.read t.coef j = Memory.read s.coef j) ∧
    (i ≠ .pshare → i ≠ .encrypt → t.shx = s.shx ∧ t.shy = s.shy ∧ t.shn = s.shn) ∧
    (i = .pshare ∨ i = .encrypt → ∀ j, s.n.toNat ≤ j →
      Memory.read t.shx j = Memory.read s.shx j ∧ Memory.read t.shy j = Memory.read s.shy j) ∧
    t.n = s.n ∧ t.t = s.t ∧ t.pwlen = s.pwlen ∧
    (i ≠ .decrypt → t.lbllen = s.lbllen ∧ t.datlen = s.datlen) ∧
    (i ≠ .encrypt → t.ctlen = s.ctlen) ∧
    (i ≠ .encrypt → i ≠ .decrypt → t.mem = s.mem) ∧
    (i = .encrypt → ∀ a,
      ¬ (Buffer.base .ct ≤ a ∧ a < Buffer.base .ct + paddedLength s.lbllen.toNat s.datlen.toNat) →
      Memory.read t.mem a = Memory.read s.mem a) ∧
    (i = .decrypt → ∀ a,
      ¬ (Buffer.base .lbl ≤ a ∧ a < Buffer.base .lbl + t.lbllen.toNat) →
      ¬ (Buffer.base .dat ≤ a ∧ a < Buffer.base .dat + t.datlen.toNat) →
      Memory.read t.mem a = Memory.read s.mem a) ∧
    ((∀ fs1, i ≠ .pcons fs1) → i ≠ .pshare → i ≠ .encrypt → t.rng = s.rng) ∧
    SameOutside s t

/-- No command reads `STATUS`, a hidden register or the latch: what they hold makes no difference to what a command
does (R25, R39, R214); a command that must wait changes nothing either way (log entry 6). That whole next states agree
rests on a completion leaving the same `CMDL` whatever it was: D32 clears it at every completion, R41 says only that it
"becomes meaningless", and the 0 it is left at is the model's (log entry 9, DESIGN CHOICE). -/
def Obligations.CommandsReadNoStatusAndNoHiddenState : Prop :=
  ∀ (i : Instr) (s : State) (d : Bool) (e : Option CmdError) (h : Hidden) (c : Word) (ph : Phase),
    let s' : State := { s with done := d, err := e, hidden := h, cmdl := c, phase := ph }
    exec i s' = exec i s ∨ (exec i s = .next s ∧ exec i s' = .next s')

/-- Entries at or above a count and bytes at or above a length are read by no command, and what a command's row of
R34 does not name as read is not read at all (R31, R32, R33): whatever stands there, the command does the same. `COEF` is
read by `PEVAL` and `PSHARE` alone, the shares by `LRECON` and `DECRYPT`, the bytes by `ENCRYPT` and `DECRYPT`. -/
def Obligations.EntriesAboveTheCountAreNotRead : Prop :=
  (∀ (i : Instr) (s t : State) (m : Memory 257), s.coef.wf → m.wf →
    ((∃ fd fs1, i = .peval fd fs1) ∨ i = .pshare → ∀ j, j < s.clen.toNat → Memory.read m j = Memory.read s.coef j) →
    exec i s = .next t →
    ∃ m', exec i { s with coef := m } = .next { t with coef := m' } ∧ ChangeAlike s.coef t.coef m m' ∧
      ((∀ fs1, i ≠ .pcons fs1) → i ≠ .encrypt → m' = m)) ∧
  (∀ (i : Instr) (s t : State) (mx my : Memory 257), s.shx.wf → s.shy.wf → mx.wf → my.wf →
    ((∃ fd, i = .lrecon fd) ∨ i = .decrypt → ∀ j, j < s.shn.toNat →
      Memory.read mx j = Memory.read s.shx j ∧ Memory.read my j = Memory.read s.shy j) →
    exec i s = .next t →
    ∃ mx' my', exec i { s with shx := mx, shy := my } = .next { t with shx := mx', shy := my' } ∧
      ChangeAlike s.shx t.shx mx mx' ∧ ChangeAlike s.shy t.shy my my' ∧
      (i ≠ .pshare → i ≠ .encrypt → mx' = mx ∧ my' = my)) ∧
  (∀ (i : Instr) (s t : State) (m : Memory 8), s.mem.wf → m.wf →
    (i = .encrypt → s.SameContents m .pw ∧ s.SameContents m .lbl ∧ s.SameContents m .dat) →
    (i = .decrypt → s.SameContents m .ct) →
    exec i s = .next t →
    ∃ m', exec i { s with mem := m } = .next { t with mem := m' } ∧ ChangeAlike s.mem t.mem m m' ∧
      (i ≠ .encrypt → i ≠ .decrypt → m' = m))

/-! ## Field arithmetic -/

/-- `FADD` (R105): its word, its result for all operands, canonical or not, and nothing else changed. -/
def Obligations.FaddWritesTheReducedSum : Prop :=
  ∀ (s : State) (fd fs1 fs2 : FReg), s.cfg.Legal →
    (encode (.fadd fd fs1 fs2)).toNat = 0x10000 * fs2.val + 0x1000 * fs1.val + 0x100 * fd.val + 0x01 ∧
    ∃ (v : FieldWord) (c : Word),
      v.toNat = (s.operand fs1 + s.operand fs2) % s.cfg.p ∧
      exec (.fadd fd fs1 fs2) s = .next (State.afterCompletion { s with f := s.f.set fd v } none c)

/-- `FSUB` (R106): never negative, with the remainder of R11. -/
def Obligations.FsubWritesTheReducedDifference : Prop :=
  ∀ (s : State) (fd fs1 fs2 : FReg), s.cfg.Legal →
    (encode (.fsub fd fs1 fs2)).toNat = 0x10000 * fs2.val + 0x1000 * fs1.val + 0x100 * fd.val + 0x02 ∧
    ∃ (v : FieldWord) (c : Word),
      (v.toNat : Int) = ((s.operand fs1 : Int) - (s.operand fs2 : Int)) % (s.cfg.p : Int) ∧
      exec (.fsub fd fs1 fs2) s = .next (State.afterCompletion { s with f := s.f.set fd v } none c)

/-- `FMUL` (R107): the full product reduced. -/
def Obligations.FmulWritesTheReducedProduct : Prop :=
  ∀ (s : State) (fd fs1 fs2 : FReg), s.cfg.Legal →
    (encode (.fmul fd fs1 fs2)).toNat = 0x10000 * fs2.val + 0x1000 * fs1.val + 0x100 * fd.val + 0x03 ∧
    ∃ (v : FieldWord) (c : Word),
      v.toNat = (s.operand fs1 * s.operand fs2) % s.cfg.p ∧
      exec (.fmul fd fs1 fs2) s = .next (State.afterCompletion { s with f := s.f.set fd v } none c)

/-- `FINV` (R108): the power of R102, or `ZeroInverse` on the two operands congruent to 0. -/
def Obligations.FinvWritesTheInverseOrRaises : Prop :=
  ∀ (s : State) (fd fs1 : FReg), s.cfg.Legal →
    (encode (.finv fd fs1)).toNat = 0x1000 * fs1.val + 0x100 * fd.val + 0x04 ∧
    (s.operand fs1 % s.cfg.p ≠ 0 → ∃ (v : FieldWord) (c : Word),
      v.toNat = s.operand fs1 ^ (s.cfg.p - 2) % s.cfg.p ∧
      exec (.finv fd fs1) s = .next (State.afterCompletion { s with f := s.f.set fd v } none c)) ∧
    (s.operand fs1 % s.cfg.p = 0 → ∃ c,
      exec (.finv fd fs1) s = .next (s.afterCompletion (some .zeroInverse) c)) ∧
    (s.operand fs1 % s.cfg.p = 0 ↔ s.operand fs1 = 0 ∨ s.operand fs1 = s.cfg.p)

/-- Inverse correctness (R109), for canonical and non-canonical operands: multiplying by the result gives 1. -/
def Obligations.InverseTimesOperandIsOne : Prop :=
  ∀ (s : State) (fd fs1 k : FReg), s.cfg.Legal → s.operand fs1 % s.cfg.p ≠ 0 → fd ≠ fs1 →
    ∃ t u, exec (.finv fd fs1) s = .next t ∧ t.err = none ∧
      exec (.fmul k fs1 fd) t = .next u ∧ u.err = none ∧ u.operand k = 1

/-- The ring laws of R111 for the four functions of R102, and that each depends on residues only. -/
def Obligations.FieldFunctionsObeyTheRingLaws : Prop :=
  ∀ (p a b c : Nat), p.Prime →
    fadd p a b = fadd p b a ∧ fmul p a b = fmul p b a ∧
    fadd p (fadd p a b) c = fadd p a (fadd p b c) ∧ fmul p (fmul p a b) c = fmul p a (fmul p b c) ∧
    fmul p a (fadd p b c) = fadd p (fmul p a b) (fmul p a c) ∧
    fsub p a b = fadd p a (fsub p 0 b) ∧ (a ≠ 0 → a < p → fsub p 0 a = p - a) ∧
    fadd p (fsub p a b) b = a % p ∧
    fadd p (a % p) (b % p) = fadd p a b ∧ fsub p (a % p) (b % p) = fsub p a b ∧
    fmul p (a % p) (b % p) = fmul p a b ∧ finv p (a % p) = finv p a

/-! ## Polynomials -/

/-- `PCONS` (R123): its word, the coefficients it stores and the draws it consumes, entries above left alone, and
its two errors in their order. -/
def Obligations.PconsStoresARandomPolynomial : Prop :=
  ∀ (s : State) (fs1 : FReg), s.cfg.Legal → s.StorageOk →
    (encode (.pcons fs1)).toNat = 0x1000 * fs1.val + 0x10 ∧
    (∀ coefs rest, 1 ≤ s.t.toNat → s.t.toNat ≤ s.cfg.tMax →
      TakesCoefs s.cfg.retryMax (s.operand fs1 % s.cfg.p) s.t.toNat s.rng coefs rest →
      ∃ (m : Memory 257) (c : Word), StoresFirst s.coef coefs m ∧ coefs.length = s.t.toNat ∧
        exec (.pcons fs1) s =
          .next (State.afterCompletion { s with coef := m, clen := s.t, rng := rest } none c)) ∧
    (s.t.toNat = 0 ∨ s.cfg.tMax < s.t.toNat → ∃ c,
      exec (.pcons fs1) s = .next (s.afterCompletion (some .invalidParameters) c)) ∧
    (∀ rest, 1 ≤ s.t.toNat → s.t.toNat ≤ s.cfg.tMax → ExhaustsCoefs s.cfg.retryMax s.t.toNat s.rng rest → ∃ c,
      exec (.pcons fs1) s = .next (State.afterCompletion { s with rng := rest } (some .rngExhausted) c))

/-- The degree invariant (R124): the top coefficient is not 0; with `T = 1` it is the secret. The second part says it
of every construction, so also of the polynomial `ENCRYPT` builds and clears. -/
def Obligations.TopCoefficientIsNotZero : Prop :=
  (∀ (s t : State) (fs1 : FReg), s.cfg.Legal → s.StorageOk → exec (.pcons fs1) s = .next t → CompletesOk s t →
    (2 ≤ t.clen.toNat → Memory.read t.coef (t.clen.toNat - 1) ≠ 0) ∧
    (t.clen = 1 → (Memory.read t.coef 0).toNat = s.operand fs1 % s.cfg.p)) ∧
  (∀ limit secret n stream coefs rest, 2 ≤ n → construct limit secret n stream = .ok coefs rest →
    coefs.length = n ∧ coefs.getD (n - 1) 0 ≠ 0)

/-- A command whose draws are not all answered does not complete (R38, R66); that the state then stays as it is, is
the model's choice (log entry 6). -/
def Obligations.UnansweredDrawsDelayCompletion : Prop :=
  ∀ s : State, s.cfg.Legal →
    (∀ fs1, 1 ≤ s.t.toNat → s.t.toNat ≤ s.cfg.tMax → AwaitsCoefs s.cfg.retryMax s.t.toNat s.rng →
      exec (.pcons fs1) s = .next s) ∧
    (1 ≤ s.clen.toNat → s.clen.toNat ≤ s.cfg.tMax → s.n.toNat ≤ s.cfg.nMax →
      AwaitsShares s.cfg.retryMax s.n.toNat s.rng → exec .pshare s = .next s) ∧
    (¬ EncryptRefused s → AwaitsCoefs s.cfg.retryMax s.t.toNat s.rng → exec .encrypt s = .next s) ∧
    (∀ secret coefs mid, ¬ EncryptRefused s → TakesCoefs s.cfg.retryMax secret s.t.toNat s.rng coefs mid →
      AwaitsShares s.cfg.retryMax s.n.toNat mid → exec .encrypt s = .next s)

/-- `PEVAL` (R126): the value of the stored polynomial at any 257-bit point, or `InvalidParameters`. -/
def Obligations.PevalWritesThePolynomialsValue : Prop :=
  ∀ (s : State) (fd fs1 : FReg), s.cfg.Legal →
    (encode (.peval fd fs1)).toNat = 0x1000 * fs1.val + 0x100 * fd.val + 0x11 ∧
    (1 ≤ s.clen.toNat → s.clen.toNat ≤ s.cfg.tMax → ∃ (v : FieldWord) (c : Word),
      v.toNat = (∑ i ∈ Finset.range s.clen.toNat, (Memory.read s.coef i).toNat * s.operand fs1 ^ i) % s.cfg.p ∧
      exec (.peval fd fs1) s = .next (State.afterCompletion { s with f := s.f.set fd v } none c)) ∧
    (s.clen.toNat = 0 ∨ s.cfg.tMax < s.clen.toNat → ∃ c,
      exec (.peval fd fs1) s = .next (s.afterCompletion (some .invalidParameters) c))

/-- Evaluation depends on the residue of the point only, so `evaluate(P - m) == evaluate(-m mod P)` also at `m = 0`
(R127 (b)); no draw is made (R127 (a)). -/
def Obligations.EvaluationDependsOnTheResidue : Prop :=
  ∀ (s : State) (fd a b : FReg), s.cfg.Legal →
    (s.operand a % s.cfg.p = s.operand b % s.cfg.p → exec (.peval fd a) s = exec (.peval fd b) s) ∧
    (∀ m, m < s.cfg.p → s.operand a = s.cfg.p - m → (s.operand b : Int) = (-(m : Int)) % (s.cfg.p : Int) →
      exec (.peval fd a) s = exec (.peval fd b) s) ∧
    (∀ t, exec (.peval fd a) s = .next t → t.rng = s.rng)

/-- `PSHARE` (R128): its word, the shares it stores in insertion order and the draws it consumes, entries above left
alone, and its two errors in their order. -/
def Obligations.PshareStoresSharesOfThePolynomial : Prop :=
  ∀ s : State, s.cfg.Legal → s.StorageOk →
    (encode .pshare).toNat = 0x12 ∧
    (∀ xs rest, 1 ≤ s.clen.toNat → s.clen.toNat ≤ s.cfg.tMax → s.n.toNat ≤ s.cfg.nMax →
      TakesShares s.cfg.retryMax [] s.rng xs rest → xs.length = s.n.toNat →
      ∃ (mx my : Memory 257) (c : Word), StoresFirst s.shx xs mx ∧
        StoresFirst s.shy (xs.map fun x =>
          (∑ i ∈ Finset.range s.clen.toNat, (Memory.read s.coef i).toNat * x ^ i) % s.cfg.p) my ∧
        exec .pshare s =
          .next (State.afterCompletion { s with shx := mx, shy := my, shn := s.n, rng := rest } none c)) ∧
    (s.clen.toNat = 0 ∨ s.cfg.tMax < s.clen.toNat ∨ s.cfg.nMax < s.n.toNat → ∃ c,
      exec .pshare s = .next (s.afterCompletion (some .invalidParameters) c)) ∧
    (∀ rest, 1 ≤ s.clen.toNat → s.clen.toNat ≤ s.cfg.tMax → s.n.toNat ≤ s.cfg.nMax →
      ExhaustsShares s.cfg.retryMax s.n.toNat s.rng rest → ∃ c,
      exec .pshare s = .next (State.afterCompletion { s with rng := rest } (some .rngExhausted) c))

/-- Distinctness (R129 (a)): after an error-free `PSHARE` or `ENCRYPT` no two shares have the same `x`, nor `x` values
congruent modulo `P`. -/
def Obligations.ProducedSharesAreDistinct : Prop :=
  ∀ (i : Instr) (s t : State), i = .pshare ∨ i = .encrypt → s.cfg.Legal → s.StorageOk →
    exec i s = .next t → CompletesOk s t →
    ∀ j k, j < k → k < t.shn.toNat → Memory.read t.shx j ≠ Memory.read t.shx k ∧
      (Memory.read t.shx j).toNat % s.cfg.p ≠ (Memory.read t.shx k).toNat % s.cfg.p

/-! ## Reconstruction -/

/-- `LRECON` (R143): its word, the Lagrange sum of R141 when no two `x` are congruent, `ZeroInverse` when two are,
`InvalidParameters` on a bad count. -/
def Obligations.LreconWritesTheLagrangeSum : Prop :=
  ∀ (s : State) (fd : FReg), s.cfg.Legal →
    (encode (.lrecon fd)).toNat = 0x100 * fd.val + 0x20 ∧
    (1 ≤ s.shn.toNat → s.shn.toNat ≤ s.cfg.nMax → DistinctMod s.cfg.p s.shareXs → ∃ (v : FieldWord) (c : Word),
      v.toNat < s.cfg.p ∧ (v.toNat : ZMod s.cfg.p) = lagrangeSum s.cfg.p s.shareXs s.shareYs ∧
      exec (.lrecon fd) s = .next (State.afterCompletion { s with f := s.f.set fd v } none c)) ∧
    (1 ≤ s.shn.toNat → s.shn.toNat ≤ s.cfg.nMax → ¬ DistinctMod s.cfg.p s.shareXs → ∃ c,
      exec (.lrecon fd) s = .next (s.afterCompletion (some .zeroInverse) c)) ∧
    (s.shn.toNat = 0 ∨ s.cfg.nMax < s.shn.toNat → ∃ c,
      exec (.lrecon fd) s = .next (s.afterCompletion (some .invalidParameters) c))

/-- Correctness (R144, first sentence; R145): on any polynomial of degree at most `k - 1` through the `k` supplied
points, `LRECON` gives its constant term. -/
def Obligations.ReconstructionFindsTheConstantTerm : Prop :=
  ∀ (s : State) (fd : FReg) (f : List Nat), s.cfg.Legal → 1 ≤ s.shn.toNat → s.shn.toNat ≤ s.cfg.nMax →
    DistinctMod s.cfg.p s.shareXs → f.length ≤ s.shn.toNat →
    (∀ i, i < s.shn.toNat → (Memory.read s.shy i).toNat % s.cfg.p =
      polyValue s.cfg.p f (Memory.read s.shx i).toNat) →
    ∃ t, exec (.lrecon fd) s = .next t ∧ t.Completed none ∧ t.operand fd = f.getD 0 0 % s.cfg.p

/-- Sharing and reconstructing (R144, its consequence): after `PCONS` with threshold `T` and `PSHARE` with `N`, any
`k ≥ T` of the produced shares, in any order, make `LRECON` return the secret. Between the commands the host may
change anything but the polynomial. -/
def Obligations.EnoughSharesReconstructTheSecret : Prop :=
  ∀ (s u w x v : State) (fs1 fd : FReg) (idx : List Nat),
    s.cfg.Legal → s.StorageOk →
    exec (.pcons fs1) s = .next u → CompletesOk s u →
    w.cfg = s.cfg → w.StorageOk → w.coef = u.coef → w.clen = u.clen →
    exec .pshare w = .next x → CompletesOk w x →
    v.cfg = s.cfg → HoldsShares x v idx → idx.Nodup → (∀ j ∈ idx, j < x.shn.toNat) → s.t.toNat ≤ idx.length →
    ∃ t, exec (.lrecon fd) v = .next t ∧ t.Completed none ∧ t.operand fd = s.operand fs1 % s.cfg.p ∧
      t.operand fd = (Memory.read u.coef 0).toNat

/-- Order independence (R146 (a)): permuting the shares changes neither the result nor the error. -/
def Obligations.ShareOrderDoesNotMatter : Prop :=
  ∀ (s u : State) (fd : FReg), s.cfg.Legal → u.cfg = s.cfg →
    (s.shareXs.zip s.shareYs).Perm (u.shareXs.zip u.shareYs) →
    ∃ t v, exec (.lrecon fd) s = .next t ∧ exec (.lrecon fd) u = .next v ∧ t.err = v.err ∧
      (t.err = none → t.reg fd = v.reg fd)

/-- A share at 0 decides the result alone, and one share gives its own `y` (R146 (b), (c)). -/
def Obligations.ShareAtZeroAndSingleShare : Prop :=
  ∀ (s : State) (fd : FReg), s.cfg.Legal → 1 ≤ s.shn.toNat → s.shn.toNat ≤ s.cfg.nMax →
    (∀ i, i < s.shn.toNat → DistinctMod s.cfg.p s.shareXs → (Memory.read s.shx i).toNat % s.cfg.p = 0 →
      ∃ t, exec (.lrecon fd) s = .next t ∧ t.Completed none ∧
        t.operand fd = (Memory.read s.shy i).toNat % s.cfg.p) ∧
    (s.shn = 1 → ∃ t, exec (.lrecon fd) s = .next t ∧ t.Completed none ∧
      t.operand fd = (Memory.read s.shy 0).toNat % s.cfg.p)

/-! ## Byte strings and the envelope -/

/-- `HexDigit` and `HexVal` (R81), every value. -/
def Obligations.HexDigitsReadBothCases : Prop :=
  (List.range 16).map hexDigit =
    [0x30, 0x31, 0x32, 0x33, 0x34, 0x35, 0x36, 0x37, 0x38, 0x39, 0x61, 0x62, 0x63, 0x64, 0x65, 0x66] ∧
  ∀ c : Byte,
    (0x30 ≤ c.toNat ∧ c.toNat ≤ 0x39 → hexVal c = some (c.toNat - 0x30)) ∧
    (0x61 ≤ c.toNat ∧ c.toNat ≤ 0x66 → hexVal c = some (c.toNat - 0x61 + 10)) ∧
    (0x41 ≤ c.toNat ∧ c.toNat ≤ 0x46 → hexVal c = some (c.toNat - 0x41 + 10)) ∧
    (¬ (0x30 ≤ c.toNat ∧ c.toNat ≤ 0x39) → ¬ (0x61 ≤ c.toNat ∧ c.toNat ≤ 0x66) →
      ¬ (0x41 ≤ c.toNat ∧ c.toNat ≤ 0x46) → hexVal c = none)

/-- The padded payload (R82, R83): its four parts, the pad byte of each `k`, and its length. -/
def Obligations.PaddingFillsWholeBlocks : Prop :=
  ∀ l c : List Byte,
    let m := l.length + 1 + c.length
    let k := 16 - m % 16
    1 ≤ k ∧ k ≤ 16 ∧
    pad l c = l ++ [0x00] ++ c ++ List.replicate k (([0x30, 0x31, 0x32, 0x33, 0x34, 0x35, 0x36, 0x37, 0x38, 0x39, 0x61,
      0x62, 0x63, 0x64, 0x65, 0x66] : List Byte).getD (k % 16) 0) ∧
    (pad l c).length = m + k ∧ (pad l c).length = 16 * (m / 16 + 1) ∧ 16 ≤ (pad l c).length

/-- `Unpad` (R84), exactly: valid text that splits at its first zero byte into a label, a content and a pad whose last
byte tells its length; everything else is `DecryptionError`. -/
def Obligations.UnpadSplitsOrRaises : Prop :=
  ∀ (cfg : Params) (b : List Byte),
    (∀ label content, unpad cfg b = .ok (label, content) ↔
      cfg.validText b = true ∧ (0x00 : Byte) ∉ label ∧ ∃ (front : List Byte) (last : Byte) (k : Nat),
        b = label ++ [0x00] ++ content ++ (front ++ [last]) ∧ 1 ≤ k ∧ k ≤ 16 ∧ front.length + 1 = k ∧
        hexVal last = some (k % 16)) ∧
    (∀ e, unpad cfg b = .error e → e = .decryptionError)

/-- The padding round trip (R85). -/
def Obligations.UnpadUndoesPad : Prop :=
  ∀ (cfg : Params) (l c : List Byte), (0x00 : Byte) ∉ l → cfg.validText (pad l c) = true →
    unpad cfg (pad l c) = .ok (l, c)

/-- The reference text test is the table of R89: a concatenation of well-formed sequences. -/
def Obligations.ReferenceTextTestFollowsTheTable : Prop :=
  ∀ (cfg : Params) (b : List Byte), cfg.text = .reference →
    (cfg.validText b = true ↔ ∃ seqs : List (List Byte), b = seqs.flatten ∧ ∀ q ∈ seqs, Utf8Row q)

/-- The two forms of the key (R80): each conversion undoes the other, and `Kdf` takes both from one digest. -/
def Obligations.KeyFormsStayIdentical : Prop :=
  (∀ d : Bytes 32, bytesBe32 (intBe d.toList) = d) ∧
  (∀ v : Nat, v < 2 ^ 256 → intBe (bytesBe32 v).toList = v) ∧
  (∀ (cfg : Params) (pw : List Byte), cfg.Legal → (kdf cfg pw).1 = cfg.hashOf pw ∧
    (kdf cfg pw).2 = intBe (cfg.hashOf pw).toList ∧ (kdf cfg pw).2 < cfg.p)

/-- The block mode (R152): block by block, the same length, and deciphering undoes enciphering. -/
def Obligations.BlockModeWorksBlockByBlock : Prop :=
  ∀ (cfg : Params) (key : Bytes 32) (m : List Byte), m.length % 16 = 0 →
    (ecbEnc cfg key m).length = m.length ∧ (ecbDec cfg key m).length = m.length ∧
    (∀ q (b : Bytes 16), q < m.length / 16 → b.toList = (m.drop (16 * q)).take 16 →
      ((ecbEnc cfg key m).drop (16 * q)).take 16 = (cfg.enc key b).toList ∧
      ((ecbDec cfg key m).drop (16 * q)).take 16 = (cfg.dec key b).toList) ∧
    ecbDec cfg key (ecbEnc cfg key m) = m

/-- Equal payload blocks give equal ciphertext blocks, at any positions, in one payload or two (R153, R208). -/
def Obligations.EqualBlocksEncipherEqually : Prop :=
  ∀ (cfg : Params) (key : Bytes 32) (m m' : List Byte) (q q' : Nat),
    m.length % 16 = 0 → m'.length % 16 = 0 → q < m.length / 16 → q' < m'.length / 16 →
    (m.drop (16 * q)).take 16 = (m'.drop (16 * q')).take 16 →
    ((ecbEnc cfg key m).drop (16 * q)).take 16 = ((ecbEnc cfg key m').drop (16 * q')).take 16

/-- `ENCRYPT` (R165): its word, every destination of step 9 with the value of steps 4 to 8, nothing else written, and
its two errors in their order. -/
def Obligations.EncryptWritesCiphertextAndShares : Prop :=
  ∀ s : State, s.cfg.Legal → s.StorageOk →
    (encode .encrypt).toNat = 0x30 ∧
    (EncryptRefused s → ∃ c, exec .encrypt s = .next (s.afterCompletion (some .invalidParameters) c)) ∧
    (¬ EncryptRefused s →
      let key := s.cfg.hashOf (s.bufferBytes .pw s.pwlen.toNat)
      let payload := pad (s.bufferBytes .lbl s.lbllen.toNat) (s.bufferBytes .dat s.datlen.toNat)
      (∀ coefs mid xs rest,
        TakesCoefs s.cfg.retryMax (intBe key.toList) s.t.toNat s.rng coefs mid →
        TakesShares s.cfg.retryMax [] mid xs rest → xs.length = s.n.toNat →
        ∃ (mem' : Memory 8) (mx my mc : Memory 257) (len c : Word),
          StoresBytes s.mem (Buffer.base .ct) (ecbEnc s.cfg key payload) mem' ∧
          len.toNat = 16 * ((s.lbllen.toNat + 1 + s.datlen.toNat) / 16 + 1) ∧ payload.length = len.toNat ∧
          StoresFirst s.shx xs mx ∧ StoresFirst s.shy (xs.map (polyValue s.cfg.p coefs)) my ∧
          StoresFirst s.coef (List.replicate s.cfg.tMax 0) mc ∧
          exec .encrypt s = .next (State.afterCompletion
            { s with mem := mem', ctlen := len, shx := mx, shy := my, shn := s.n, coef := mc, clen := 0, rng := rest }
            none c)) ∧
      (∀ rest, ExhaustsCoefs s.cfg.retryMax s.t.toNat s.rng rest → ∃ c,
        exec .encrypt s = .next (State.afterCompletion { s with rng := rest } (some .rngExhausted) c)) ∧
      (∀ coefs mid rest, TakesCoefs s.cfg.retryMax (intBe key.toList) s.t.toNat s.rng coefs mid →
        ExhaustsShares s.cfg.retryMax s.n.toNat mid rest → ∃ c,
        exec .encrypt s = .next (State.afterCompletion { s with rng := rest } (some .rngExhausted) c)))

/-- What `ENCRYPT` leaves behind (R166): no coefficient, no hidden value, and the password where it was. That a store
whose every entry reads 0 is the empty list is the canonical form, the model's choice (log entry 13, DESIGN CHOICE). -/
def Obligations.EncryptLeavesNoPolynomial : Prop :=
  ∀ s t : State, s.Inv → exec .encrypt s = .next t → CompletesOk s t →
    (∀ i, Memory.read t.coef i = 0) ∧ t.coef = Memory.empty ∧ t.clen = 0 ∧ t.hidden = Hidden.cleared ∧
    t.pwlen = s.pwlen ∧ t.bufferBytes .pw s.cfg.bufMax = s.bufferBytes .pw s.cfg.bufMax

/-- `DECRYPT` (R170): its word, its five tests in their order with the error each reports, and on success the label
and the content in their buffers and nothing else written. -/
def Obligations.DecryptWritesLabelAndContentOrRaises : Prop :=
  ∀ s : State, s.cfg.Legal → s.StorageOk →
    (encode .decrypt).toNat = 0x31 ∧
    (s.shn.toNat = 0 ∨ s.cfg.nMax < s.shn.toNat ∨ s.cfg.bufMax < s.ctlen.toNat → ∃ c,
      exec .decrypt s = .next (s.afterCompletion (some .invalidParameters) c)) ∧
    (1 ≤ s.shn.toNat → s.shn.toNat ≤ s.cfg.nMax → s.ctlen.toNat ≤ s.cfg.bufMax →
      (¬ DistinctMod s.cfg.p s.shareXs → ∃ c,
        exec .decrypt s = .next (s.afterCompletion (some .zeroInverse) c)) ∧
      (DistinctMod s.cfg.p s.shareXs → ∀ secret, secret < s.cfg.p →
        (secret : ZMod s.cfg.p) = lagrangeSum s.cfg.p s.shareXs s.shareYs →
        let plain := ecbDec s.cfg (bytesBe32 secret) (s.bufferBytes .ct s.ctlen.toNat)
        (2 ^ 256 ≤ secret ∨ s.ctlen.toNat = 0 ∨ s.ctlen.toNat % 16 ≠ 0 ∨ (∃ e, unpad s.cfg plain = .error e) → ∃ c,
          exec .decrypt s = .next (s.afterCompletion (some .decryptionError) c)) ∧
        (∀ label content, secret < 2 ^ 256 → s.ctlen.toNat ≠ 0 → s.ctlen.toNat % 16 = 0 →
          unpad s.cfg plain = .ok (label, content) →
          ∃ (m m' : Memory 8) (llen clen c : Word),
            StoresBytes s.mem (Buffer.base .lbl) label m ∧ StoresBytes m (Buffer.base .dat) content m' ∧
            llen.toNat = label.length ∧ clen.toNat = content.length ∧
            exec .decrypt s =
              .next (State.afterCompletion { s with mem := m', lbllen := llen, datlen := clen } none c))))

/-- The round trip (R174): what `ENCRYPT` was given, `DECRYPT` gives back, from any `k ≥ T` of the shares in any
order, however the host changed everything else between. -/
def Obligations.DecryptUndoesEncrypt : Prop :=
  ∀ (s u v : State) (idx : List Nat), s.cfg.Legal → s.StorageOk → exec .encrypt s = .next u → CompletesOk s u →
    (0x00 : Byte) ∉ s.bufferBytes .lbl s.lbllen.toNat →
    s.cfg.validText (pad (s.bufferBytes .lbl s.lbllen.toNat) (s.bufferBytes .dat s.datlen.toNat)) = true →
    v.cfg = s.cfg → v.StorageOk → v.ctlen = u.ctlen →
    v.bufferBytes .ct u.ctlen.toNat = u.bufferBytes .ct u.ctlen.toNat →
    HoldsShares u v idx → idx.Nodup → (∀ j ∈ idx, j < u.shn.toNat) → s.t.toNat ≤ idx.length →
    ∃ t, exec .decrypt v = .next t ∧ t.Completed none ∧ t.lbllen = s.lbllen ∧ t.datlen = s.datlen ∧
      t.bufferBytes .lbl s.lbllen.toNat = s.bufferBytes .lbl s.lbllen.toNat ∧
      t.bufferBytes .dat s.datlen.toNat = s.bufferBytes .dat s.datlen.toNat

/-! ## The host port -/

/-- A read returns the latest write to the same location, no other location changes, no read changes anything, and
only `CMD` has a side effect (R58, R60); in word 8 of a 257-bit location bits 31:1 are dropped (R43, R56). -/
def Obligations.ReadsReturnTheLatestWrite : Prop :=
  ∀ (s t : State) (a : Nat) (v : Word), s.Inv →
    (∀ size, s.access (.read a size) = (s, s.memRead a size)) ∧
    (s.memWrite a 4 v = (t, .written) → a ≠ 0x00000 → a ≠ 0x00004 →
      t.memRead a 4 = .data (if 0x00100 ≤ a ∧ a < 0x0D000 ∧ a % 0x40 = 0x20 then v &&& 1 else v) ∧
      (∀ b, b ≠ a → t.memRead b 4 = s.memRead b 4) ∧
      t.phase = s.phase ∧ t.memWrite a 4 v = (t, .written))

/-- Misaligned accesses, accesses of another width and reserved addresses answer `ERROR` and change nothing; every
other access answers `OKAY` (R54, R55, R57). -/
def Obligations.ReservedAccessesAnswerError : Prop :=
  ∀ (s : State) (a size : Nat) (v : Word), s.cfg.Legal →
    (size ≠ 4 ∨ a % 4 ≠ 0 ∨ Reserved s.cfg a →
      s.access (.read a size) = (s, .error) ∧ s.access (.write a size v) = (s, .error)) ∧
    (size = 4 → a % 4 = 0 → ¬ Reserved s.cfg a →
      (∃ w, s.access (.read a size) = (s, .data w)) ∧ (s.access (.write a size v)).2 = .written)

/-- Byte buffers, four bytes to a word, lowest address in bits 7:0; a write stores all four, also beyond the length
register (R53, R59). -/
def Obligations.BufferWordsAreLittleEndian : Prop :=
  ∀ (s : State) (b : Buffer) (q : Nat) (v : Word), s.Inv → 4 * q < s.cfg.bufMax →
    s.memRead (b.base + 4 * q) 4 = .data (Memory.read s.mem (b.base + 4 * q + 3) ++
      Memory.read s.mem (b.base + 4 * q + 2) ++ Memory.read s.mem (b.base + 4 * q + 1) ++
      Memory.read s.mem (b.base + 4 * q)) ∧
    ∃ m, s.memWrite (b.base + 4 * q) 4 v = ({ s with mem := m }, .written) ∧
      StoresBytes s.mem (b.base + 4 * q)
        [v.extractLsb' 0 8, v.extractLsb' 8 8, v.extractLsb' 16 8, v.extractLsb' 24 8] m

/-- The nine words of a 257-bit location (R56): word `w` reads bits `32w + 31 : 32w` (bits above 256 read 0), and a
write to it changes those bits of that location and nothing else in the whole state. -/
def Obligations.WordAccessesReachTheirOwnBits : Prop :=
  ∀ (s : State) (l : ScriptLoc) (w : Fin 9) (v : Word), s.Inv → l.Present s.cfg →
    (∃ x : Word, s.memRead (l.addr + 4 * w.val) 4 = .data x ∧
      ∀ k, k < 32 → x.getLsbD k = (s.valueAt l).getLsbD (32 * w.val + k)) ∧
    ∃ t, s.memWrite (l.addr + 4 * w.val) 4 v = (t, .written) ∧
      (∀ k, k < 257 → (t.valueAt l).getLsbD k =
        if 32 * w.val ≤ k ∧ k < 32 * w.val + 32 then v.getLsbD (k - 32 * w.val) else (s.valueAt l).getLsbD k) ∧
      (∀ l' : ScriptLoc, l' ≠ l → t.valueAt l' = s.valueAt l') ∧
      t = { s with f := t.f, coef := t.coef, shx := t.shx, shy := t.shy }

/-- `SET` and `GET` (R77): nine host turns store a 257-bit value whole, and nine read it. -/
def Obligations.SetAndGetScriptsMoveWholeValues : Prop :=
  ∀ (s : State) (l : ScriptLoc) (v : FieldWord) (rest : List BusRequest),
    s.Inv → s.phase = .idle → l.Present s.cfg →
    (s.inbox = scriptSet l v ++ rest →
      let t := State.hostTurn^[9] s
      t.valueAt l = v ∧ (∀ l' : ScriptLoc, l' ≠ l → t.valueAt l' = s.valueAt l') ∧
      t = { s with
        f := t.f, coef := t.coef, shx := t.shx, shy := t.shy
        inbox := rest, outbox := s.outbox ++ List.replicate 9 .written }) ∧
    (s.inbox = scriptGet l ++ rest →
      State.hostTurn^[9] s = { s with
        inbox := rest, outbox := s.outbox ++ (List.finRange 9).map fun w => .data (wordAt (s.valueAt l) w) })

/-- The map (R55), address by address: the eight 32-bit registers stand where R28, R29 and R30 put them, each read and
written whole with every other field as it was, and word 0 of each 257-bit location and byte 0 of each buffer are at
their bases. `WordAccessesReachTheirOwnBits` and `BufferWordsAreLittleEndian` say what stands from there on. -/
def Obligations.TheMapPlacesEveryRegister : Prop :=
  (∀ (s : State) (v : Word),
    (s.memRead 0x00008 4 = .data s.n ∧ s.memWrite 0x00008 4 v = ({ s with n := v }, .written)) ∧
    (s.memRead 0x0000C 4 = .data s.t ∧ s.memWrite 0x0000C 4 v = ({ s with t := v }, .written)) ∧
    (s.memRead 0x00010 4 = .data s.clen ∧ s.memWrite 0x00010 4 v = ({ s with clen := v }, .written)) ∧
    (s.memRead 0x00014 4 = .data s.shn ∧ s.memWrite 0x00014 4 v = ({ s with shn := v }, .written)) ∧
    (s.memRead 0x00018 4 = .data s.pwlen ∧ s.memWrite 0x00018 4 v = ({ s with pwlen := v }, .written)) ∧
    (s.memRead 0x0001C 4 = .data s.lbllen ∧ s.memWrite 0x0001C 4 v = ({ s with lbllen := v }, .written)) ∧
    (s.memRead 0x00020 4 = .data s.datlen ∧ s.memWrite 0x00020 4 v = ({ s with datlen := v }, .written)) ∧
    (s.memRead 0x00024 4 = .data s.ctlen ∧ s.memWrite 0x00024 4 v = ({ s with ctlen := v }, .written))) ∧
  (∀ (r : FReg) (i : Nat),
    (ScriptLoc.f r).addr = 0x00100 + 0x40 * r.val ∧ (ScriptLoc.store .coef i).addr = 0x01000 + 0x40 * i ∧
    (ScriptLoc.store .shx i).addr = 0x05000 + 0x40 * i ∧ (ScriptLoc.store .shy i).addr = 0x09000 + 0x40 * i) ∧
  Buffer.base .pw = 0x10000 ∧ Buffer.base .lbl = 0x20000 ∧ Buffer.base .dat = 0x30000 ∧ Buffer.base .ct = 0x40000 ∧
  ∀ s : State, (∀ r, s.valueAt (.f r) = s.f[r]) ∧ ∀ i, s.valueAt (.store .coef i) = Memory.read s.coef i ∧
    s.valueAt (.store .shx i) = Memory.read s.shx i ∧ s.valueAt (.store .shy i) = Memory.read s.shy i

end ObligationStatements
end

