-- ==== Sys2Proof/Laws/Aes.lean ====
section
/-! SUPPORT. The reference cipher meets the one law R8 asks of `ENC` and `DEC`: deciphering undoes enciphering. -/

namespace Sys2Proof.Machine

theorem blockAt_blockOf (g : Nat → Byte) {i : Nat} (h : i < 16) : blockAt (blockOf g) i = g i := by
  simp [blockAt, blockOf, List.Vector.toList, h]

/-- Two blocks with the same bytes are the same. -/
theorem block_ext {a b : Bytes 16} (h : ∀ i, i < 16 → blockAt a i = blockAt b i) : a = b := by
  obtain ⟨l, hl⟩ := a
  obtain ⟨m, hm⟩ := b
  refine Subtype.ext (List.ext_getElem (hl.trans hm.symm) fun i h1 h2 => ?_)
  have := h i (hl ▸ h1)
  simpa [blockAt, List.Vector.toList, h1, h2] using this

theorem addRoundKey_twice (k b : Bytes 16) : addRoundKey k (addRoundKey k b) = b :=
  block_ext fun i h => by
    simp only [addRoundKey, blockAt_blockOf _ h, BitVec.xor_assoc, BitVec.xor_self, BitVec.xor_zero]

theorem invSubByte_subByte : ∀ x : Byte, invSubByte (subByte x) = x := by decide +kernel

theorem invSubBytes_subBytes (b : Bytes 16) : invSubBytes (subBytes b) = b :=
  block_ext fun i h => by simp only [invSubBytes, subBytes, blockAt_blockOf _ h, invSubByte_subByte]

theorem shift_index : ∀ i < 16, ((i + 12 * (i % 4)) % 16 + 4 * (((i + 12 * (i % 4)) % 16) % 4)) % 16 = i := by decide

theorem invShiftRows_shiftRows (b : Bytes 16) : invShiftRows (shiftRows b) = b :=
  block_ext fun i h => by
    rw [invShiftRows, blockAt_blockOf _ h, shiftRows, blockAt_blockOf _ (Nat.mod_lt _ (by decide)), shift_index i h]

theorem xtime_xor (x y : Byte) : xtime (x ^^^ y) = xtime x ^^^ xtime y := by
  have h1 : (x ^^^ y) <<< 1 = (x <<< 1) ^^^ (y <<< 1) := BitVec.shiftLeft_xor_distrib x y 1
  simp only [xtime, h1, BitVec.msb_xor]
  generalize x <<< 1 = u, y <<< 1 = v
  cases x.msb <;> cases y.msb <;> simp [BitVec.xor_assoc] <;> ac_rfl

theorem gfMul_xor (k : BitVec 4) (x y : Byte) : gfMul k (x ^^^ y) = gfMul k x ^^^ gfMul k y := by
  have h : ∀ (c : Bool) (a b : Byte), (if c then a ^^^ b else 0) = (if c then a else 0) ^^^ (if c then b else 0) := by
    intro c a b; cases c <;> simp
  simp only [gfMul, xtime_xor, h]
  ac_rfl

theorem mix_self : ∀ x : Byte, gfMul 14 (gfMul 2 x) ^^^ gfMul 11 (gfMul 1 x) ^^^ gfMul 13 (gfMul 1 x) ^^^
    gfMul 9 (gfMul 3 x) = x := by decide +kernel

theorem mix_next : ∀ x : Byte, gfMul 14 (gfMul 3 x) ^^^ gfMul 11 (gfMul 2 x) ^^^ gfMul 13 (gfMul 1 x) ^^^
    gfMul 9 (gfMul 1 x) = 0 := by decide +kernel

theorem mix_opposite : ∀ x : Byte, gfMul 14 (gfMul 1 x) ^^^ gfMul 11 (gfMul 3 x) ^^^ gfMul 13 (gfMul 2 x) ^^^
    gfMul 9 (gfMul 1 x) = 0 := by decide +kernel

theorem mix_previous : ∀ x : Byte, gfMul 14 (gfMul 1 x) ^^^ gfMul 11 (gfMul 1 x) ^^^ gfMul 13 (gfMul 3 x) ^^^
    gfMul 9 (gfMul 2 x) = 0 := by decide +kernel

/-- The two circulant matrices are inverse to each other, on one column. -/
theorem mix_column (a b c d : Byte) :
    gfMul 14 (gfMul 2 a ^^^ gfMul 3 b ^^^ gfMul 1 c ^^^ gfMul 1 d) ^^^
      gfMul 11 (gfMul 2 b ^^^ gfMul 3 c ^^^ gfMul 1 d ^^^ gfMul 1 a) ^^^
      gfMul 13 (gfMul 2 c ^^^ gfMul 3 d ^^^ gfMul 1 a ^^^ gfMul 1 b) ^^^
      gfMul 9 (gfMul 2 d ^^^ gfMul 3 a ^^^ gfMul 1 b ^^^ gfMul 1 c) = a := by
  have h : gfMul 14 (gfMul 2 a ^^^ gfMul 3 b ^^^ gfMul 1 c ^^^ gfMul 1 d) ^^^
      gfMul 11 (gfMul 2 b ^^^ gfMul 3 c ^^^ gfMul 1 d ^^^ gfMul 1 a) ^^^
      gfMul 13 (gfMul 2 c ^^^ gfMul 3 d ^^^ gfMul 1 a ^^^ gfMul 1 b) ^^^
      gfMul 9 (gfMul 2 d ^^^ gfMul 3 a ^^^ gfMul 1 b ^^^ gfMul 1 c) =
      (gfMul 14 (gfMul 2 a) ^^^ gfMul 11 (gfMul 1 a) ^^^ gfMul 13 (gfMul 1 a) ^^^ gfMul 9 (gfMul 3 a)) ^^^
      (gfMul 14 (gfMul 3 b) ^^^ gfMul 11 (gfMul 2 b) ^^^ gfMul 13 (gfMul 1 b) ^^^ gfMul 9 (gfMul 1 b)) ^^^
      (gfMul 14 (gfMul 1 c) ^^^ gfMul 11 (gfMul 3 c) ^^^ gfMul 13 (gfMul 2 c) ^^^ gfMul 9 (gfMul 1 c)) ^^^
      (gfMul 14 (gfMul 1 d) ^^^ gfMul 11 (gfMul 1 d) ^^^ gfMul 13 (gfMul 3 d) ^^^ gfMul 9 (gfMul 2 d)) := by
    simp only [gfMul_xor]
    ac_rfl
  rw [h, mix_self, mix_next, mix_opposite, mix_previous]
  simp

theorem invMixColumns_mixColumns (b : Bytes 16) : invMixColumns (mixColumns b) = b :=
  block_ext fun i h => by
    have hq : i / 4 < 4 := by omega
    have row : ∀ r, r < 4 → blockAt (mixColumns b) (4 * (i / 4) + r) =
        gfMul 2 (blockAt b (4 * (i / 4) + r)) ^^^ gfMul 3 (blockAt b (4 * (i / 4) + (r + 1) % 4)) ^^^
          gfMul 1 (blockAt b (4 * (i / 4) + (r + 2) % 4)) ^^^ gfMul 1 (blockAt b (4 * (i / 4) + (r + 3) % 4)) := by
      intro r hr
      have h1 : (4 * (i / 4) + r) / 4 = i / 4 := by omega
      have h2 : ∀ n, (4 * (i / 4) + r + n) % 4 = (r + n) % 4 := by omega
      rw [mixColumns, mixWith, blockAt_blockOf _ (by omega)]
      simp only [h1, h2]
      rw [show (4 * (i / 4) + r) % 4 = r by omega]
    rw [invMixColumns, mixWith, blockAt_blockOf _ h]
    simp only []
    rw [row _ (Nat.mod_lt _ (by decide)), row _ (Nat.mod_lt _ (by decide)), row _ (Nat.mod_lt _ (by decide)),
      row _ (Nat.mod_lt _ (by decide))]
    have hi : 4 * (i / 4) + i % 4 = i := by omega
    have hr : i % 4 = 0 ∨ i % 4 = 1 ∨ i % 4 = 2 ∨ i % 4 = 3 := by omega
    have hn : ∀ n, (i + n) % 4 = (i % 4 + n) % 4 := fun n => by omega
    simp only [hn]
    rcases hr with hr | hr | hr | hr <;> rw [hr] at hi ⊢ <;> norm_num only <;> rw [mix_column] <;> rw [hi]

theorem aesInvRound_aesRound (b k : Bytes 16) : aesInvRound (aesRound b k) k = b := by
  simp only [aesInvRound, aesRound, addRoundKey_twice, invMixColumns_mixColumns, invShiftRows_shiftRows,
    invSubBytes_subBytes]

theorem aesRounds_undone (ks : List (Bytes 16)) (rs : List Nat) (b : Bytes 16) :
    rs.foldr (fun r s => aesInvRound s (keyAt ks (r + 1))) (rs.foldl (fun s r => aesRound s (keyAt ks (r + 1))) b) =
      b := by
  induction rs generalizing b with
  | nil => rfl
  | cons r rs ih => rw [List.foldl_cons, List.foldr_cons, ih, aesInvRound_aesRound]

/-- `DEC(k, ENC(k, b)) = b` for the reference cipher (R8). -/
theorem aesDec_aesEnc (k : Bytes 32) (b : Bytes 16) : aesDec k (aesEnc k b) = b := by
  simp only [aesDec, aesEnc, addRoundKey_twice, invShiftRows_shiftRows, invSubBytes_subBytes, aesRounds_undone]

end Sys2Proof.Machine
end

