-- ==== Sys2Proof/Laws/Arith.lean ====
section
/-! SUPPORT. What the arithmetic of the units computes: the power loop is the power (R110), results are canonical
(R103 (a)), and the four functions, Horner and Lagrange read in the ring of residues. -/

namespace Sys2Proof.Machine

theorem powModLoop_eq (m fuel b e acc : Nat) (h : e < 2 ^ fuel) :
    powModLoop m fuel b e acc % m = acc * b ^ e % m := by
  induction fuel generalizing b e acc with
  | zero => simp [powModLoop, show e = 0 by simpa using h]
  | succ k ih =>
    have hk : e / 2 < 2 ^ k := by rw [Nat.pow_succ] at h; omega
    rw [powModLoop, ih _ _ _ hk]
    have hsq : ∀ n, (b * b % m) ^ n ≡ b ^ (2 * n) [MOD m] := fun n => by
      rw [pow_mul, pow_two]; exact (Nat.mod_modEq _ _).pow n
    by_cases ho : e % 2 = 1
    · have he : e = 2 * (e / 2) + 1 := by omega
      rw [if_pos ho]
      refine ((Nat.mod_modEq _ _).mul (hsq _)).trans ?_
      conv_rhs => rw [he, pow_succ]
      rw [mul_assoc, mul_comm b]
    · have he : e = 2 * (e / 2) := by omega
      rw [if_neg ho]
      conv_rhs => rw [he]
      exact (Nat.ModEq.refl _).mul (hsq _)

theorem powModLoop_lt (m fuel b e acc : Nat) (hm : 0 < m) (h : acc < m) : powModLoop m fuel b e acc < m := by
  induction fuel generalizing b e acc with
  | zero => exact h
  | succ k ih =>
    refine ih _ _ _ ?_
    split
    · exact Nat.mod_lt _ hm
    · exact h

/-- `powMod` is the mathematical power reduced (R102, R110). -/
theorem powMod_eq (b e m : Nat) (hm : 0 < m) : powMod b e m = b ^ e % m := by
  have h := powModLoop_eq m (e.log2 + 1) (b % m) e (1 % m) Nat.lt_log2_self
  rw [Nat.mod_eq_of_lt (powModLoop_lt _ _ _ _ _ hm (Nat.mod_lt _ hm))] at h
  rw [powMod, h]
  exact ((Nat.mod_modEq 1 m).mul ((Nat.mod_modEq b m).pow e)).trans (by rw [one_mul])

theorem fadd_lt {p : Nat} (hp : 0 < p) (a b : Nat) : fadd p a b < p := Nat.mod_lt _ hp

theorem fmul_lt {p : Nat} (hp : 0 < p) (a b : Nat) : fmul p a b < p := Nat.mod_lt _ hp

theorem fsub_lt {p : Nat} (hp : 0 < p) (a b : Nat) : fsub p a b < p := by
  have h := Int.emod_lt_of_pos ((a : Int) - b) (show (0 : Int) < p by exact_mod_cast hp)
  have h0 := Int.emod_nonneg ((a : Int) - b) (show (p : Int) ≠ 0 by omega)
  unfold fsub
  omega

theorem finv_lt {p : Nat} (hp : 0 < p) {a v : Nat} (h : finv p a = some v) : v < p := by
  unfold finv at h
  split at h
  · cases h
  · cases h; rw [powMod_eq _ _ _ hp]; exact Nat.mod_lt _ hp

theorem adderUnit_lt {p : Nat} (hp : 0 < p) (a b : Nat) (sub : Bool) : adderUnit p a b sub < p := by
  cases sub
  · exact fadd_lt hp a b
  · exact fsub_lt hp a b

theorem multiplierUnit_lt {p : Nat} (hp : 0 < p) (a b : Nat) : multiplierUnit p a b < p := fmul_lt hp a b

/-! The four functions in the ring of residues. -/

section Residues
variable {p : Nat}

@[simp] theorem cast_fadd (a b : Nat) : ((fadd p a b : Nat) : ZMod p) = a + b := by simp [fadd]

@[simp] theorem cast_fmul (a b : Nat) : ((fmul p a b : Nat) : ZMod p) = a * b := by simp [fmul]

@[simp] theorem cast_fsub [NeZero p] (a b : Nat) : ((fsub p a b : Nat) : ZMod p) = a - b := by
  have h0 := Int.emod_nonneg ((a : Int) - b) (show (p : Int) ≠ 0 by exact_mod_cast NeZero.ne p)
  have h : ((fsub p a b : Nat) : Int) = ((a : Int) - b) % p := by unfold fsub; omega
  have h2 : (((fsub p a b : Nat) : Int) : ZMod p) = (((a : Int) - b : Int) : ZMod p) := by
    rw [h]; simp
  simpa using h2

@[simp] theorem cast_adderUnit_add (a b : Nat) : ((adderUnit p a b false : Nat) : ZMod p) = a + b := cast_fadd a b

@[simp] theorem cast_adderUnit_sub [NeZero p] (a b : Nat) : ((adderUnit p a b true : Nat) : ZMod p) = a - b :=
  cast_fsub a b

@[simp] theorem cast_multiplierUnit (a b : Nat) : ((multiplierUnit p a b : Nat) : ZMod p) = a * b := cast_fmul a b

theorem residue_eq_zero (a : Nat) : a % p = 0 ↔ (a : ZMod p) = 0 := by
  rw [ZMod.natCast_eq_zero_iff, Nat.dvd_iff_mod_eq_zero]

/-- For a prime modulus the inverse unit raises exactly on a zero residue, and otherwise inverts (R109). -/
theorem finv_cases [Fact p.Prime] (a : Nat) :
    ((a : ZMod p) = 0 ∧ finv p a = none) ∨
      ((a : ZMod p) ≠ 0 ∧ ∃ v, finv p a = some v ∧ (v : ZMod p) = (a : ZMod p)⁻¹) := by
  have hp : p.Prime := Fact.out
  by_cases h : (a : ZMod p) = 0
  · exact .inl ⟨h, by rw [finv, if_pos ((residue_eq_zero a).2 h)]⟩
  · refine .inr ⟨h, _, by rw [finv, if_neg (mt (residue_eq_zero a).1 h)], ?_⟩
    rw [powMod_eq _ _ _ hp.pos]
    have h1 : (a : ZMod p) ^ (p - 2) * a = 1 := by
      rw [← pow_succ, show p - 2 + 1 = p - 1 by have := hp.two_le; omega]
      exact ZMod.pow_card_sub_one_eq_one h
    have h2 : (((a ^ (p - 2) % p : Nat)) : ZMod p) = (a : ZMod p) ^ (p - 2) := by simp
    rw [h2]
    exact eq_inv_of_mul_eq_one_left h1

end Residues

/-! Horner's method (R121). -/

theorem horner_lt {p : Nat} (hp : 0 < p) (c : List Nat) (x : Nat) : horner p c x < p := by
  match c with
  | [] => exact hp
  | [c] => exact Nat.mod_lt _ hp
  | c :: d :: cs => exact adderUnit_lt hp _ _ _

/-- `Horner(c, x)` is the polynomial's value in the ring of residues. -/
theorem cast_horner {p : Nat} (c : List Nat) (x : Nat) :
    ((horner p c x : Nat) : ZMod p) = c.foldr (fun (a : Nat) (acc : ZMod p) => (a : ZMod p) + acc * x) 0 := by
  match c with
  | [] => simp [horner]
  | [c] => simp [horner]
  | c :: d :: cs =>
    have ih := cast_horner (p := p) (d :: cs) x
    simp only [horner, cast_adderUnit_add, cast_multiplierUnit, ih, List.foldr_cons]
    ring

end Sys2Proof.Machine
end

