-- ==== Sys2Proof/Laws/Memory.lean ====
section
/-! SUPPORT. The laws of the indexed storage: read after write, writes elsewhere, the canonical form kept by every
operation, and equal contents are equal data. -/

namespace Sys2Proof.Machine.Memory

variable {w : Nat}

@[simp] theorem read_empty (a : Nat) : read (empty : Memory w) a = unlisted w := rfl

@[simp] theorem read_nil (a : Nat) : read ([] : Memory w) a = unlisted w := rfl

theorem read_cons (k : Nat) (v : BitVec w) (m : Memory w) (a : Nat) :
    read ((k, v) :: m) a = if k = a then v else read m a := rfl

theorem read_of_lt {m : Memory w} {a : Nat} (h : ∀ c ∈ m, a < c.1) : read m a = unlisted w := by
  induction m with
  | nil => rfl
  | cons c m ih =>
    obtain ⟨k, v⟩ := c
    have hk : a < k := h (k, v) (by simp)
    rw [read_cons, if_neg (by omega)]
    exact ih fun c hc => h c (by simp [hc])

/-- A read sees the latest write to its index and no other (R60). -/
theorem read_write (m : Memory w) (hm : m.wf) (a b : Nat) (v : BitVec w) :
    read (write m a v) b = if b = a then v else read m b := by
  induction m with
  | nil =>
    unfold write
    by_cases hv : v = unlisted w
    · simp [hv]
    · rw [if_neg hv, read_cons]
      simp [eq_comm]
  | cons c m ih =>
    obtain ⟨k, u⟩ := c
    obtain ⟨hp, hv⟩ := hm
    rw [List.pairwise_cons] at hp
    have hm' : wf m := ⟨hp.2, fun c hc => hv c (by simp [hc])⟩
    have hlow : ∀ c ∈ m, k < c.1 := fun c hc => hp.1 c hc
    unfold write
    by_cases h1 : a < k
    · rw [if_pos h1]
      have hr : read ((k, u) :: m) a = unlisted w := read_of_lt (by
        intro c hc
        rcases List.mem_cons.1 hc with rfl | hc
        · exact h1
        · have := hlow c hc; omega)
      by_cases hv0 : v = unlisted w
      · rw [if_pos hv0]
        split
        · next hb => rw [hb, hr, hv0]
        · rfl
      · rw [if_neg hv0, read_cons]
        simp [eq_comm]
    · rw [if_neg h1]
      by_cases h2 : a = k
      · subst h2
        rw [if_pos rfl]
        have hr : read m a = unlisted w := read_of_lt hlow
        by_cases hv0 : v = unlisted w
        · rw [if_pos hv0]
          split
          · next hb => rw [hb, hr, hv0]
          · next hb => rw [read_cons, if_neg (Ne.symm hb)]
        · rw [if_neg hv0, read_cons, read_cons]
          split
          · next hb => rw [if_pos hb.symm]
          · next hb => rw [if_neg (Ne.symm hb)]
      · rw [if_neg h2, read_cons, read_cons, ih hm']
        by_cases hb : b = a
        · rw [if_pos hb, if_neg (by omega), if_pos hb]
        · rw [if_neg hb, if_neg hb]

theorem read_write_same (m : Memory w) (hm : m.wf) (a : Nat) (v : BitVec w) : read (write m a v) a = v := by
  rw [read_write m hm, if_pos rfl]

theorem read_write_other (m : Memory w) (hm : m.wf) {a b : Nat} (v : BitVec w) (h : b ≠ a) :
    read (write m a v) b = read m b := by
  rw [read_write m hm, if_neg h]

/-- Whatever a write lists was listed before or is the index written. -/
theorem mem_write {m : Memory w} {a : Nat} {v : BitVec w} {c : Nat × BitVec w} (h : c ∈ write m a v) :
    c ∈ m ∨ (c = (a, v) ∧ v ≠ unlisted w) := by
  induction m with
  | nil =>
    unfold write at h
    split at h
    · cases h
    · next hv => exact .inr ⟨by simpa using h, hv⟩
  | cons d m ih =>
    obtain ⟨k, u⟩ := d
    unfold write at h
    split at h
    · split at h
      · exact .inl h
      · next hv =>
        rcases List.mem_cons.1 h with h | h
        · exact .inr ⟨h, hv⟩
        · exact .inl h
    · split at h
      · split at h
        · exact .inl (List.mem_cons_of_mem _ h)
        · next hv =>
          rcases List.mem_cons.1 h with h | h
          · exact .inr ⟨h, hv⟩
          · exact .inl (List.mem_cons_of_mem _ h)
      · rcases List.mem_cons.1 h with h | h
        · exact .inl (h ▸ List.mem_cons_self)
        · exact (ih h).imp_left (List.mem_cons_of_mem _)

/-- A write keeps the canonical form. -/
theorem write_wf {m : Memory w} (hm : m.wf) (a : Nat) (v : BitVec w) : (write m a v).wf := by
  refine ⟨?_, fun c hc => ?_⟩
  · induction m with
    | nil => unfold write; split <;> simp
    | cons d m ih =>
      obtain ⟨k, u⟩ := d
      obtain ⟨hp, hv⟩ := hm
      rw [List.pairwise_cons] at hp
      have hm' : wf m := ⟨hp.2, fun c hc => hv c (by simp [hc])⟩
      unfold write
      by_cases h1 : a < k
      · rw [if_pos h1]
        split
        · exact List.pairwise_cons.2 hp
        · refine List.pairwise_cons.2 ⟨fun c hc => ?_, List.pairwise_cons.2 hp⟩
          rcases List.mem_cons.1 hc with rfl | hc
          · exact h1
          · have := hp.1 c hc; simp only at *; omega
      · rw [if_neg h1]
        by_cases h2 : a = k
        · subst h2
          rw [if_pos rfl]
          split
          · exact hp.2
          · exact List.pairwise_cons.2 hp
        · rw [if_neg h2]
          refine List.pairwise_cons.2 ⟨fun c hc => ?_, ih hm'⟩
          rcases mem_write hc with hc | ⟨rfl, -⟩
          · exact hp.1 c hc
          · simp only; omega
  · rcases mem_write hc with hc | ⟨rfl, hv⟩
    · exact hm.2 c hc
    · exact hv

theorem empty_wf : (empty : Memory w).wf := ⟨List.Pairwise.nil, fun _ h => by cases h⟩

/-- Several writes keep the canonical form. -/
theorem writeList_wf {m : Memory w} (hm : m.wf) (a : Nat) (vs : List (BitVec w)) : (writeList m a vs).wf := by
  induction vs generalizing m a with
  | nil => exact hm
  | cons v vs ih => exact ih (write_wf hm a v) (a + 1)

/-- A read after writing `vs` at `a`: the value written there, or what was there. -/
theorem read_writeList (m : Memory w) (hm : m.wf) (a b : Nat) (vs : List (BitVec w)) :
    read (writeList m a vs) b = if a ≤ b ∧ b < a + vs.length then vs.getD (b - a) (unlisted w) else read m b := by
  induction vs generalizing m a with
  | nil => rw [if_neg (by simp)]; rfl
  | cons v vs ih =>
    rw [writeList, ih _ (write_wf hm a v), List.length_cons]
    by_cases h : a + 1 ≤ b ∧ b < a + 1 + vs.length
    · rw [if_pos h, if_pos (by omega), show b - a = b - (a + 1) + 1 by omega, List.getD_cons_succ]
    · rw [if_neg h, read_write m hm]
      by_cases hb : b = a
      · subst hb; simp
      · rw [if_neg hb, if_neg (by omega)]

theorem read_writeList_in (m : Memory w) (hm : m.wf) (a : Nat) (vs : List (BitVec w)) {i : Nat} (h : i < vs.length) :
    read (writeList m a vs) (a + i) = vs[i] := by
  rw [read_writeList m hm, if_pos (by omega), Nat.add_sub_cancel_left, List.getD_eq_getElem _ _ h]

theorem read_writeList_out (m : Memory w) (hm : m.wf) (a b : Nat) (vs : List (BitVec w))
    (h : b < a ∨ a + vs.length ≤ b) : read (writeList m a vs) b = read m b := by
  rw [read_writeList m hm, if_neg (by omega)]

theorem within_empty (p : Nat → Bool) : (empty : Memory w).within p := fun _ h => by cases h

theorem write_within {m : Memory w} {p : Nat → Bool} (hm : m.within p) {a : Nat} (ha : p a = true) (v : BitVec w) :
    (write m a v).within p := fun c hc => by
  rcases mem_write hc with hc | ⟨rfl, -⟩
  · exact hm c hc
  · exact ha

theorem writeList_within {m : Memory w} {p : Nat → Bool} (hm : m.within p) {a : Nat} (vs : List (BitVec w))
    (ha : ∀ i, i < vs.length → p (a + i) = true) : (writeList m a vs).within p := by
  induction vs generalizing m a with
  | nil => exact hm
  | cons v vs ih =>
    refine ih (write_within hm (by simpa using ha 0 (by simp)) v) fun i hi => ?_
    have := ha (i + 1) (by simpa using hi)
    rwa [Nat.add_assoc, Nat.add_comm 1 i]

@[simp] theorem length_readList (m : Memory w) (a n : Nat) : (readList m a n).length = n := by simp [readList]

theorem getElem_readList (m : Memory w) (a n i : Nat) (h : i < (readList m a n).length) :
    (readList m a n)[i] = read m (a + i) := by simp [readList]

/-- Reading back the whole of what was written. -/
theorem readList_writeList_same (m : Memory w) (hm : m.wf) (a : Nat) (vs : List (BitVec w)) :
    readList (writeList m a vs) a vs.length = vs := by
  refine List.ext_getElem (by simp) fun i h1 h2 => ?_
  rw [getElem_readList, read_writeList_in m hm a vs h2]

/-- Reading a range that a write does not touch. -/
theorem readList_writeList_disjoint (m : Memory w) (hm : m.wf) (a b n : Nat) (vs : List (BitVec w))
    (h : b + n ≤ a ∨ a + vs.length ≤ b) : readList (writeList m a vs) b n = readList m b n := by
  refine List.ext_getElem (by simp) fun i h1 h2 => ?_
  rw [length_readList] at h1
  rw [getElem_readList, getElem_readList, read_writeList_out m hm _ _ _ (by omega)]

/-- Equal contents are equal data: two canonical memories that read the same everywhere are the same list. -/
theorem ext_of_read {m n : Memory w} (hm : m.wf) (hn : n.wf) (h : ∀ a, read m a = read n a) : m = n := by
  have nonempty_read : ∀ {k : Nat} {v : BitVec w} {m : Memory w}, wf ((k, v) :: m) →
      read ((k, v) :: m) k ≠ unlisted w := fun {k v m} hw => by
    rw [read_cons, if_pos rfl]; exact hw.2 (k, v) (by simp)
  induction m generalizing n with
  | nil =>
    cases n with
    | nil => rfl
    | cons d n => exact absurd (h d.1).symm (nonempty_read hn)
  | cons c m ih =>
    cases n with
    | nil => exact absurd (h c.1) (nonempty_read hm)
    | cons d n =>
      obtain ⟨k, v⟩ := c
      obtain ⟨l, u⟩ := d
      have hpm := List.pairwise_cons.1 hm.1
      have hpn := List.pairwise_cons.1 hn.1
      have below : ∀ {k : Nat} {v : BitVec w} {m : Memory w} {a : Nat}, wf ((k, v) :: m) → a < k →
          read ((k, v) :: m) a = unlisted w := fun {k v m a} hw ha => read_of_lt (by
        intro c hc
        rcases List.mem_cons.1 hc with rfl | hc
        · exact ha
        · have := (List.pairwise_cons.1 hw.1).1 c hc; simp only at *; omega)
      have hkl : k = l := by
        rcases lt_trichotomy k l with hlt | heq | hlt
        · exact absurd ((h k).trans (below hn hlt)) (nonempty_read hm)
        · exact heq
        · exact absurd ((h l).symm.trans (below hm hlt)) (nonempty_read hn)
      subst hkl
      have hvu : v = u := by have := h k; simpa [read_cons] using this
      subst hvu
      have hmm : wf m := ⟨hpm.2, fun c hc => hm.2 c (by simp [hc])⟩
      have hnn : wf n := ⟨hpn.2, fun c hc => hn.2 c (by simp [hc])⟩
      rw [ih hmm hnn fun a => ?_]
      by_cases ha : k = a
      · subst ha
        rw [read_of_lt hpm.1, read_of_lt hpn.1]
      · have := h a
        rwa [read_cons, read_cons, if_neg ha, if_neg ha] at this

end Sys2Proof.Machine.Memory
end

