-- ==== Sys2Proof/Laws/Bus.lean ====
section
/-! SUPPORT. The address map read both ways (R55): the address of a location, and that the map names exactly the
locations the block has. -/

namespace Sys2Proof.Machine

/-- The byte address of a location (R55). -/
def Loc.addr : Loc → Nat
  | .cmd          => 0x00000
  | .status       => 0x00004
  | .count r      => r.addr
  | .field r w    => fieldBase + 0x40 * r.val + 4 * w.val
  | .entry st i w => st.base + 0x40 * i + 4 * w.val
  | .bytes a      => a

/-- The location exists in a block with these parameters. -/
def Loc.Exists (c : Params) : Loc → Prop
  | .cmd | .status | .count _ | .field .. => True
  | .entry st i _ => i < st.count c
  | .bytes a      => bufferAddr c a = true

theorem slotOf_some {base count a i : Nat} {w : Fin 9} (h : slotOf base count a = some (i, w)) (h4 : a % 4 = 0)
    (hb : base % 4 = 0) : i < count ∧ a = base + 0x40 * i + 4 * w.val := by
  unfold slotOf at h
  split at h
  · next hr =>
    simp only at h
    split at h
    · simp only [Option.some.injEq, Prod.mk.injEq] at h
      obtain ⟨rfl, rfl⟩ := h
      simp only
      omega
    · simp at h
  · simp at h

theorem slotOf_addr {base count i : Nat} (w : Fin 9) (hi : i < count) :
    slotOf base count (base + 0x40 * i + 4 * w.val) = some (i, w) := by
  have hw := w.isLt
  unfold slotOf
  rw [if_pos (by omega)]
  have e1 : (base + 0x40 * i + 4 * w.val - base) % 0x40 / 4 = w.val := by omega
  have e2 : (base + 0x40 * i + 4 * w.val - base) / 0x40 = i := by omega
  simp only [e1, e2, hw, dite_true]

theorem slotOf_none {base count a : Nat} (h : a < base ∨ base + 0x40 * count ≤ a) : slotOf base count a = none := by
  unfold slotOf
  rw [if_neg (by omega)]

/-- A location the map names exists, and its address is the one asked for. -/
theorem locOf_some {c : Params} {a : Nat} {l : Loc} (h4 : a % 4 = 0) (h : locOf c a = some l) :
    l.addr = a ∧ l.Exists c := by
  unfold locOf at h
  split at h
  · next h0 => cases h; exact ⟨h0.symm, trivial⟩
  split at h
  · next h0 => cases h; exact ⟨h0.symm, trivial⟩
  split at h
  · next r hr =>
    cases h
    have := List.find?_some hr
    exact ⟨by simpa [Loc.addr] using this, trivial⟩
  simp only [Option.or_eq_some_iff] at h
  have hst : ∀ st : Store, locStore c st a = some l → l.addr = a ∧ l.Exists c := by
    intro st hs
    simp only [locStore, Option.map_eq_some_iff, Prod.exists] at hs
    obtain ⟨i, w, hs, rfl⟩ := hs
    have := slotOf_some hs h4 (by cases st <;> decide)
    exact ⟨this.2.symm, this.1⟩
  have hbf : ∀ b : Buffer, locBuffer c b a = some l → l.addr = a ∧ l.Exists c := by
    intro b hs
    unfold locBuffer at hs
    split at hs
    · next hr =>
      cases hs
      refine ⟨rfl, ?_⟩
      simp only [Loc.Exists, bufferAddr, List.any_eq_true]
      exact ⟨b, by cases b <;> simp, by simpa using hr⟩
    · simp at hs
  rcases h with (((((h | ⟨-, h⟩) | ⟨-, h⟩) | ⟨-, h⟩) | ⟨-, h⟩) | ⟨-, h⟩) | ⟨-, h | ⟨-, h⟩⟩
  · unfold locField at h
    split at h
    · next i w hs =>
      split at h
      · cases h
        exact ⟨(slotOf_some hs h4 (by decide)).2.symm, trivial⟩
      · simp at h
    · simp at h
  · exact hst _ h
  · exact hst _ h
  · exact hst _ h
  · exact hbf _ h
  · exact hbf _ h
  · exact hbf _ h
  · exact hbf _ h

theorem find_count {a : Nat} (h : 0x28 ≤ a ∨ a < 8) : (CountReg.all.find? fun r => r.addr == a) = none := by
  simp only [CountReg.all, CountReg.addr, List.find?_eq_none, List.mem_cons, List.not_mem_nil, or_false]
  rintro r (rfl | rfl | rfl | rfl | rfl | rfl | rfl | rfl) <;> simp <;> omega

theorem locField_none {a : Nat} (h : a < 0x100 ∨ 0x300 ≤ a) : locField a = none := by
  simp [locField, slotOf_none (base := fieldBase) (count := 8) (a := a) (by simp only [fieldBase]; omega)]

theorem locStore_none {c : Params} {st : Store} {a : Nat} (h : a < st.base ∨ st.base + 0x40 * st.count c ≤ a) :
    locStore c st a = none := by
  simp [locStore, slotOf_none h]

theorem locBuffer_none {c : Params} {b : Buffer} {a : Nat} (h : a < b.base ∨ b.base + c.bufMax ≤ a) :
    locBuffer c b a = none := by
  unfold locBuffer
  rw [if_neg (by omega)]

/-- Every location that exists is named by the map at its address. -/
theorem locOf_addr {c : Params} (hc : c.Legal) {l : Loc} (hl : l.Exists c) : locOf c l.addr = some l := by
  have h1 := hc.tMax_le
  have h2 := hc.nMax_le
  have h3 := hc.buf_le
  cases l with
  | cmd => rfl
  | status => rfl
  | count r => cases r <;> rfl
  | field r w =>
    have hr := r.isLt
    have hw := w.isLt
    unfold locOf
    rw [if_neg (by simp only [Loc.addr, fieldBase]; omega), if_neg (by simp only [Loc.addr, fieldBase]; omega),
      find_count (by simp only [Loc.addr, fieldBase]; omega)]
    have : locField (Loc.field r w).addr = some (.field r w) := by
      simp only [locField, Loc.addr, slotOf_addr w hr, hr, dite_true]
    simp [this]
  | entry st i w =>
    have hw := w.isLt
    unfold locOf
    have hi : i < st.count c := hl
    have hlo : 0x1000 ≤ st.base := by cases st <;> decide
    have hhi : st.base + 0x40 * i + 4 * w.val < 0xD000 := by
      cases st <;> simp only [Store.base, Store.count] at hi ⊢ <;> omega
    rw [if_neg (by simp only [Loc.addr]; omega), if_neg (by simp only [Loc.addr]; omega),
      find_count (by simp only [Loc.addr]; omega)]
    have hf : locField (Loc.entry st i w).addr = none := locField_none (by simp only [Loc.addr]; omega)
    have hs : locStore c st (Loc.entry st i w).addr = some (.entry st i w) := by
      simp [locStore, Loc.addr, slotOf_addr w hi]
    have ho : ∀ st' : Store, st'.base < st.base → locStore c st' (Loc.entry st i w).addr = none := by
      intro st' hlt
      refine locStore_none (.inr ?_)
      cases st <;> cases st' <;> simp only [Store.base, Store.count, Loc.addr] at * <;> omega
    cases st with
    | coef => simp [hf, hs]
    | shx => simp [hf, ho .coef (by decide), hs]
    | shy => simp [hf, ho .coef (by decide), ho .shx (by decide), hs]
  | bytes a =>
    simp only [Loc.Exists, bufferAddr, List.any_eq_true, decide_eq_true_eq] at hl
    obtain ⟨b, -, hb⟩ := hl
    have hlo : 0x10000 ≤ b.base := by cases b <;> decide
    unfold locOf
    rw [if_neg (by simp only [Loc.addr]; omega), if_neg (by simp only [Loc.addr]; omega),
      find_count (by simp only [Loc.addr]; omega)]
    have hf : locField (Loc.bytes a).addr = none := locField_none (by simp only [Loc.addr]; omega)
    have hs : ∀ st : Store, locStore c st (Loc.bytes a).addr = none := by
      intro st
      refine locStore_none (.inr ?_)
      cases st <;> simp only [Store.base, Store.count, Loc.addr] <;> omega
    have hbb : locBuffer c b (Loc.bytes a).addr = some (.bytes a) := by
      simp only [locBuffer, Loc.addr, hb, and_self, if_true]
    have ho : ∀ b' : Buffer, b'.base < b.base → locBuffer c b' (Loc.bytes a).addr = none := by
      intro b' hlt
      refine locBuffer_none (.inr ?_)
      cases b <;> cases b' <;> simp only [Buffer.base, Loc.addr] at * <;> omega
    cases b with
    | pw => simp [hf, hs, hbb]
    | lbl => simp [hf, hs, ho .pw (by decide), hbb]
    | dat => simp [hf, hs, ho .pw (by decide), ho .lbl (by decide), hbb]
    | ct => simp [hf, hs, ho .pw (by decide), ho .lbl (by decide), ho .dat (by decide), hbb]

/-- An access names a location exactly when it is a word access at the address of one that exists (R54, R57). -/
theorem accessLoc_eq_some {c : Params} (hc : c.Legal) {a size : Nat} {l : Loc} :
    accessLoc c a size = some l ↔ size = 4 ∧ a % 4 = 0 ∧ l.addr = a ∧ l.Exists c := by
  unfold accessLoc
  constructor
  · intro h
    split at h
    · next hr =>
      have := locOf_some hr.2 h
      exact ⟨hr.1, hr.2, this⟩
    · simp at h
  · rintro ⟨rfl, h4, rfl, hl⟩
    rw [if_pos ⟨rfl, h4⟩, locOf_addr hc hl]

/-- Addresses tell locations apart. -/
theorem Loc.addr_inj {c : Params} (hc : c.Legal) {l m : Loc} (hl : l.Exists c) (hm : m.Exists c)
    (h : l.addr = m.addr) : l = m := by
  have h1 := locOf_addr hc hl
  rw [h, locOf_addr hc hm] at h1
  exact (Option.some.inj h1).symm

/-! Word accesses to a 257-bit value (R56) and to four bytes (R59). -/

/-- The bits of a 257-bit value after a word of it was replaced. -/
theorem getLsbD_withWord (x : FieldWord) (w : Fin 9) (v : Word) (k : Nat) (hk : k < 257) :
    (withWord x w v).getLsbD k =
      if 32 * w.val ≤ k ∧ k < 32 * w.val + 32 then v.getLsbD (k - 32 * w.val) else x.getLsbD k := by
  have hmask : (0xFFFFFFFF : FieldWord) = BitVec.setWidth 257 (BitVec.allOnes 32) := by decide +kernel
  unfold withWord
  rw [hmask]
  simp only [BitVec.getLsbD_or, BitVec.getLsbD_and, BitVec.getLsbD_not, BitVec.getLsbD_shiftLeft,
    BitVec.getLsbD_setWidth, BitVec.getLsbD_allOnes]
  by_cases h1 : 32 * w.val ≤ k
  · have h2 : ¬ k < 32 * w.val := by omega
    have h3 : k - 32 * w.val < 257 := by omega
    by_cases h4 : k < 32 * w.val + 32
    · have h5 : k - 32 * w.val < 32 := by omega
      simp [hk, h1, h2, h3, h4, h5]
    · have h5 : 32 ≤ k - 32 * w.val := by omega
      simp [hk, h2, h3, h4, h5]
  · have h2 : k < 32 * w.val := by omega
    simp [hk, h1, h2]

theorem getLsbD_wordAt (x : FieldWord) (w : Fin 9) (k : Nat) (hk : k < 32) :
    (wordAt x w).getLsbD k = x.getLsbD (32 * w.val + k) := by
  simp [wordAt, hk]

theorem withWord_idem (x : FieldWord) (w : Fin 9) (v : Word) : withWord (withWord x w v) w v = withWord x w v := by
  apply BitVec.eq_of_getLsbD_eq
  intro k hk
  rw [getLsbD_withWord _ _ _ _ hk, getLsbD_withWord _ _ _ _ hk]
  split <;> rfl

/-- A word read after a word write of the same value: what was written, but for the dropped bits of word 8. -/
theorem wordAt_withWord (x : FieldWord) (w u : Fin 9) (v : Word) :
    wordAt (withWord x w v) u = if u = w then (if w.val = 8 then v &&& 1 else v) else wordAt x u := by
  apply BitVec.eq_of_getLsbD_eq
  intro k hk
  rw [getLsbD_wordAt _ _ _ hk]
  have hw := w.isLt
  have hu := u.isLt
  by_cases h257 : 32 * u.val + k < 257
  · rw [getLsbD_withWord _ _ _ _ h257]
    by_cases huw : u = w
    · subst huw
      rw [if_pos (by omega), if_pos rfl]
      by_cases h8 : u.val = 8
      · have : k = 0 := by omega
        subst this
        simp [h8]
      · simp [h8]
    · have hne : u.val ≠ w.val := fun e => huw (Fin.ext e)
      rw [if_neg (by omega), if_neg huw, getLsbD_wordAt _ _ _ hk]
  · have h8 : u.val = 8 := by omega
    have hk0 : k ≠ 0 := by omega
    rw [BitVec.getLsbD_of_ge _ _ (by omega)]
    by_cases huw : u = w
    · subst huw
      simp [h8, BitVec.getLsbD_and, hk0]
    · rw [if_neg huw, getLsbD_wordAt _ _ _ hk, BitVec.getLsbD_of_ge _ _ (by omega)]

theorem read_writeWord (m : Memory 8) (hm : m.wf) (a b : Nat) (v : Word) :
    Memory.read (writeWord m a v) b =
      if a ≤ b ∧ b < a + 4 then
        [v.extractLsb' 0 8, v.extractLsb' 8 8, v.extractLsb' 16 8, v.extractLsb' 24 8].getD (b - a) 0
      else Memory.read m b := by
  unfold writeWord
  rw [Memory.read_writeList _ hm]
  rfl

theorem readWord_writeWord_same (m : Memory 8) (hm : m.wf) (a : Nat) (v : Word) :
    readWord (writeWord m a v) a = v := by
  unfold readWord
  simp only [read_writeWord m hm]
  simp only [Nat.le_add_right, Nat.add_lt_add_iff_left, Nat.lt_add_right_iff_pos, Nat.reduceLT, and_self, if_true,
    Nat.add_sub_cancel_left, le_refl, Nat.sub_self, List.getD_cons_succ, List.getD_cons_zero]
  apply BitVec.eq_of_getLsbD_eq
  intro i hi
  simp only [BitVec.getLsbD_append, BitVec.getLsbD_extractLsb']
  by_cases h1 : i < 8
  · simp [h1]
  by_cases h2 : i < 16
  · have : i - 8 < 8 := by omega
    simp [h1, this]; congr 1; omega
  by_cases h3 : i < 24
  · have e1 : ¬ i - 8 < 8 := by omega
    have e2 : i - 8 - 8 < 8 := by omega
    simp [h1, e1, e2]; congr 1; omega
  · have e1 : ¬ i - 8 < 8 := by omega
    have e2 : ¬ i - 8 - 8 < 8 := by omega
    have e3 : i - 8 - 8 - 8 < 8 := by omega
    simp [h1, e1, e2, e3]; congr 1; omega

theorem writeWord_wf {m : Memory 8} (hm : m.wf) (a : Nat) (v : Word) : (writeWord m a v).wf :=
  Memory.writeList_wf hm _ _

end Sys2Proof.Machine
end

