-- ==== Sys2Proof/Laws/Bytes.lean ====
section
/-! SUPPORT. Byte strings cut into blocks and joined again (R152): lengths, and each operation undoing the other. -/

namespace Sys2Proof.Machine

@[simp] theorem length_blocksOf (m : List Byte) : (blocksOf m).length = m.length / 16 := by
  rw [blocksOf, List.length_map, List.length_range]

@[simp] theorem joinBlocks_nil : joinBlocks [] = [] := rfl

@[simp] theorem joinBlocks_cons (b : Bytes 16) (bs : List (Bytes 16)) :
    joinBlocks (b :: bs) = b.toList ++ joinBlocks bs := rfl

@[simp] theorem length_joinBlocks (bs : List (Bytes 16)) : (joinBlocks bs).length = 16 * bs.length := by
  induction bs with
  | nil => rfl
  | cons b bs ih =>
    rw [joinBlocks_cons, List.length_append, List.Vector.toList_length, ih, List.length_cons]
    omega

/-- Byte `j` of block `q`. -/
theorem getD_joinBlocks (bs : List (Bytes 16)) (q j : Nat) (hq : q < bs.length) (hj : j < 16) :
    (joinBlocks bs).getD (16 * q + j) 0 = (bs[q]).toList.getD j 0 := by
  induction bs generalizing q with
  | nil => simp at hq
  | cons b bs ih =>
    rw [joinBlocks_cons]
    cases q with
    | zero => rw [List.getD_append _ _ _ _ (by simpa using hj)]; simp
    | succ q =>
      rw [List.getD_append_right _ _ _ _ (by rw [List.Vector.toList_length]; omega), List.Vector.toList_length,
        show 16 * (q + 1) + j - 16 = 16 * q + j by omega]
      exact ih q (by simpa using hq)

/-- Block `q` of a byte string. -/
theorem toList_getElem_blocksOf (m : List Byte) (q : Nat) (hq : q < (blocksOf m).length) :
    ((blocksOf m)[q]).toList = (List.range 16).map fun j => m.getD (16 * q + j) 0 := by
  simp only [blocksOf, List.getElem_map, List.getElem_range]
  rfl

theorem blocksOf_joinBlocks (bs : List (Bytes 16)) : blocksOf (joinBlocks bs) = bs := by
  refine List.ext_getElem (by simp) fun q h1 h2 => ?_
  refine List.Vector.toList_injective ?_
  rw [toList_getElem_blocksOf]
  refine List.ext_getElem (by simp) fun j h3 h4 => ?_
  rw [List.Vector.toList_length] at h4
  rw [List.getElem_map, List.getElem_range, getD_joinBlocks _ _ _ h2 h4, List.getD_eq_getElem]

theorem joinBlocks_blocksOf (m : List Byte) (h : m.length % 16 = 0) : joinBlocks (blocksOf m) = m := by
  refine List.ext_getElem (by simp; omega) fun i h1 h2 => ?_
  have hq : i / 16 < (blocksOf m).length := by rw [length_blocksOf]; omega
  have := getD_joinBlocks (blocksOf m) (i / 16) (i % 16) hq (Nat.mod_lt _ (by omega))
  rw [toList_getElem_blocksOf, show 16 * (i / 16) + i % 16 = i by omega, List.getD_eq_getElem _ _ h1,
    List.getD_eq_getElem _ _ (by simp; omega), List.getElem_map, List.getElem_range,
    show 16 * (i / 16) + i % 16 = i by omega, List.getD_eq_getElem _ _ h2] at this
  exact this

end Sys2Proof.Machine
end

