-- ==== Sys2Proof/Laws/Draws.lean ====
section
/-! SUPPORT. What the draw loops answer (R122): a value taken, redraws run out, or an answer still to come. -/

namespace Sys2Proof.Machine

/-- The redraw loop after `r` redraws, on a value that was just drawn. -/
theorem redraw_ok_iff (bad : Nat → Bool) (limit : Option Nat) (stream rest : List Answer) (v r w : Nat)
    (hr : ∀ m, limit = some m → r ≤ m) :
    redraw bad limit v r stream = .ok w rest ↔
      (bad v = false ∧ w = v ∧ rest = stream) ∨
      (bad v = true ∧ ∃ (rejected : List Answer) (a : Answer), stream = rejected ++ a :: rest ∧ w = a.toNat ∧
        bad w = false ∧ (∀ b ∈ rejected, bad b.toNat = true) ∧ ∀ m, limit = some m → r + rejected.length + 1 ≤ m) := by
  induction stream generalizing v r with
  | nil =>
    cases hb : bad v
    · simp only [redraw, hb, Bool.not_false, if_true, Drawn.ok.injEq, true_and, Bool.false_eq_true, false_and, or_false]
      exact and_congr eq_comm eq_comm
    · by_cases hl : limit = some r <;> simp [redraw, hb, hl]
  | cons a t ih =>
    cases hb : bad v
    · simp only [redraw, hb, Bool.not_false, if_true, Drawn.ok.injEq, true_and, Bool.false_eq_true, false_and, or_false]
      exact and_congr eq_comm eq_comm
    · by_cases hl : limit = some r
      · simp only [redraw, hb, hl, Bool.not_true, Bool.false_eq_true, if_false, beq_self_eq_true, if_true]
        simp only [reduceCtorEq, false_iff, false_and, not_and, true_and, not_exists, false_or]
        intro _ x _ _ _ _ hm
        have := hm r rfl
        omega
      · have hr' : ∀ m, limit = some m → r + 1 ≤ m := fun m hm => by
          have h1 := hr m hm
          have h2 : m ≠ r := fun e => hl (e ▸ hm)
          omega
        have hl' : (limit == some r) = false := by simpa using hl
        simp only [redraw, hb, hl', Bool.not_true, Bool.false_eq_true, if_false]
        rw [ih a.toNat (r + 1) hr']
        simp only [reduceCtorEq, false_and, false_or, true_and]
        constructor
        · rintro (⟨h1, rfl, rfl⟩ | ⟨h1, rej, b, rfl, rfl, h2, h3, h4⟩)
          · exact ⟨[], a, rfl, rfl, h1, by simp, fun m hm => by simpa using hr' m hm⟩
          · exact ⟨a :: rej, b, rfl, rfl, h2, by simpa [h1] using h3, fun m hm => by
              have := h4 m hm; simp only [List.length_cons]; omega⟩
        · rintro ⟨rej, b, he, rfl, h2, h3, h4⟩
          cases rej with
          | nil =>
            simp only [List.nil_append, List.cons.injEq] at he
            obtain ⟨rfl, rfl⟩ := he
            exact .inl ⟨h2, rfl, rfl⟩
          | cons c rej =>
            simp only [List.cons_append, List.cons.injEq] at he
            obtain ⟨rfl, rfl⟩ := he
            refine .inr ⟨h3 _ (by simp), rej, b, rfl, rfl, h2, fun d hd => h3 d (by simp [hd]), fun m hm => ?_⟩
            have := h4 m hm
            simp only [List.length_cons] at this
            omega

/-- When the redraw loop runs out. -/
theorem redraw_exhausted_iff (bad : Nat → Bool) (limit : Option Nat) (stream rest : List Answer) (v r : Nat)
    (hr : ∀ m, limit = some m → r ≤ m) :
    redraw bad limit v r stream = .exhausted rest ↔
      bad v = true ∧ ∃ (rejected : List Answer) (m : Nat), limit = some m ∧ stream = rejected ++ rest ∧
        r + rejected.length = m ∧ ∀ b ∈ rejected, bad b.toNat = true := by
  induction stream generalizing v r with
  | nil =>
    cases hb : bad v
    · simp [redraw, hb]
    · by_cases hl : limit = some r
      · simp only [redraw, hb, hl, Bool.not_true, Bool.false_eq_true, if_false, beq_self_eq_true, if_true,
          Drawn.exhausted.injEq, true_and]
        constructor
        · rintro rfl
          exact ⟨[], r, rfl, rfl, rfl, by simp⟩
        · rintro ⟨rej, m, hm, he, -, -⟩
          simp only [List.nil_eq, List.append_eq_nil_iff] at he
          exact he.2.symm
      · simp only [redraw, hb, Bool.not_true, Bool.false_eq_true, if_false, beq_iff_eq, hl]
        simp only [reduceCtorEq, true_and, false_iff, not_exists, not_and]
        rintro rej m hm he rfl
        simp only [List.nil_eq, List.append_eq_nil_iff] at he
        simp [he.1] at hm
        exact absurd hm hl
  | cons a t ih =>
    cases hb : bad v
    · simp [redraw, hb]
    · by_cases hl : limit = some r
      · simp only [redraw, hb, hl, Bool.not_true, Bool.false_eq_true, if_false, beq_self_eq_true, if_true,
          Drawn.exhausted.injEq, true_and]
        constructor
        · rintro rfl
          exact ⟨[], r, rfl, rfl, rfl, by simp⟩
        · rintro ⟨rej, m, hm, he, hlen, -⟩
          cases hm
          have : rej = [] := List.eq_nil_of_length_eq_zero (by omega)
          simpa [this] using he
      · have hr' : ∀ m, limit = some m → r + 1 ≤ m := fun m hm => by
          have h1 := hr m hm
          have h2 : m ≠ r := fun e => hl (e ▸ hm)
          omega
        have hl' : (limit == some r) = false := by simpa using hl
        simp only [redraw, hb, hl', Bool.not_true, Bool.false_eq_true, if_false, true_and]
        rw [ih a.toNat (r + 1) hr']
        constructor
        · rintro ⟨h1, rej, m, hm, rfl, hlen, h3⟩
          exact ⟨a :: rej, m, hm, rfl, by simp only [List.length_cons]; omega, by simpa [h1] using h3⟩
        · rintro ⟨rej, m, hm, he, hlen, h3⟩
          cases rej with
          | nil => exact absurd (by simpa using hlen) (fun e : r = m => hl (e ▸ hm))
          | cons c rej =>
            simp only [List.cons_append, List.cons.injEq] at he
            obtain ⟨rfl, rfl⟩ := he
            exact ⟨h3 _ (by simp), rej, m, hm, rfl, by simp only [List.length_cons] at hlen; omega,
              fun d hd => h3 d (by simp [hd])⟩

/-- When the redraw loop must wait. -/
theorem redraw_waiting_iff (bad : Nat → Bool) (limit : Option Nat) (stream : List Answer) (v r : Nat)
    (hr : ∀ m, limit = some m → r ≤ m) :
    redraw bad limit v r stream = .waiting ↔
      bad v = true ∧ (∀ b ∈ stream, bad b.toNat = true) ∧ ∀ m, limit = some m → r + stream.length + 1 ≤ m := by
  induction stream generalizing v r with
  | nil =>
    cases hb : bad v
    · simp [redraw, hb]
    · by_cases hl : limit = some r
      · simp [redraw, hb, hl]
      · simp only [redraw, hb, Bool.not_true, Bool.false_eq_true, if_false, beq_iff_eq, hl]
        simp only [List.not_mem_nil, false_implies, implies_true, true_and, List.length_nil, Nat.add_zero, true_iff]
        intro m hm
        have h1 := hr m hm
        have h2 : m ≠ r := fun e => hl (e ▸ hm)
        omega
  | cons a t ih =>
    cases hb : bad v
    · simp [redraw, hb]
    · by_cases hl : limit = some r
      · simp only [redraw, hb, hl, Bool.not_true, Bool.false_eq_true, if_false, beq_self_eq_true, if_true]
        simp only [reduceCtorEq, true_and, false_iff, not_and, not_forall]
        intro _
        exact ⟨r, rfl, by simp only [List.length_cons]; omega⟩
      · have hr' : ∀ m, limit = some m → r + 1 ≤ m := fun m hm => by
          have h1 := hr m hm
          have h2 : m ≠ r := fun e => hl (e ▸ hm)
          omega
        have hl' : (limit == some r) = false := by simpa using hl
        simp only [redraw, hb, hl', Bool.not_true, Bool.false_eq_true, if_false, true_and]
        rw [ih a.toNat (r + 1) hr']
        simp only [List.mem_cons, forall_eq_or_imp, List.length_cons, and_assoc]
        refine and_congr_right fun _ => and_congr_right fun _ => forall_congr' fun m => ?_
        constructor <;> intro h hm <;> have := h hm <;> omega

/-- What one `DrawDistinct` answers, and what `DrawNonZero` on a fresh draw answers: the shared shape. -/
theorem drawRedraw_ok_iff (bad : Nat → Bool) (limit : Option Nat) (stream rest : List Answer) (v : Nat) :
    ((drawOne stream).bind fun first onward => redraw bad limit first 0 onward) = .ok v rest ↔
      Takes bad limit stream v rest := by
  cases stream with
  | nil => simp [drawOne, Drawn.bind, Takes]
  | cons a t =>
    simp only [drawOne, Drawn.bind]
    rw [redraw_ok_iff _ _ _ _ _ _ _ (by simp)]
    constructor
    · rintro (⟨h1, rfl, rfl⟩ | ⟨h1, rej, b, rfl, rfl, h2, h3, h4⟩)
      · exact ⟨[], a, rfl, rfl, h1, by simp, by simp⟩
      · exact ⟨a :: rej, b, rfl, rfl, h2, by simpa [h1] using h3, fun m hm => by
          have := h4 m hm; simp only [List.length_cons]; omega⟩
    · rintro ⟨rej, b, he, rfl, h2, h3, h4⟩
      cases rej with
      | nil =>
        simp only [List.nil_append, List.cons.injEq] at he
        obtain ⟨rfl, rfl⟩ := he
        exact .inl ⟨h2, rfl, rfl⟩
      | cons c rej =>
        simp only [List.cons_append, List.cons.injEq] at he
        obtain ⟨rfl, rfl⟩ := he
        exact .inr ⟨h3 _ (by simp), rej, b, rfl, rfl, h2, fun d hd => h3 d (by simp [hd]), fun m hm => by
          have := h4 m hm; simp only [List.length_cons] at this; omega⟩

theorem drawRedraw_exhausted_iff (bad : Nat → Bool) (limit : Option Nat) (stream rest : List Answer) :
    ((drawOne stream).bind fun first onward => redraw bad limit first 0 onward) = .exhausted rest ↔
      Exhausts bad limit stream rest := by
  cases stream with
  | nil =>
    simp only [drawOne, Drawn.bind, reduceCtorEq, false_iff]
    rintro ⟨rej, m, _, he, hl, _⟩
    simp only [List.nil_eq, List.append_eq_nil_iff] at he
    simp [he.1] at hl
  | cons a t =>
    simp only [drawOne, Drawn.bind]
    rw [redraw_exhausted_iff _ _ _ _ _ _ (by simp)]
    constructor
    · rintro ⟨h1, rej, m, hm, rfl, hl, h3⟩
      exact ⟨a :: rej, m, hm, rfl, by simp only [List.length_cons]; omega, by simpa [h1] using h3⟩
    · rintro ⟨rej, m, hm, he, hl, h3⟩
      cases rej with
      | nil => simp at hl
      | cons c rej =>
        simp only [List.cons_append, List.cons.injEq] at he
        obtain ⟨rfl, rfl⟩ := he
        exact ⟨h3 _ (by simp), rej, m, hm, rfl, by simp only [List.length_cons] at hl; omega,
          fun d hd => h3 d (by simp [hd])⟩

theorem drawRedraw_waiting_iff (bad : Nat → Bool) (limit : Option Nat) (stream : List Answer) :
    ((drawOne stream).bind fun first onward => redraw bad limit first 0 onward) = .waiting ↔
      Awaits bad limit stream := by
  cases stream with
  | nil => simp [drawOne, Drawn.bind, Awaits]
  | cons a t =>
    simp only [drawOne, Drawn.bind]
    rw [redraw_waiting_iff _ _ _ _ _ (by simp)]
    simp [Awaits, and_assoc]

theorem drawDistinct_ok_iff (limit : Option Nat) (chosen : List Nat) (stream rest : List Answer) (v : Nat) :
    drawDistinct limit chosen stream = .ok v rest ↔ Takes (fun w => chosen.contains w) limit stream v rest :=
  drawRedraw_ok_iff _ _ _ _ _

theorem drawDistinct_exhausted_iff (limit : Option Nat) (chosen : List Nat) (stream rest : List Answer) :
    drawDistinct limit chosen stream = .exhausted rest ↔ Exhausts (fun w => chosen.contains w) limit stream rest :=
  drawRedraw_exhausted_iff _ _ _ _

theorem drawDistinct_waiting_iff (limit : Option Nat) (chosen : List Nat) (stream : List Answer) :
    drawDistinct limit chosen stream = .waiting ↔ Awaits (fun w => chosen.contains w) limit stream :=
  drawRedraw_waiting_iff _ _ _

/-! Draws that are never redrawn. -/

/-- `k` draws answered, or fewer answers than `k` and a wait; never out of redraws. -/
theorem drawMany_eq (k : Nat) (stream : List Answer) :
    drawMany k stream =
      if k ≤ stream.length then .ok ((stream.take k).map BitVec.toNat) (stream.drop k) else .waiting := by
  induction k generalizing stream with
  | zero => simp [drawMany]
  | succ k ih =>
    cases stream with
    | nil => simp [drawMany, drawOne, Drawn.bind]
    | cons a t =>
      simp only [drawMany, drawOne, Drawn.bind, ih]
      by_cases h : k ≤ t.length <;> simp [h]

theorem drawMany_ok_iff (k : Nat) (stream rest : List Answer) (vs : List Nat) :
    drawMany k stream = .ok vs rest ↔
      ∃ taken : List Answer, stream = taken ++ rest ∧ taken.length = k ∧ vs = taken.map BitVec.toNat := by
  rw [drawMany_eq]
  constructor
  · intro h
    split at h
    · next hk =>
      simp only [Drawn.ok.injEq] at h
      exact ⟨stream.take k, by rw [← h.2, List.take_append_drop], by simpa using hk, h.1.symm⟩
    · simp at h
  · rintro ⟨tk, rfl, rfl, rfl⟩
    simp

/-! Construction (R123). -/

/-- `drawNonZero` on the last of `t - 1` fresh draws is the shared redraw shape on the stream from that draw on. -/
theorem construct_eq (limit : Option Nat) (secret t : Nat) (stream : List Answer) (ht : 2 ≤ t) :
    construct limit secret t stream =
      (drawMany (t - 2) stream).bind fun middle onward =>
        ((drawOne onward).bind fun first onward => redraw (fun v => v == 0) limit first 0 onward).bind fun top rest =>
          .ok (secret :: middle ++ [top]) rest := by
  simp only [construct, drawMany_eq]
  by_cases h : t - 1 ≤ stream.length
  · have h2 : t - 2 ≤ stream.length := by omega
    obtain ⟨a, rest, hd⟩ : ∃ a rest, stream.drop (t - 2) = a :: rest :=
      List.exists_cons_of_ne_nil (by simp only [ne_eq, List.drop_eq_nil_iff]; omega)
    have hd1 : stream.drop (t - 1) = rest := by
      rw [show t - 1 = (t - 2) + 1 by omega, ← List.drop_drop, hd]; rfl
    have ht1 : stream.take (t - 1) = stream.take (t - 2) ++ [a] := by
      have := congrArg (List.take 1) hd
      rw [show t - 1 = (t - 2) + 1 by omega, List.take_add, hd]
      rfl
    simp only [h, h2, if_true, Drawn.bind, hd, hd1, ht1, drawOne, List.map_append, List.map_cons, List.map_nil,
      List.getLast?_append, List.getLast?_singleton, Option.some_or, List.dropLast_concat, drawNonZero]
  · by_cases h2 : t - 2 ≤ stream.length
    · have hd : stream.drop (t - 2) = [] := by simp only [List.drop_eq_nil_iff]; omega
      simp [h, h2, Drawn.bind, hd, drawOne]
    · simp [h, h2, Drawn.bind]

theorem construct_one (limit : Option Nat) (secret : Nat) (stream : List Answer) :
    construct limit secret 1 stream = .ok [secret] stream := rfl

theorem construct_ok_iff (limit : Option Nat) (secret t : Nat) (stream rest : List Answer) (c : List Nat)
    (ht : 1 ≤ t) :
    construct limit secret t stream = .ok c rest ↔ TakesCoefs limit secret t stream c rest := by
  by_cases h1 : t = 1
  · subst h1
    simp only [construct_one, Drawn.ok.injEq, TakesCoefs, true_and, Nat.not_ofNat_le_one, false_and, or_false]
    exact and_congr eq_comm eq_comm
  · have h2 : 2 ≤ t := by omega
    rw [construct_eq _ _ _ _ h2]
    simp only [TakesCoefs, h1, false_and, false_or, h2, true_and]
    constructor
    · intro h
      cases hm : drawMany (t - 2) stream with
      | ok vs onward =>
        obtain ⟨mid, h3, h4, rfl⟩ := (drawMany_ok_iff _ _ _ _).mp hm
        simp only [hm, Drawn.bind] at h
        cases hr : (drawOne onward).bind (fun first onward => redraw (fun v => v == 0) limit first 0 onward) with
        | ok top r =>
          simp only [Drawn.bind] at hr
          simp only [hr, Drawn.ok.injEq] at h
          obtain ⟨rfl, rfl⟩ := h
          exact ⟨mid, onward, top, h3, h4, (drawRedraw_ok_iff _ _ _ _ _).mp hr, rfl⟩
        | exhausted r => simp only [Drawn.bind] at hr; simp [hr] at h
        | waiting => simp only [Drawn.bind] at hr; simp [hr] at h
      | exhausted r => simp [hm, Drawn.bind] at h
      | waiting => simp [hm, Drawn.bind] at h
    · rintro ⟨mid, onward, top, h3, h4, h5, rfl⟩
      rw [(drawMany_ok_iff _ _ onward (mid.map BitVec.toNat)).mpr ⟨mid, h3, h4, rfl⟩]
      simp only [Drawn.bind]
      have := (drawRedraw_ok_iff _ _ _ _ _).mpr h5
      simp only [Drawn.bind] at this
      simp [this]

theorem construct_exhausted_iff (limit : Option Nat) (secret t : Nat) (stream rest : List Answer) (ht : 1 ≤ t) :
    construct limit secret t stream = .exhausted rest ↔ ExhaustsCoefs limit t stream rest := by
  by_cases h1 : t = 1
  · subst h1
    simp [construct_one, ExhaustsCoefs]
  · have h2 : 2 ≤ t := by omega
    rw [construct_eq _ _ _ _ h2]
    simp only [ExhaustsCoefs, h2, true_and]
    constructor
    · intro h
      cases hm : drawMany (t - 2) stream with
      | ok vs onward =>
        obtain ⟨mid, h3, h4, rfl⟩ := (drawMany_ok_iff _ _ _ _).mp hm
        simp only [hm, Drawn.bind] at h
        cases hr : (drawOne onward).bind (fun first onward => redraw (fun v => v == 0) limit first 0 onward) with
        | ok top r => simp only [Drawn.bind] at hr; simp [hr] at h
        | exhausted r =>
          have hr' := hr
          simp only [Drawn.bind] at hr
          simp only [hr, Drawn.exhausted.injEq] at h
          subst h
          exact ⟨mid, onward, h3, h4, (drawRedraw_exhausted_iff _ _ _ _).mp hr'⟩
        | waiting => simp only [Drawn.bind] at hr; simp [hr] at h
      | exhausted r => simp [drawMany_eq] at hm; split at hm <;> simp at hm
      | waiting => simp [hm, Drawn.bind] at h
    · rintro ⟨mid, onward, h3, h4, h5⟩
      rw [(drawMany_ok_iff _ _ onward (mid.map BitVec.toNat)).mpr ⟨mid, h3, h4, rfl⟩]
      simp only [Drawn.bind]
      have := (drawRedraw_exhausted_iff _ _ _ _).mpr h5
      simp only [Drawn.bind] at this
      simp [this]

theorem construct_waiting_iff (limit : Option Nat) (secret t : Nat) (stream : List Answer) (ht : 1 ≤ t) :
    construct limit secret t stream = .waiting ↔ AwaitsCoefs limit t stream := by
  by_cases h1 : t = 1
  · subst h1
    simp [construct_one, AwaitsCoefs]
  · have h2 : 2 ≤ t := by omega
    rw [construct_eq _ _ _ _ h2]
    simp only [AwaitsCoefs, h2, true_and]
    by_cases hl : t - 2 ≤ stream.length
    · have hm := drawMany_eq (t - 2) stream
      simp only [hl, if_true] at hm
      rw [hm]
      have hsplit : (∃ middle onward : List Answer, stream = middle ++ onward ∧ middle.length = t - 2 ∧
          Awaits (fun v => v == 0) limit onward) ↔ Awaits (fun v => v == 0) limit (stream.drop (t - 2)) := by
        constructor
        · rintro ⟨mid, onward, rfl, h4, h5⟩
          simpa [← h4] using h5
        · exact fun h => ⟨_, _, (List.take_append_drop (t - 2) stream).symm, by simpa using hl, h⟩
      rw [hsplit, ← drawRedraw_waiting_iff]
      have : ¬ stream.length < t - 2 := by omega
      simp only [this, false_or, Drawn.bind]
      split <;> simp_all
    · have hm := drawMany_eq (t - 2) stream
      simp only [hl, if_false] at hm
      rw [hm]
      simp [Drawn.bind]
      omega

theorem TakesCoefs.length {limit : Option Nat} {secret t : Nat} {stream rest : List Answer} {c : List Nat}
    (h : TakesCoefs limit secret t stream c rest) : c.length = t := by
  obtain ⟨rfl, rfl, rfl⟩ | ⟨h2, mid, onward, top, -, h4, -, rfl⟩ := h
  · rfl
  · simp; omega

/-! Share coordinates (R128). -/

theorem drawShares_ok_iff (limit : Option Nat) (k : Nat) (chosen : List Nat) (stream rest : List Answer)
    (out : List Nat) :
    drawShares limit k chosen stream = .ok out rest ↔
      ∃ xs : List Nat, out = chosen ++ xs ∧ xs.length = k ∧ TakesShares limit chosen stream xs rest := by
  induction k generalizing chosen stream with
  | zero =>
    simp only [drawShares, Drawn.ok.injEq]
    constructor
    · rintro ⟨rfl, rfl⟩
      exact ⟨[], by simp, rfl, rfl⟩
    · rintro ⟨xs, rfl, h, h2⟩
      obtain rfl := List.eq_nil_of_length_eq_zero h
      exact ⟨by simp, h2⟩
  | succ k ih =>
    simp only [drawShares]
    constructor
    · intro h
      cases hd : drawDistinct limit chosen stream with
      | ok x mid =>
        simp only [hd, Drawn.bind] at h
        obtain ⟨xs, rfl, h2, h3⟩ := (ih _ _).mp h
        exact ⟨x :: xs, by simp, by simp [h2], mid, (drawDistinct_ok_iff _ _ _ _ _).mp hd, h3⟩
      | exhausted r => simp [hd, Drawn.bind] at h
      | waiting => simp [hd, Drawn.bind] at h
    · rintro ⟨xs, rfl, hl, h3⟩
      cases xs with
      | nil => simp at hl
      | cons x xs =>
        obtain ⟨mid, h4, h5⟩ := h3
        rw [(drawDistinct_ok_iff _ _ _ _ _).mpr h4]
        simp only [Drawn.bind]
        exact (ih _ _).mpr ⟨xs, by simp, by simpa using hl, h5⟩

theorem drawShares_exhausted_iff (limit : Option Nat) (k : Nat) (chosen : List Nat) (stream rest : List Answer) :
    drawShares limit k chosen stream = .exhausted rest ↔
      ∃ (xs : List Nat) (mid : List Answer), xs.length < k ∧ TakesShares limit chosen stream xs mid ∧
        Exhausts (fun w => (chosen ++ xs).contains w) limit mid rest := by
  induction k generalizing chosen stream with
  | zero => simp [drawShares]
  | succ k ih =>
    simp only [drawShares]
    constructor
    · intro h
      cases hd : drawDistinct limit chosen stream with
      | ok x mid =>
        simp only [hd, Drawn.bind] at h
        obtain ⟨xs, mid', h2, h3, h4⟩ := (ih _ _).mp h
        exact ⟨x :: xs, mid', by simpa using h2, ⟨mid, (drawDistinct_ok_iff _ _ _ _ _).mp hd, h3⟩, by simpa using h4⟩
      | exhausted r =>
        simp only [hd, Drawn.bind, Drawn.exhausted.injEq] at h
        subst h
        exact ⟨[], stream, by simp, rfl, by simpa using (drawDistinct_exhausted_iff _ _ _ _).mp hd⟩
      | waiting => simp [hd, Drawn.bind] at h
    · rintro ⟨xs, mid, hl, h3, h4⟩
      cases xs with
      | nil =>
        cases (show stream = mid from h3)
        rw [(drawDistinct_exhausted_iff _ _ _ rest).mpr (by simpa using h4)]
        rfl
      | cons x xs =>
        obtain ⟨mid', h5, h6⟩ := h3
        rw [(drawDistinct_ok_iff _ _ _ _ _).mpr h5]
        simp only [Drawn.bind]
        exact (ih _ _).mpr ⟨xs, mid, by simpa using hl, h6, by simpa using h4⟩

theorem drawShares_waiting_iff (limit : Option Nat) (k : Nat) (chosen : List Nat) (stream : List Answer) :
    drawShares limit k chosen stream = .waiting ↔
      ∃ (xs : List Nat) (mid : List Answer), xs.length < k ∧ TakesShares limit chosen stream xs mid ∧
        Awaits (fun w => (chosen ++ xs).contains w) limit mid := by
  induction k generalizing chosen stream with
  | zero => simp [drawShares]
  | succ k ih =>
    simp only [drawShares]
    constructor
    · intro h
      cases hd : drawDistinct limit chosen stream with
      | ok x mid =>
        simp only [hd, Drawn.bind] at h
        obtain ⟨xs, mid', h2, h3, h4⟩ := (ih _ _).mp h
        exact ⟨x :: xs, mid', by simpa using h2, ⟨mid, (drawDistinct_ok_iff _ _ _ _ _).mp hd, h3⟩, by simpa using h4⟩
      | exhausted r => simp [hd, Drawn.bind] at h
      | waiting =>
        exact ⟨[], stream, by simp, rfl, by simpa using (drawDistinct_waiting_iff _ _ _).mp hd⟩
    · rintro ⟨xs, mid, hl, h3, h4⟩
      cases xs with
      | nil =>
        cases (show stream = mid from h3)
        rw [(drawDistinct_waiting_iff _ _ _).mpr (by simpa using h4)]
        rfl
      | cons x xs =>
        obtain ⟨mid', h5, h6⟩ := h3
        rw [(drawDistinct_ok_iff _ _ _ _ _).mpr h5]
        simp only [Drawn.bind]
        exact (ih _ _).mpr ⟨xs, mid, by simpa using hl, h6, by simpa using h4⟩

/-- Coordinates taken are all different, from each other and from those chosen before, and below `2^256`. -/
theorem TakesShares.nodup {limit : Option Nat} {chosen : List Nat} {stream rest : List Answer} {xs : List Nat}
    (h : TakesShares limit chosen stream xs rest) (hc : chosen.Nodup) : (chosen ++ xs).Nodup := by
  induction xs generalizing chosen stream with
  | nil => simpa using hc
  | cons x xs ih =>
    obtain ⟨mid, ⟨rej, a, -, -, hbad, -, -⟩, h2⟩ := h
    have hx : x ∉ chosen := by simpa using hbad
    have hc2 : (chosen ++ [x]).Nodup := by
      rw [List.nodup_append]
      exact ⟨hc, by simp, by rintro b hb y hy rfl; simp at hy; exact hx (hy ▸ hb)⟩
    simpa using ih h2 hc2

theorem TakesShares.below {limit : Option Nat} {chosen : List Nat} {stream rest : List Answer} {xs : List Nat}
    (h : TakesShares limit chosen stream xs rest) : ∀ x ∈ xs, x < 2 ^ 256 := by
  induction xs generalizing chosen stream with
  | nil => simp
  | cons x xs ih =>
    obtain ⟨mid, ⟨rej, a, -, rfl, -⟩, h2⟩ := h
    simp only [List.mem_cons, forall_eq_or_imp]
    exact ⟨a.isLt, ih h2⟩

end Sys2Proof.Machine
end

