-- ==== Sys2Proof/Laws/State.lean ====
section
/-! SUPPORT. What each named update of the state does to each field, so that no later proof unfolds an update; and
what the shared operations answer. -/

namespace Sys2Proof.Machine.State

variable (s : State)

/-! `complete`. -/

@[simp] theorem complete_f (e : Option CmdError) : (s.complete e).f = s.f := rfl
@[simp] theorem complete_coef (e : Option CmdError) : (s.complete e).coef = s.coef := rfl
@[simp] theorem complete_clen (e : Option CmdError) : (s.complete e).clen = s.clen := rfl
@[simp] theorem complete_shx (e : Option CmdError) : (s.complete e).shx = s.shx := rfl
@[simp] theorem complete_shy (e : Option CmdError) : (s.complete e).shy = s.shy := rfl
@[simp] theorem complete_shn (e : Option CmdError) : (s.complete e).shn = s.shn := rfl
@[simp] theorem complete_n (e : Option CmdError) : (s.complete e).n = s.n := rfl
@[simp] theorem complete_t (e : Option CmdError) : (s.complete e).t = s.t := rfl
@[simp] theorem complete_mem (e : Option CmdError) : (s.complete e).mem = s.mem := rfl
@[simp] theorem complete_pwlen (e : Option CmdError) : (s.complete e).pwlen = s.pwlen := rfl
@[simp] theorem complete_lbllen (e : Option CmdError) : (s.complete e).lbllen = s.lbllen := rfl
@[simp] theorem complete_datlen (e : Option CmdError) : (s.complete e).datlen = s.datlen := rfl
@[simp] theorem complete_ctlen (e : Option CmdError) : (s.complete e).ctlen = s.ctlen := rfl
@[simp] theorem complete_phase (e : Option CmdError) : (s.complete e).phase = .idle := rfl
@[simp] theorem complete_cmdl (e : Option CmdError) : (s.complete e).cmdl = 0 := rfl
@[simp] theorem complete_done (e : Option CmdError) : (s.complete e).done = true := rfl
@[simp] theorem complete_err (e : Option CmdError) : (s.complete e).err = e := rfl
@[simp] theorem complete_hidden (e : Option CmdError) : (s.complete e).hidden = Hidden.cleared := rfl
@[simp] theorem complete_cfg (e : Option CmdError) : (s.complete e).cfg = s.cfg := rfl
@[simp] theorem complete_rng (e : Option CmdError) : (s.complete e).rng = s.rng := rfl
@[simp] theorem complete_turns (e : Option CmdError) : (s.complete e).turns = s.turns := rfl
@[simp] theorem complete_inbox (e : Option CmdError) : (s.complete e).inbox = s.inbox := rfl
@[simp] theorem complete_outbox (e : Option CmdError) : (s.complete e).outbox = s.outbox := rfl

/-! `issue`. -/

@[simp] theorem issue_f (w : Word) : (s.issue w).f = s.f := rfl
@[simp] theorem issue_coef (w : Word) : (s.issue w).coef = s.coef := rfl
@[simp] theorem issue_clen (w : Word) : (s.issue w).clen = s.clen := rfl
@[simp] theorem issue_shx (w : Word) : (s.issue w).shx = s.shx := rfl
@[simp] theorem issue_shy (w : Word) : (s.issue w).shy = s.shy := rfl
@[simp] theorem issue_shn (w : Word) : (s.issue w).shn = s.shn := rfl
@[simp] theorem issue_n (w : Word) : (s.issue w).n = s.n := rfl
@[simp] theorem issue_t (w : Word) : (s.issue w).t = s.t := rfl
@[simp] theorem issue_mem (w : Word) : (s.issue w).mem = s.mem := rfl
@[simp] theorem issue_pwlen (w : Word) : (s.issue w).pwlen = s.pwlen := rfl
@[simp] theorem issue_lbllen (w : Word) : (s.issue w).lbllen = s.lbllen := rfl
@[simp] theorem issue_datlen (w : Word) : (s.issue w).datlen = s.datlen := rfl
@[simp] theorem issue_ctlen (w : Word) : (s.issue w).ctlen = s.ctlen := rfl
@[simp] theorem issue_phase (w : Word) : (s.issue w).phase = .busy := rfl
@[simp] theorem issue_cmdl (w : Word) : (s.issue w).cmdl = w := rfl
@[simp] theorem issue_done (w : Word) : (s.issue w).done = false := rfl
@[simp] theorem issue_err (w : Word) : (s.issue w).err = none := rfl
@[simp] theorem issue_hidden (w : Word) : (s.issue w).hidden = s.hidden := rfl
@[simp] theorem issue_cfg (w : Word) : (s.issue w).cfg = s.cfg := rfl
@[simp] theorem issue_rng (w : Word) : (s.issue w).rng = s.rng := rfl
@[simp] theorem issue_turns (w : Word) : (s.issue w).turns = s.turns := rfl
@[simp] theorem issue_inbox (w : Word) : (s.issue w).inbox = s.inbox := rfl
@[simp] theorem issue_outbox (w : Word) : (s.issue w).outbox = s.outbox := rfl

/-! `setReg`. -/

@[simp] theorem setReg_f (r : FReg) (v : Nat) : (s.setReg r v).f = s.f.set r (toField v) := rfl
@[simp] theorem setReg_coef (r : FReg) (v : Nat) : (s.setReg r v).coef = s.coef := rfl
@[simp] theorem setReg_clen (r : FReg) (v : Nat) : (s.setReg r v).clen = s.clen := rfl
@[simp] theorem setReg_shx (r : FReg) (v : Nat) : (s.setReg r v).shx = s.shx := rfl
@[simp] theorem setReg_shy (r : FReg) (v : Nat) : (s.setReg r v).shy = s.shy := rfl
@[simp] theorem setReg_shn (r : FReg) (v : Nat) : (s.setReg r v).shn = s.shn := rfl
@[simp] theorem setReg_n (r : FReg) (v : Nat) : (s.setReg r v).n = s.n := rfl
@[simp] theorem setReg_t (r : FReg) (v : Nat) : (s.setReg r v).t = s.t := rfl
@[simp] theorem setReg_mem (r : FReg) (v : Nat) : (s.setReg r v).mem = s.mem := rfl
@[simp] theorem setReg_pwlen (r : FReg) (v : Nat) : (s.setReg r v).pwlen = s.pwlen := rfl
@[simp] theorem setReg_lbllen (r : FReg) (v : Nat) : (s.setReg r v).lbllen = s.lbllen := rfl
@[simp] theorem setReg_datlen (r : FReg) (v : Nat) : (s.setReg r v).datlen = s.datlen := rfl
@[simp] theorem setReg_ctlen (r : FReg) (v : Nat) : (s.setReg r v).ctlen = s.ctlen := rfl
@[simp] theorem setReg_phase (r : FReg) (v : Nat) : (s.setReg r v).phase = s.phase := rfl
@[simp] theorem setReg_cmdl (r : FReg) (v : Nat) : (s.setReg r v).cmdl = s.cmdl := rfl
@[simp] theorem setReg_done (r : FReg) (v : Nat) : (s.setReg r v).done = s.done := rfl
@[simp] theorem setReg_err (r : FReg) (v : Nat) : (s.setReg r v).err = s.err := rfl
@[simp] theorem setReg_hidden (r : FReg) (v : Nat) : (s.setReg r v).hidden = s.hidden := rfl
@[simp] theorem setReg_cfg (r : FReg) (v : Nat) : (s.setReg r v).cfg = s.cfg := rfl
@[simp] theorem setReg_rng (r : FReg) (v : Nat) : (s.setReg r v).rng = s.rng := rfl
@[simp] theorem setReg_turns (r : FReg) (v : Nat) : (s.setReg r v).turns = s.turns := rfl
@[simp] theorem setReg_inbox (r : FReg) (v : Nat) : (s.setReg r v).inbox = s.inbox := rfl
@[simp] theorem setReg_outbox (r : FReg) (v : Nat) : (s.setReg r v).outbox = s.outbox := rfl

/-! `setCoefs`. -/

@[simp] theorem setCoefs_f (c : List Nat) (l : Word) : (s.setCoefs c l).f = s.f := rfl
@[simp] theorem setCoefs_coef (c : List Nat) (l : Word) : (s.setCoefs c l).coef = Memory.writeList s.coef 0 (c.map toField) := rfl
@[simp] theorem setCoefs_clen (c : List Nat) (l : Word) : (s.setCoefs c l).clen = l := rfl
@[simp] theorem setCoefs_shx (c : List Nat) (l : Word) : (s.setCoefs c l).shx = s.shx := rfl
@[simp] theorem setCoefs_shy (c : List Nat) (l : Word) : (s.setCoefs c l).shy = s.shy := rfl
@[simp] theorem setCoefs_shn (c : List Nat) (l : Word) : (s.setCoefs c l).shn = s.shn := rfl
@[simp] theorem setCoefs_n (c : List Nat) (l : Word) : (s.setCoefs c l).n = s.n := rfl
@[simp] theorem setCoefs_t (c : List Nat) (l : Word) : (s.setCoefs c l).t = s.t := rfl
@[simp] theorem setCoefs_mem (c : List Nat) (l : Word) : (s.setCoefs c l).mem = s.mem := rfl
@[simp] theorem setCoefs_pwlen (c : List Nat) (l : Word) : (s.setCoefs c l).pwlen = s.pwlen := rfl
@[simp] theorem setCoefs_lbllen (c : List Nat) (l : Word) : (s.setCoefs c l).lbllen = s.lbllen := rfl
@[simp] theorem setCoefs_datlen (c : List Nat) (l : Word) : (s.setCoefs c l).datlen = s.datlen := rfl
@[simp] theorem setCoefs_ctlen (c : List Nat) (l : Word) : (s.setCoefs c l).ctlen = s.ctlen := rfl
@[simp] theorem setCoefs_phase (c : List Nat) (l : Word) : (s.setCoefs c l).phase = s.phase := rfl
@[simp] theorem setCoefs_cmdl (c : List Nat) (l : Word) : (s.setCoefs c l).cmdl = s.cmdl := rfl
@[simp] theorem setCoefs_done (c : List Nat) (l : Word) : (s.setCoefs c l).done = s.done := rfl
@[simp] theorem setCoefs_err (c : List Nat) (l : Word) : (s.setCoefs c l).err = s.err := rfl
@[simp] theorem setCoefs_hidden (c : List Nat) (l : Word) : (s.setCoefs c l).hidden = s.hidden := rfl
@[simp] theorem setCoefs_cfg (c : List Nat) (l : Word) : (s.setCoefs c l).cfg = s.cfg := rfl
@[simp] theorem setCoefs_rng (c : List Nat) (l : Word) : (s.setCoefs c l).rng = s.rng := rfl
@[simp] theorem setCoefs_turns (c : List Nat) (l : Word) : (s.setCoefs c l).turns = s.turns := rfl
@[simp] theorem setCoefs_inbox (c : List Nat) (l : Word) : (s.setCoefs c l).inbox = s.inbox := rfl
@[simp] theorem setCoefs_outbox (c : List Nat) (l : Word) : (s.setCoefs c l).outbox = s.outbox := rfl

/-! `clearCoefs`. -/

@[simp] theorem clearCoefs_f : s.clearCoefs.f = s.f := rfl
@[simp] theorem clearCoefs_coef : s.clearCoefs.coef = Memory.writeList s.coef 0 (List.replicate s.cfg.tMax 0) := rfl
@[simp] theorem clearCoefs_clen : s.clearCoefs.clen = 0 := rfl
@[simp] theorem clearCoefs_shx : s.clearCoefs.shx = s.shx := rfl
@[simp] theorem clearCoefs_shy : s.clearCoefs.shy = s.shy := rfl
@[simp] theorem clearCoefs_shn : s.clearCoefs.shn = s.shn := rfl
@[simp] theorem clearCoefs_n : s.clearCoefs.n = s.n := rfl
@[simp] theorem clearCoefs_t : s.clearCoefs.t = s.t := rfl
@[simp] theorem clearCoefs_mem : s.clearCoefs.mem = s.mem := rfl
@[simp] theorem clearCoefs_pwlen : s.clearCoefs.pwlen = s.pwlen := rfl
@[simp] theorem clearCoefs_lbllen : s.clearCoefs.lbllen = s.lbllen := rfl
@[simp] theorem clearCoefs_datlen : s.clearCoefs.datlen = s.datlen := rfl
@[simp] theorem clearCoefs_ctlen : s.clearCoefs.ctlen = s.ctlen := rfl
@[simp] theorem clearCoefs_phase : s.clearCoefs.phase = s.phase := rfl
@[simp] theorem clearCoefs_cmdl : s.clearCoefs.cmdl = s.cmdl := rfl
@[simp] theorem clearCoefs_done : s.clearCoefs.done = s.done := rfl
@[simp] theorem clearCoefs_err : s.clearCoefs.err = s.err := rfl
@[simp] theorem clearCoefs_hidden : s.clearCoefs.hidden = s.hidden := rfl
@[simp] theorem clearCoefs_cfg : s.clearCoefs.cfg = s.cfg := rfl
@[simp] theorem clearCoefs_rng : s.clearCoefs.rng = s.rng := rfl
@[simp] theorem clearCoefs_turns : s.clearCoefs.turns = s.turns := rfl
@[simp] theorem clearCoefs_inbox : s.clearCoefs.inbox = s.inbox := rfl
@[simp] theorem clearCoefs_outbox : s.clearCoefs.outbox = s.outbox := rfl

/-! `setShares`. -/

@[simp] theorem setShares_f (xs ys : List Nat) (l : Word) : (s.setShares xs ys l).f = s.f := rfl
@[simp] theorem setShares_coef (xs ys : List Nat) (l : Word) : (s.setShares xs ys l).coef = s.coef := rfl
@[simp] theorem setShares_clen (xs ys : List Nat) (l : Word) : (s.setShares xs ys l).clen = s.clen := rfl
@[simp] theorem setShares_shx (xs ys : List Nat) (l : Word) : (s.setShares xs ys l).shx = Memory.writeList s.shx 0 (xs.map toField) := rfl
@[simp] theorem setShares_shy (xs ys : List Nat) (l : Word) : (s.setShares xs ys l).shy = Memory.writeList s.shy 0 (ys.map toField) := rfl
@[simp] theorem setShares_shn (xs ys : List Nat) (l : Word) : (s.setShares xs ys l).shn = l := rfl
@[simp] theorem setShares_n (xs ys : List Nat) (l : Word) : (s.setShares xs ys l).n = s.n := rfl
@[simp] theorem setShares_t (xs ys : List Nat) (l : Word) : (s.setShares xs ys l).t = s.t := rfl
@[simp] theorem setShares_mem (xs ys : List Nat) (l : Word) : (s.setShares xs ys l).mem = s.mem := rfl
@[simp] theorem setShares_pwlen (xs ys : List Nat) (l : Word) : (s.setShares xs ys l).pwlen = s.pwlen := rfl
@[simp] theorem setShares_lbllen (xs ys : List Nat) (l : Word) : (s.setShares xs ys l).lbllen = s.lbllen := rfl
@[simp] theorem setShares_datlen (xs ys : List Nat) (l : Word) : (s.setShares xs ys l).datlen = s.datlen := rfl
@[simp] theorem setShares_ctlen (xs ys : List Nat) (l : Word) : (s.setShares xs ys l).ctlen = s.ctlen := rfl
@[simp] theorem setShares_phase (xs ys : List Nat) (l : Word) : (s.setShares xs ys l).phase = s.phase := rfl
@[simp] theorem setShares_cmdl (xs ys : List Nat) (l : Word) : (s.setShares xs ys l).cmdl = s.cmdl := rfl
@[simp] theorem setShares_done (xs ys : List Nat) (l : Word) : (s.setShares xs ys l).done = s.done := rfl
@[simp] theorem setShares_err (xs ys : List Nat) (l : Word) : (s.setShares xs ys l).err = s.err := rfl
@[simp] theorem setShares_hidden (xs ys : List Nat) (l : Word) : (s.setShares xs ys l).hidden = s.hidden := rfl
@[simp] theorem setShares_cfg (xs ys : List Nat) (l : Word) : (s.setShares xs ys l).cfg = s.cfg := rfl
@[simp] theorem setShares_rng (xs ys : List Nat) (l : Word) : (s.setShares xs ys l).rng = s.rng := rfl
@[simp] theorem setShares_turns (xs ys : List Nat) (l : Word) : (s.setShares xs ys l).turns = s.turns := rfl
@[simp] theorem setShares_inbox (xs ys : List Nat) (l : Word) : (s.setShares xs ys l).inbox = s.inbox := rfl
@[simp] theorem setShares_outbox (xs ys : List Nat) (l : Word) : (s.setShares xs ys l).outbox = s.outbox := rfl

/-! `resetBlock`. -/

@[simp] theorem resetBlock_f : s.resetBlock.f = State.reset.f := rfl
@[simp] theorem resetBlock_coef : s.resetBlock.coef = State.reset.coef := rfl
@[simp] theorem resetBlock_clen : s.resetBlock.clen = State.reset.clen := rfl
@[simp] theorem resetBlock_shx : s.resetBlock.shx = State.reset.shx := rfl
@[simp] theorem resetBlock_shy : s.resetBlock.shy = State.reset.shy := rfl
@[simp] theorem resetBlock_shn : s.resetBlock.shn = State.reset.shn := rfl
@[simp] theorem resetBlock_n : s.resetBlock.n = State.reset.n := rfl
@[simp] theorem resetBlock_t : s.resetBlock.t = State.reset.t := rfl
@[simp] theorem resetBlock_mem : s.resetBlock.mem = State.reset.mem := rfl
@[simp] theorem resetBlock_pwlen : s.resetBlock.pwlen = State.reset.pwlen := rfl
@[simp] theorem resetBlock_lbllen : s.resetBlock.lbllen = State.reset.lbllen := rfl
@[simp] theorem resetBlock_datlen : s.resetBlock.datlen = State.reset.datlen := rfl
@[simp] theorem resetBlock_ctlen : s.resetBlock.ctlen = State.reset.ctlen := rfl
@[simp] theorem resetBlock_phase : s.resetBlock.phase = State.reset.phase := rfl
@[simp] theorem resetBlock_cmdl : s.resetBlock.cmdl = State.reset.cmdl := rfl
@[simp] theorem resetBlock_done : s.resetBlock.done = State.reset.done := rfl
@[simp] theorem resetBlock_err : s.resetBlock.err = State.reset.err := rfl
@[simp] theorem resetBlock_hidden : s.resetBlock.hidden = State.reset.hidden := rfl
@[simp] theorem resetBlock_cfg : s.resetBlock.cfg = s.cfg := rfl
@[simp] theorem resetBlock_rng : s.resetBlock.rng = s.rng := rfl
@[simp] theorem resetBlock_turns : s.resetBlock.turns = s.turns := rfl
@[simp] theorem resetBlock_inbox : s.resetBlock.inbox = s.inbox := rfl
@[simp] theorem resetBlock_outbox : s.resetBlock.outbox = s.outbox := rfl

/-! `setLen`, `setBuffer`. -/

@[simp] theorem setLen_f (b : Buffer) (v : Word) : (s.setLen b v).f = s.f := by cases b <;> rfl
@[simp] theorem setBuffer_f (b : Buffer) (bs : List Byte) : (s.setBuffer b bs).f = s.f := by cases b <;> rfl
@[simp] theorem setLen_coef (b : Buffer) (v : Word) : (s.setLen b v).coef = s.coef := by cases b <;> rfl
@[simp] theorem setBuffer_coef (b : Buffer) (bs : List Byte) : (s.setBuffer b bs).coef = s.coef := by cases b <;> rfl
@[simp] theorem setLen_clen (b : Buffer) (v : Word) : (s.setLen b v).clen = s.clen := by cases b <;> rfl
@[simp] theorem setBuffer_clen (b : Buffer) (bs : List Byte) : (s.setBuffer b bs).clen = s.clen := by cases b <;> rfl
@[simp] theorem setLen_shx (b : Buffer) (v : Word) : (s.setLen b v).shx = s.shx := by cases b <;> rfl
@[simp] theorem setBuffer_shx (b : Buffer) (bs : List Byte) : (s.setBuffer b bs).shx = s.shx := by cases b <;> rfl
@[simp] theorem setLen_shy (b : Buffer) (v : Word) : (s.setLen b v).shy = s.shy := by cases b <;> rfl
@[simp] theorem setBuffer_shy (b : Buffer) (bs : List Byte) : (s.setBuffer b bs).shy = s.shy := by cases b <;> rfl
@[simp] theorem setLen_shn (b : Buffer) (v : Word) : (s.setLen b v).shn = s.shn := by cases b <;> rfl
@[simp] theorem setBuffer_shn (b : Buffer) (bs : List Byte) : (s.setBuffer b bs).shn = s.shn := by cases b <;> rfl
@[simp] theorem setLen_n (b : Buffer) (v : Word) : (s.setLen b v).n = s.n := by cases b <;> rfl
@[simp] theorem setBuffer_n (b : Buffer) (bs : List Byte) : (s.setBuffer b bs).n = s.n := by cases b <;> rfl
@[simp] theorem setLen_t (b : Buffer) (v : Word) : (s.setLen b v).t = s.t := by cases b <;> rfl
@[simp] theorem setBuffer_t (b : Buffer) (bs : List Byte) : (s.setBuffer b bs).t = s.t := by cases b <;> rfl
@[simp] theorem setLen_mem (b : Buffer) (v : Word) : (s.setLen b v).mem = s.mem := by cases b <;> rfl
@[simp] theorem setBuffer_mem (b : Buffer) (bs : List Byte) : (s.setBuffer b bs).mem = Memory.writeList s.mem b.base bs := by cases b <;> rfl
theorem setLen_pwlen (b : Buffer) (v : Word) : (s.setLen b v).pwlen = if b = .pw then v else s.pwlen := by
  cases b <;> rfl
theorem setBuffer_pwlen (b : Buffer) (bs : List Byte) :
    (s.setBuffer b bs).pwlen = if b = .pw then BitVec.ofNat 32 bs.length else s.pwlen := by
  cases b <;> rfl
theorem setLen_lbllen (b : Buffer) (v : Word) : (s.setLen b v).lbllen = if b = .lbl then v else s.lbllen := by
  cases b <;> rfl
theorem setBuffer_lbllen (b : Buffer) (bs : List Byte) :
    (s.setBuffer b bs).lbllen = if b = .lbl then BitVec.ofNat 32 bs.length else s.lbllen := by
  cases b <;> rfl
theorem setLen_datlen (b : Buffer) (v : Word) : (s.setLen b v).datlen = if b = .dat then v else s.datlen := by
  cases b <;> rfl
theorem setBuffer_datlen (b : Buffer) (bs : List Byte) :
    (s.setBuffer b bs).datlen = if b = .dat then BitVec.ofNat 32 bs.length else s.datlen := by
  cases b <;> rfl
theorem setLen_ctlen (b : Buffer) (v : Word) : (s.setLen b v).ctlen = if b = .ct then v else s.ctlen := by
  cases b <;> rfl
theorem setBuffer_ctlen (b : Buffer) (bs : List Byte) :
    (s.setBuffer b bs).ctlen = if b = .ct then BitVec.ofNat 32 bs.length else s.ctlen := by
  cases b <;> rfl
@[simp] theorem setLen_phase (b : Buffer) (v : Word) : (s.setLen b v).phase = s.phase := by cases b <;> rfl
@[simp] theorem setBuffer_phase (b : Buffer) (bs : List Byte) : (s.setBuffer b bs).phase = s.phase := by cases b <;> rfl
@[simp] theorem setLen_cmdl (b : Buffer) (v : Word) : (s.setLen b v).cmdl = s.cmdl := by cases b <;> rfl
@[simp] theorem setBuffer_cmdl (b : Buffer) (bs : List Byte) : (s.setBuffer b bs).cmdl = s.cmdl := by cases b <;> rfl
@[simp] theorem setLen_done (b : Buffer) (v : Word) : (s.setLen b v).done = s.done := by cases b <;> rfl
@[simp] theorem setBuffer_done (b : Buffer) (bs : List Byte) : (s.setBuffer b bs).done = s.done := by cases b <;> rfl
@[simp] theorem setLen_err (b : Buffer) (v : Word) : (s.setLen b v).err = s.err := by cases b <;> rfl
@[simp] theorem setBuffer_err (b : Buffer) (bs : List Byte) : (s.setBuffer b bs).err = s.err := by cases b <;> rfl
@[simp] theorem setLen_hidden (b : Buffer) (v : Word) : (s.setLen b v).hidden = s.hidden := by cases b <;> rfl
@[simp] theorem setBuffer_hidden (b : Buffer) (bs : List Byte) : (s.setBuffer b bs).hidden = s.hidden := by cases b <;> rfl
@[simp] theorem setLen_cfg (b : Buffer) (v : Word) : (s.setLen b v).cfg = s.cfg := by cases b <;> rfl
@[simp] theorem setBuffer_cfg (b : Buffer) (bs : List Byte) : (s.setBuffer b bs).cfg = s.cfg := by cases b <;> rfl
@[simp] theorem setLen_rng (b : Buffer) (v : Word) : (s.setLen b v).rng = s.rng := by cases b <;> rfl
@[simp] theorem setBuffer_rng (b : Buffer) (bs : List Byte) : (s.setBuffer b bs).rng = s.rng := by cases b <;> rfl
@[simp] theorem setLen_turns (b : Buffer) (v : Word) : (s.setLen b v).turns = s.turns := by cases b <;> rfl
@[simp] theorem setBuffer_turns (b : Buffer) (bs : List Byte) : (s.setBuffer b bs).turns = s.turns := by cases b <;> rfl
@[simp] theorem setLen_inbox (b : Buffer) (v : Word) : (s.setLen b v).inbox = s.inbox := by cases b <;> rfl
@[simp] theorem setBuffer_inbox (b : Buffer) (bs : List Byte) : (s.setBuffer b bs).inbox = s.inbox := by cases b <;> rfl
@[simp] theorem setLen_outbox (b : Buffer) (v : Word) : (s.setLen b v).outbox = s.outbox := by cases b <;> rfl
@[simp] theorem setBuffer_outbox (b : Buffer) (bs : List Byte) : (s.setBuffer b bs).outbox = s.outbox := by cases b <;> rfl

/-! `setCount`, `setStore`. -/

@[simp] theorem setCount_f (r : CountReg) (v : Word) : (s.setCount r v).f = s.f := by cases r <;> rfl
@[simp] theorem setCount_coef (r : CountReg) (v : Word) : (s.setCount r v).coef = s.coef := by cases r <;> rfl
theorem setCount_clen (r : CountReg) (v : Word) : (s.setCount r v).clen = if r = .clen then v else s.clen := by
  cases r <;> rfl
@[simp] theorem setCount_shx (r : CountReg) (v : Word) : (s.setCount r v).shx = s.shx := by cases r <;> rfl
@[simp] theorem setCount_shy (r : CountReg) (v : Word) : (s.setCount r v).shy = s.shy := by cases r <;> rfl
theorem setCount_shn (r : CountReg) (v : Word) : (s.setCount r v).shn = if r = .shn then v else s.shn := by
  cases r <;> rfl
theorem setCount_n (r : CountReg) (v : Word) : (s.setCount r v).n = if r = .n then v else s.n := by
  cases r <;> rfl
theorem setCount_t (r : CountReg) (v : Word) : (s.setCount r v).t = if r = .t then v else s.t := by
  cases r <;> rfl
@[simp] theorem setCount_mem (r : CountReg) (v : Word) : (s.setCount r v).mem = s.mem := by cases r <;> rfl
theorem setCount_pwlen (r : CountReg) (v : Word) : (s.setCount r v).pwlen = if r = .pwlen then v else s.pwlen := by
  cases r <;> rfl
theorem setCount_lbllen (r : CountReg) (v : Word) : (s.setCount r v).lbllen = if r = .lbllen then v else s.lbllen := by
  cases r <;> rfl
theorem setCount_datlen (r : CountReg) (v : Word) : (s.setCount r v).datlen = if r = .datlen then v else s.datlen := by
  cases r <;> rfl
theorem setCount_ctlen (r : CountReg) (v : Word) : (s.setCount r v).ctlen = if r = .ctlen then v else s.ctlen := by
  cases r <;> rfl
@[simp] theorem setCount_phase (r : CountReg) (v : Word) : (s.setCount r v).phase = s.phase := by cases r <;> rfl
@[simp] theorem setCount_cmdl (r : CountReg) (v : Word) : (s.setCount r v).cmdl = s.cmdl := by cases r <;> rfl
@[simp] theorem setCount_done (r : CountReg) (v : Word) : (s.setCount r v).done = s.done := by cases r <;> rfl
@[simp] theorem setCount_err (r : CountReg) (v : Word) : (s.setCount r v).err = s.err := by cases r <;> rfl
@[simp] theorem setCount_hidden (r : CountReg) (v : Word) : (s.setCount r v).hidden = s.hidden := by cases r <;> rfl
@[simp] theorem setCount_cfg (r : CountReg) (v : Word) : (s.setCount r v).cfg = s.cfg := by cases r <;> rfl
@[simp] theorem setCount_rng (r : CountReg) (v : Word) : (s.setCount r v).rng = s.rng := by cases r <;> rfl
@[simp] theorem setCount_turns (r : CountReg) (v : Word) : (s.setCount r v).turns = s.turns := by cases r <;> rfl
@[simp] theorem setCount_inbox (r : CountReg) (v : Word) : (s.setCount r v).inbox = s.inbox := by cases r <;> rfl
@[simp] theorem setCount_outbox (r : CountReg) (v : Word) : (s.setCount r v).outbox = s.outbox := by cases r <;> rfl
@[simp] theorem setStore_f (st : Store) (m : Memory 257) : (s.setStore st m).f = s.f := by cases st <;> rfl
theorem setStore_coef (st : Store) (m : Memory 257) : (s.setStore st m).coef = if st = .coef then m else s.coef := by
  cases st <;> rfl
@[simp] theorem setStore_clen (st : Store) (m : Memory 257) : (s.setStore st m).clen = s.clen := by cases st <;> rfl
theorem setStore_shx (st : Store) (m : Memory 257) : (s.setStore st m).shx = if st = .shx then m else s.shx := by
  cases st <;> rfl
theorem setStore_shy (st : Store) (m : Memory 257) : (s.setStore st m).shy = if st = .shy then m else s.shy := by
  cases st <;> rfl
@[simp] theorem setStore_shn (st : Store) (m : Memory 257) : (s.setStore st m).shn = s.shn := by cases st <;> rfl
@[simp] theorem setStore_n (st : Store) (m : Memory 257) : (s.setStore st m).n = s.n := by cases st <;> rfl
@[simp] theorem setStore_t (st : Store) (m : Memory 257) : (s.setStore st m).t = s.t := by cases st <;> rfl
@[simp] theorem setStore_mem (st : Store) (m : Memory 257) : (s.setStore st m).mem = s.mem := by cases st <;> rfl
@[simp] theorem setStore_pwlen (st : Store) (m : Memory 257) : (s.setStore st m).pwlen = s.pwlen := by cases st <;> rfl
@[simp] theorem setStore_lbllen (st : Store) (m : Memory 257) : (s.setStore st m).lbllen = s.lbllen := by cases st <;> rfl
@[simp] theorem setStore_datlen (st : Store) (m : Memory 257) : (s.setStore st m).datlen = s.datlen := by cases st <;> rfl
@[simp] theorem setStore_ctlen (st : Store) (m : Memory 257) : (s.setStore st m).ctlen = s.ctlen := by cases st <;> rfl
@[simp] theorem setStore_phase (st : Store) (m : Memory 257) : (s.setStore st m).phase = s.phase := by cases st <;> rfl
@[simp] theorem setStore_cmdl (st : Store) (m : Memory 257) : (s.setStore st m).cmdl = s.cmdl := by cases st <;> rfl
@[simp] theorem setStore_done (st : Store) (m : Memory 257) : (s.setStore st m).done = s.done := by cases st <;> rfl
@[simp] theorem setStore_err (st : Store) (m : Memory 257) : (s.setStore st m).err = s.err := by cases st <;> rfl
@[simp] theorem setStore_hidden (st : Store) (m : Memory 257) : (s.setStore st m).hidden = s.hidden := by cases st <;> rfl
@[simp] theorem setStore_cfg (st : Store) (m : Memory 257) : (s.setStore st m).cfg = s.cfg := by cases st <;> rfl
@[simp] theorem setStore_rng (st : Store) (m : Memory 257) : (s.setStore st m).rng = s.rng := by cases st <;> rfl
@[simp] theorem setStore_turns (st : Store) (m : Memory 257) : (s.setStore st m).turns = s.turns := by cases st <;> rfl
@[simp] theorem setStore_inbox (st : Store) (m : Memory 257) : (s.setStore st m).inbox = s.inbox := by cases st <;> rfl
@[simp] theorem setStore_outbox (st : Store) (m : Memory 257) : (s.setStore st m).outbox = s.outbox := by cases st <;> rfl

/-! Registers. -/

@[simp] theorem reg_setReg_same (r : FReg) (v : Nat) : (s.setReg r v).reg r = toField v := by
  simp [reg]

theorem reg_setReg_other {r q : FReg} (v : Nat) (h : q ≠ r) : (s.setReg r v).reg q = s.reg q := by
  simp [reg, show ¬ (r.val = q.val) from fun e => h (Fin.ext e.symm)]

@[simp] theorem reg_complete (e : Option CmdError) (r : FReg) : (s.complete e).reg r = s.reg r := rfl

/-! What the shared operations answer: each is `next` of one completed state. -/

@[simp] theorem finish_eq : s.finish = .next (s.complete none) := rfl

@[simp] theorem raise_eq (e : CmdError) : s.raise e = .next (s.complete (some e)) := rfl

/-- `finishReg` answers a completion either way. -/
theorem finishReg_eq (r : FReg) (v : Option Nat) :
    s.finishReg r v = match v with
      | some x => .next ((s.setReg r x).complete none)
      | none   => .next (s.complete (some .zeroInverse)) := by
  cases v <;> rfl

/-- `withDraws` says once everything a drawing command can do: go on, fail with its answers consumed, or wait. -/
theorem withDraws_cases {α : Type} {d : Drawn α} {k : α → State → Result} {u : State}
    (h : s.withDraws d k = .next u) :
    (∃ v rest, d = .ok v rest ∧ k v { s with rng := rest } = .next u) ∨
      (∃ rest, d = .exhausted rest ∧ u = State.complete { s with rng := rest } (some .rngExhausted)) ∨
      (d = .waiting ∧ u = s) := by
  cases d with
  | ok v rest => exact .inl ⟨v, rest, rfl, h⟩
  | exhausted rest => exact .inr (.inl ⟨rest, rfl, by simpa [withDraws] using h.symm⟩)
  | waiting => exact .inr (.inr ⟨rfl, by simpa [withDraws] using h.symm⟩)

end Sys2Proof.Machine.State
end

