-- ==== Sys2Proof/Laws/Frames.lean ====
section
/-! SUPPORT. What a command reads of a storage, and what it does not read at all: lemmas for comparing two runs of one
command whose states differ where the command does not look. -/

namespace Sys2Proof.Machine

/-! Two runs change a storage alike. -/

theorem ChangeAlike.refl {w : Nat} (m m' : Memory w) : ChangeAlike m m m' m' := fun _ => .inl ⟨rfl, rfl⟩

theorem ChangeAlike.trans {w : Nat} {m t u m' t' u' : Memory w} (h : ChangeAlike m t m' t')
    (k : ChangeAlike t u t' u') : ChangeAlike m u m' u' := by
  intro a
  rcases k a with ⟨k1, k2⟩ | k
  · rw [k1, k2]; exact h a
  · exact .inr k

theorem ChangeAlike.writeList {w : Nat} {m m' : Memory w} (hm : m.wf) (hm' : m'.wf) (a : Nat)
    (vs : List (BitVec w)) : ChangeAlike m (Memory.writeList m a vs) m' (Memory.writeList m' a vs) := by
  intro b
  rw [Memory.read_writeList _ hm, Memory.read_writeList _ hm']
  split
  · exact .inr rfl
  · exact .inl ⟨rfl, rfl⟩

/-! What the operand forms read. -/

/-- The first `k` entries depend on nothing above them. -/
theorem entries_congr {m m' : Memory 257} {k : Nat} (h : ∀ j, j < k → Memory.read m j = Memory.read m' j) :
    entries m k = entries m' k := by
  simp only [entries, Memory.readList, List.map_map]
  apply List.map_congr_left
  intro j hj
  simp only [Function.comp, Nat.zero_add]
  rw [h j (List.mem_range.mp hj)]

/-- A buffer's contents depend on no byte at or above its length register. -/
theorem State.contents_congr {s : State} {m : Memory 8} {b : Buffer} (h : s.SameContents m b) :
    State.contents { s with mem := m } b = s.contents b := by
  have hl : State.lenOf { s with mem := m } b = s.lenOf b := by cases b <;> rfl
  simp only [State.contents, State.bufferBytes, Memory.readList, hl]
  exact List.map_congr_left fun j hj => h j (List.mem_range.mp hj)

/-! The schedule. -/

/-- A command does the same whatever the schedule says: no command reads it or changes it. -/
theorem exec_turns (i : Instr) (s t : State) (ts : List Turn) (h : exec i s = .next t) :
    exec i { s with turns := ts } = .next { t with turns := ts } := by
  cases i with
  | fadd | fsub | fmul => cases h; rfl
  | finv fd fs1 =>
    simp only [exec, execFinv, State.finishReg_eq, State.operand, State.reg] at h ⊢
    split at h <;> (cases h; rfl)
  | pcons fs1 =>
    simp only [exec, execPcons, State.operand, State.reg] at h ⊢
    split at h
    · next hc => cases h; simp only [hc, if_true]; rfl
    · next hc =>
      simp only [hc, if_false]
      rcases State.withDraws_cases _ h with ⟨v, rest, hd, hk⟩ | ⟨rest, hd, hk⟩ | ⟨hd, hk⟩
      · cases hk; simp only [hd]; rfl
      · subst hk; simp only [hd]; rfl
      · subst hk; simp only [hd]; rfl
  | peval fd fs1 =>
    simp only [exec, execPeval] at h ⊢
    split at h <;> (next hc => cases h; simp only [hc, if_true, if_false]; rfl)
  | pshare =>
    simp only [exec, execPshare] at h ⊢
    split at h
    · next hc => cases h; simp only [hc, if_true]; rfl
    · next hc =>
      simp only [hc, if_false]
      rcases State.withDraws_cases _ h with ⟨v, rest, hd, hk⟩ | ⟨rest, hd, hk⟩ | ⟨hd, hk⟩
      · cases hk; simp only [hd]; rfl
      · subst hk; simp only [hd]; rfl
      · subst hk; simp only [hd]; rfl
  | lrecon fd =>
    simp only [exec, execLrecon, State.finishReg_eq, State.shareXs, State.shareYs] at h ⊢
    split at h
    · next hc => cases h; simp only [hc, if_true]; rfl
    · next hc =>
      simp only [hc, if_false]
      split at h <;> (cases h; rfl)
  | encrypt =>
    simp only [exec, execEncrypt] at h ⊢
    split at h
    · next hc =>
      cases h
      rw [if_pos (show State.encryptRefused { s with turns := ts } = true from hc)]; rfl
    · next hc =>
      rw [if_neg (show ¬ State.encryptRefused { s with turns := ts } = true from hc)]
      have e : State.contents { s with turns := ts } .pw = s.contents .pw := rfl
      rw [e]
      rcases State.withDraws_cases _ h with ⟨v, rest, hd, hk⟩ | ⟨rest, hd, hk⟩ | ⟨hd, hk⟩
      · cases hk; simp only [hd]; rfl
      · subst hk; simp only [hd]; rfl
      · subst hk; simp only [hd]; rfl
  | decrypt =>
    simp only [exec, execDecrypt] at h ⊢
    split at h
    · next hc => cases h; simp only [hc, if_true]; rfl
    · next hc =>
      simp only [hc, if_false]
      split at h
      · next e he =>
        cases h
        have : decryptPayload s.cfg (State.shareXs { s with turns := ts }) (State.shareYs { s with turns := ts })
            (State.contents { s with turns := ts } .ct) = .error e := he
        simp only [this]; rfl
      · next l c he =>
        cases h
        have : decryptPayload s.cfg (State.shareXs { s with turns := ts }) (State.shareYs { s with turns := ts })
            (State.contents { s with turns := ts } .ct) = .ok (l, c) := he
        simp only [this]; rfl

/-- So does the completion of the latched word. -/
theorem State.runLatched_turns (s t : State) (ts : List Turn) (h : s.runLatched = .next t) :
    State.runLatched { s with turns := ts } = .next { t with turns := ts } := by
  unfold State.runLatched at h ⊢
  split at h
  · next i hi =>
    rw [show decode (State.cmdl { s with turns := ts }) = .ok i from hi]; exact exec_turns _ _ _ _ h
  · next r hr =>
    cases h
    rw [show decode (State.cmdl { s with turns := ts }) = .error r from hr]; rfl

/-- How many answers a command under way can have been given does not depend on the schedule. -/
theorem State.answersAskedFor_turns (s : State) (ts : List Turn) (hn : ∃ t, s.runLatched = .next t) :
    State.answersAskedFor { s with turns := ts } = s.answersAskedFor := by
  obtain ⟨t, ht⟩ := hn
  simp only [State.answersAskedFor, State.runLatched_turns s t ts ht, ht]

end Sys2Proof.Machine
end

