-- ==== Sys2Proof/Laws/Lagrange.lean ====
section
/-! SUPPORT. What `Recon` answers (R141): the Lagrange sum when no two share coordinates are congruent, and nothing
otherwise (R142). -/

namespace Sys2Proof.Machine

variable {p : Nat}

theorem foldlM_none {α β : Type} (f : β → α → Option β) (l : List α) (a : α) (ha : a ∈ l)
    (h : ∀ b, f b a = none) (b : β) : l.foldlM f b = none := by
  induction l generalizing b with
  | nil => simp at ha
  | cons c l ih =>
    simp only [List.foldlM_cons]
    rcases List.mem_cons.mp ha with rfl | h2
    · simp [h]
    · cases hc : f b c with
      | none => rfl
      | some d => exact ih h2 d

theorem basisFactor_cases [Fact p.Prime] (xi xj : Nat) :
    (xj % p = xi % p ∧ basisFactor p xi xj = none) ∨
      (xj % p ≠ xi % p ∧ ∃ v, basisFactor p xi xj = some v ∧
        (v : ZMod p) = (xj : ZMod p) * ((xj : ZMod p) - (xi : ZMod p))⁻¹) := by
  have key : ((adderUnit p xj xi true : Nat) : ZMod p) = 0 ↔ xj % p = xi % p := by
    rw [cast_adderUnit_sub, sub_eq_zero]
    exact ZMod.natCast_eq_natCast_iff' _ _ _
  rcases finv_cases (p := p) (adderUnit p xj xi true) with ⟨h1, h2⟩ | ⟨h1, v, h2, h3⟩
  · exact .inl ⟨key.mp h1, by simp [basisFactor, inverseUnit, h2]⟩
  · refine .inr ⟨mt key.mpr h1, multiplierUnit p xj v, by simp [basisFactor, inverseUnit, h2], ?_⟩
    rw [cast_multiplierUnit, h3, cast_adderUnit_sub]

/-- The factors multiplied up over the other shares. -/
theorem basisLoop [Fact p.Prime] (xs : List Nat) (i : Nat) (l : List Nat)
    (h : ∀ j ∈ l, j ≠ i → xs.getD j 0 % p ≠ xs.getD i 0 % p) (L : Nat) :
    ∃ v, l.foldlM (fun L j => if j = i then some L
        else (basisFactor p (xs.getD i 0) (xs.getD j 0)).map (multiplierUnit p L)) L = some v ∧
      (v : ZMod p) = L * ((l.filter fun j => j ≠ i).map fun j =>
        (xs.getD j 0 : ZMod p) * ((xs.getD j 0 : ZMod p) - (xs.getD i 0 : ZMod p))⁻¹).prod := by
  induction l generalizing L with
  | nil => exact ⟨L, rfl, by simp⟩
  | cons j l ih =>
    have hl : ∀ k ∈ l, k ≠ i → xs.getD k 0 % p ≠ xs.getD i 0 % p := fun k hk => h k (by simp [hk])
    by_cases hj : j = i
    · obtain ⟨v, h1, h2⟩ := ih hl L
      refine ⟨v, by simpa [List.foldlM_cons, hj] using h1, ?_⟩
      rw [h2]
      simp [hj]
    · rcases basisFactor_cases (p := p) (xs.getD i 0) (xs.getD j 0) with ⟨h1, -⟩ | ⟨-, w, h1, h2⟩
      · exact absurd h1 (h j (by simp) hj)
      · obtain ⟨v, h3, h4⟩ := ih hl (multiplierUnit p L w)
        refine ⟨v, by rw [List.foldlM_cons, if_neg hj, h1]; exact h3, ?_⟩
        rw [h4, cast_multiplierUnit, h2]
        simp only [ne_eq, decide_not, hj, List.filter_cons, decide_false, Bool.not_false, if_true,
          List.map_cons, List.prod_cons]
        ring

theorem filter_prod (n i : Nat) (g : Nat → ZMod p) :
    (((List.range n).filter fun j => j ≠ i).map g).prod = ∏ j ∈ (Finset.range n).erase i, g j := by
  rw [← List.prod_toFinset _ (List.nodup_range.filter _)]
  congr 1
  ext j
  simp [and_comm]

theorem basisAtZero_none [Fact p.Prime] (xs : List Nat) (i j : Nat) (hj : j < xs.length) (hne : j ≠ i)
    (h : xs.getD j 0 % p = xs.getD i 0 % p) : basisAtZero p xs i = none := by
  refine foldlM_none _ _ j (by simpa using hj) (fun L => ?_) 1
  rcases basisFactor_cases (p := p) (xs.getD i 0) (xs.getD j 0) with ⟨-, h1⟩ | ⟨h1, -⟩
  · rw [if_neg hne, h1]; rfl
  · exact absurd h h1

theorem DistinctMod.ne {xs : List Nat} (h : DistinctMod p xs) {i j : Nat} (hi : i < xs.length) (hj : j < xs.length)
    (hne : j ≠ i) : xs.getD j 0 % p ≠ xs.getD i 0 % p := by
  rw [List.getD_eq_getElem _ _ hi, List.getD_eq_getElem _ _ hj]
  rcases Nat.lt_or_gt_of_ne hne with h2 | h2
  · exact List.pairwise_iff_getElem.mp h j i hj hi h2
  · exact (List.pairwise_iff_getElem.mp h i j hi hj h2).symm

theorem basisAtZero_some [Fact p.Prime] (xs : List Nat) (h : DistinctMod p xs) (i : Nat) (hi : i < xs.length) :
    ∃ v, basisAtZero p xs i = some v ∧ (v : ZMod p) = ∏ j ∈ (Finset.range xs.length).erase i,
      ((xs.getD j 0 : ZMod p) * ((xs.getD j 0 : ZMod p) - (xs.getD i 0 : ZMod p))⁻¹) := by
  obtain ⟨v, h1, h2⟩ := basisLoop (p := p) xs i (List.range xs.length)
    (fun j hj hne => h.ne hi (by simpa using hj) hne) 1
  exact ⟨v, h1, by rw [h2, filter_prod]; simp⟩

theorem reconLoop [Fact p.Prime] (xs ys : List Nat) (h : DistinctMod p xs) (l : List Nat)
    (hl : ∀ i ∈ l, i < xs.length) (acc : Nat) :
    ∃ v, l.foldlM (fun acc i =>
        (basisAtZero p xs i).map fun L => adderUnit p acc (multiplierUnit p L (ys.getD i 0)) false) acc = some v ∧
      (acc < p → v < p) ∧
      (v : ZMod p) = acc + (l.map fun i => (ys.getD i 0 : ZMod p) * ∏ j ∈ (Finset.range xs.length).erase i,
        ((xs.getD j 0 : ZMod p) * ((xs.getD j 0 : ZMod p) - (xs.getD i 0 : ZMod p))⁻¹)).sum := by
  have hp : p.Prime := Fact.out
  induction l generalizing acc with
  | nil => exact ⟨acc, rfl, id, by simp⟩
  | cons i l ih =>
    obtain ⟨w, h1, h2⟩ := basisAtZero_some xs h i (hl i (by simp))
    obtain ⟨v, h3, h4, h5⟩ := ih (fun k hk => hl k (by simp [hk]))
      (adderUnit p acc (multiplierUnit p w (ys.getD i 0)) false)
    refine ⟨v, by simpa [List.foldlM_cons, h1] using h3, fun _ => h4 (adderUnit_lt hp.pos _ _ _), ?_⟩
    rw [h5, cast_adderUnit_add, cast_multiplierUnit, h2, List.map_cons, List.sum_cons]
    ring

/-- `Recon` on coordinates no two of which are congruent. -/
theorem recon_distinct [Fact p.Prime] (xs ys : List Nat) (h : DistinctMod p xs) :
    ∃ v, recon p xs ys = some v ∧ v < p ∧ (v : ZMod p) = lagrangeSum p xs ys := by
  have hp : p.Prime := Fact.out
  obtain ⟨v, h1, h2, h3⟩ := reconLoop xs ys h (List.range xs.length) (by simp) 0
  refine ⟨v, h1, h2 hp.pos, ?_⟩
  rw [h3, lagrangeSum, ← List.sum_toFinset _ List.nodup_range, List.toFinset_range]
  simp

/-- `Recon` raises exactly when two of the coordinates are congruent (R142). -/
theorem recon_none_iff [Fact p.Prime] (xs ys : List Nat) : recon p xs ys = none ↔ ¬ DistinctMod p xs := by
  constructor
  · intro h hd
    obtain ⟨v, h1, -⟩ := recon_distinct xs ys hd
    simp [h1] at h
  · intro h
    simp only [DistinctMod, List.pairwise_iff_getElem, not_forall, ne_eq, not_not] at h
    obtain ⟨i, j, hi, hj, hij, he⟩ := h
    refine foldlM_none _ _ i (by simpa using hi) (fun acc => ?_) 0
    rw [basisAtZero_none xs i j hj (by omega) (by
      rw [List.getD_eq_getElem _ _ hi, List.getD_eq_getElem _ _ hj]; exact he.symm)]
    rfl

end Sys2Proof.Machine
end

