-- ==== Sys2Proof/Laws/PerInstr.lean ====
section
/-! SUPPORT. Statements made once per command: the fields of its word are the ones R70 and R71 give it. -/

/-- The command's word has its row's opcode byte, 0 in the reserved bits, a register index in every field the row
uses and 0 in every field it does not use (R70, R71). -/
def Sys2Proof.Laws.RawFields.Statement (i : Sys2Proof.Instr) : Prop :=
  i.raw.op = i.opcode.byte ∧ i.raw.rsv = 0 ∧
  Sys2Proof.fieldOk i.opcode.usesFd i.raw.fd = true ∧
  Sys2Proof.fieldOk i.opcode.usesFs1 i.raw.fs1 = true ∧
  Sys2Proof.fieldOk i.opcode.usesFs2 i.raw.fs2 = true

namespace Sys2Proof.Laws.RawFields

theorem index_below (r : FReg) : fieldOk true (FReg.field r) = true := by
  revert r
  decide

theorem fadd (fd fs1 fs2 : FReg) : Statement (.fadd fd fs1 fs2) :=
  ⟨rfl, rfl, index_below fd, index_below fs1, index_below fs2⟩

theorem fsub (fd fs1 fs2 : FReg) : Statement (.fsub fd fs1 fs2) :=
  ⟨rfl, rfl, index_below fd, index_below fs1, index_below fs2⟩

theorem fmul (fd fs1 fs2 : FReg) : Statement (.fmul fd fs1 fs2) :=
  ⟨rfl, rfl, index_below fd, index_below fs1, index_below fs2⟩

theorem finv (fd fs1 : FReg) : Statement (.finv fd fs1) := ⟨rfl, rfl, index_below fd, index_below fs1, rfl⟩

theorem pcons (fs1 : FReg) : Statement (.pcons fs1) := ⟨rfl, rfl, rfl, index_below fs1, rfl⟩

theorem peval (fd fs1 : FReg) : Statement (.peval fd fs1) := ⟨rfl, rfl, index_below fd, index_below fs1, rfl⟩

theorem pshare : Statement .pshare := ⟨rfl, rfl, rfl, rfl, rfl⟩

theorem lrecon (fd : FReg) : Statement (.lrecon fd) := ⟨rfl, rfl, index_below fd, rfl, rfl⟩

theorem encrypt : Statement .encrypt := ⟨rfl, rfl, rfl, rfl, rfl⟩

theorem decrypt : Statement .decrypt := ⟨rfl, rfl, rfl, rfl, rfl⟩

end Sys2Proof.Laws.RawFields
end

