-- ==== Sys2Proof/Laws/Prime.lean ====
section
/-! SUPPORT. `P_REF` is prime (R6, G1), by a chain of Lucas certificates, so the reference parameters are legal. -/

namespace Sys2Proof.Machine

theorem prime_of_factor (ps : List Nat) (h : ∀ q ∈ ps, q.Prime) {q : Nat} (hq : q.Prime) (hd : q ∣ ps.prod) :
    q ∈ ps := by
  obtain ⟨r, hr, hqr⟩ := (Prime.dvd_prod_iff hq.prime).1 hd
  rwa [(Nat.prime_dvd_prime_iff_eq hq (h r hr)).1 hqr]

/-- Lucas' test with the factors of `n - 1` listed and the powers computed by `powMod`. -/
theorem prime_of_lucas (n a : Nat) (ps : List Nat) (hn : 1 < n) (hps : ∀ q ∈ ps, q.Prime) (hprod : ps.prod = n - 1)
    (h1 : powMod a (n - 1) n = 1) (h2 : ∀ q ∈ ps, powMod a ((n - 1) / q) n ≠ 1) : n.Prime := by
  have key : ∀ e, ((a : ZMod n) ^ e = 1) ↔ powMod a e n = 1 := fun e => by
    rw [powMod_eq _ _ _ (by omega)]
    have : ((a ^ e : Nat) : ZMod n) = ((1 : Nat) : ZMod n) ↔ a ^ e ≡ 1 [MOD n] := ZMod.natCast_eq_natCast_iff _ _ _
    rw [Nat.cast_pow, Nat.cast_one] at this
    rw [this, Nat.ModEq, Nat.mod_eq_of_lt hn]
  exact lucas_primality n a ((key _).2 h1) fun q hq hd h =>
    h2 q (prime_of_factor ps hps hq (hprod ▸ hd)) ((key _).1 h)

theorem prime_1348078992787 : Nat.Prime 1348078992787 :=
  prime_of_lucas _ 2 [2, 3, 3, 117811, 635707] (by norm_num) (by norm_num) (by norm_num) (by decide +kernel)
    (by decide +kernel)

theorem prime_860169809 : Nat.Prime 860169809 :=
  prime_of_lucas _ 3 [2, 2, 2, 2, 17, 139, 22751] (by norm_num) (by norm_num) (by norm_num) (by decide +kernel)
    (by decide +kernel)

theorem prime_1720339619 : Nat.Prime 1720339619 :=
  prime_of_lucas _ 2 [2, 860169809] (by norm_num) (by simp [Nat.prime_two, prime_860169809]) (by norm_num)
    (by decide +kernel) (by decide +kernel)

theorem prime_2708996341 : Nat.Prime 2708996341 :=
  prime_of_lucas _ 2 [2, 2, 3, 5, 47, 960637] (by norm_num) (by norm_num) (by norm_num) (by decide +kernel)
    (by decide +kernel)

theorem prime_6847162841 : Nat.Prime 6847162841 :=
  prime_of_lucas _ 6 [2, 2, 2, 5, 7, 24454153] (by norm_num) (by norm_num) (by norm_num) (by decide +kernel)
    (by decide +kernel)

theorem prime_q4 : Nat.Prime 393479968695952911778851722879 :=
  prime_of_lucas _ 7 [2, 19, 4464877, 1720339619, 1348078992787] (by norm_num)
    (by simp only [List.mem_cons, List.not_mem_nil, or_false, forall_eq_or_imp, forall_eq]
        exact ⟨by norm_num, by norm_num, by norm_num, prime_1720339619, prime_1348078992787⟩)
    (by norm_num) (by decide +kernel) (by decide +kernel)

theorem prime_q3 : Nat.Prime 128705835328563219442540253495117583242026627406673023 :=
  prime_of_lucas _ 5 [2, 797, 32969, 2297593, 2708996341, 393479968695952911778851722879] (by norm_num)
    (by simp only [List.mem_cons, List.not_mem_nil, or_false, forall_eq_or_imp, forall_eq]
        exact ⟨by norm_num, by norm_num, by norm_num, by norm_num, prime_2708996341, prime_q4⟩)
    (by norm_num) (by decide +kernel) (by decide +kernel)

theorem prime_q2 : Nat.Prime 75164207831880920154443508041148668613343550405497045433 :=
  prime_of_lucas _ 3 [2, 2, 2, 73, 128705835328563219442540253495117583242026627406673023] (by norm_num)
    (by simp only [List.mem_cons, List.not_mem_nil, or_false, forall_eq_or_imp, forall_eq]
        exact ⟨by norm_num, by norm_num, by norm_num, by norm_num, prime_q3⟩)
    (by norm_num) (by decide +kernel) (by decide +kernel)

theorem prime_q1 : Nat.Prime 62518280849413946623979314474273652011160178111074600521170349 :=
  prime_of_lucas _ 2 [2, 2, 3, 69313, 75164207831880920154443508041148668613343550405497045433] (by norm_num)
    (by simp only [List.mem_cons, List.not_mem_nil, or_false, forall_eq_or_imp, forall_eq]
        exact ⟨by norm_num, by norm_num, by norm_num, by norm_num, prime_q2⟩)
    (by norm_num) (by decide +kernel) (by decide +kernel)

/-- `P_REF` is prime (R6). -/
theorem prime_pRef : pRef.Prime :=
  prime_of_lucas _ 29 [2, 2, 2, 2, 2, 2, 3, 3, 5, 13, 13, 6847162841,
      62518280849413946623979314474273652011160178111074600521170349] (by decide +kernel)
    (by simp only [List.mem_cons, List.not_mem_nil, or_false, forall_eq_or_imp, forall_eq]
        exact ⟨by norm_num, by norm_num, by norm_num, by norm_num, by norm_num, by norm_num, by norm_num, by norm_num,
          by norm_num, by norm_num, by norm_num, prime_6847162841, prime_q1⟩)
    (by decide +kernel) (by decide +kernel) (by decide +kernel)

/-- The reference parameters meet the ranges of R6 and R7. -/
theorem reference_legal : Params.reference.Legal where
  prime    := prime_pRef
  above    := by decide +kernel
  below    := by decide +kernel
  tMax_pos := by decide
  tMax_le  := by decide
  nMax_le  := by decide
  buf_dvd  := by decide
  buf_pos  := by decide
  buf_le   := by decide
  retry    := by decide

end Sys2Proof.Machine
end

