-- ==== Sys2Proof/Laws/Primitives.lean ====
section
/-! SUPPORT. The one law of the injected cipher (R8). -/

namespace Sys2Proof

/-- `DEC(k, ENC(k, b)) = b`, whichever cipher the block was built with (R8). -/
@[simp] theorem Params.dec_enc (c : Params) (key : Bytes 32) (b : Bytes 16) : c.dec key (c.enc key b) = b := by
  unfold Params.dec Params.enc
  split
  · exact Machine.aesDec_aesEnc key b
  · exact Equiv.symm_apply_apply _ _

end Sys2Proof
end

