-- ==== Sys2Proof/Tests/Slice0.lean ====
section
/-! SUPPORT. Small tests, their expected results taken from the spec (`95_test_vectors.md` unless a comment says
otherwise), and for every statement with hypotheses a concrete case that meets them. -/

namespace Sys2Proof.Tests

/- One theorem after the other: many kernel evaluations at once need more threads than memory allows. -/
set_option Elab.async false

open Sys2Proof Sys2Proof.Machine

/-! ## Helpers -/

/-- A busy block with the reset contents. -/
def busy : State := { State.reset with phase := .busy }

/-- The field registers with two of them set. -/
def regs (a b : Nat) : Vector FieldWord 8 := #v[0, BitVec.ofNat 257 a, BitVec.ofNat 257 b, 0, 0, 0, 0, 0]

/-- A store that holds `vals` from entry 0 on. -/
def stored (vals : List Nat) : Memory 257 := Memory.writeList Memory.empty 0 (vals.map (BitVec.ofNat 257))

/-- Byte memory that holds `bytes` from `base` on. -/
def bytesAt (base : Nat) (bytes : List Byte) (m : Memory 8) : Memory 8 := Memory.writeList m base bytes

/-- The state after a command, or the state before it if there is none. -/
def after (i : Instr) (s : State) : State :=
  match exec i s with
  | .next t => t
  | _ => s

/-- The command answers a next state of which `P` holds. -/
def gives (i : Instr) (s : State) (P : State → Bool) : Bool :=
  match exec i s with
  | .next t => P t
  | _ => false

theorem gives.elim {i : Instr} {s : State} {P : State → Bool} (h : gives i s P = true) :
    exec i s = .next (after i s) ∧ P (after i s) = true := by
  unfold gives at h
  unfold after
  split at h
  · next t ht => simp [ht, h]
  · simp at h

/-- The store and buffer part of the invariant, as a check. -/
def storageCheck (s : State) : Bool :=
  decide (Memory.wf s.mem) && decide (Memory.wf s.coef) && decide (Memory.wf s.shx) && decide (Memory.wf s.shy) &&
  s.mem.all (fun c => bufferAddr s.cfg c.1) && s.coef.all (fun c => decide (c.1 < s.cfg.tMax)) &&
  s.shx.all (fun c => decide (c.1 < s.cfg.nMax)) && s.shy.all (fun c => decide (c.1 < s.cfg.nMax))

theorem storageCheck.elim {s : State} (h : storageCheck s = true) : s.StorageOk := by
  simp only [storageCheck, Bool.and_eq_true, decide_eq_true_eq, List.all_eq_true] at h
  obtain ⟨⟨⟨⟨⟨⟨⟨h1, h2⟩, h3⟩, h4⟩, h5⟩, h6⟩, h7⟩, h8⟩ := h
  exact ⟨h1, h2, h3, h4, h5, fun c hc => by simpa using h6 c hc, fun c hc => by simpa using h7 c hc,
    fun c hc => by simpa using h8 c hc⟩

/-! ## Word encodings, written out bit by bit from R70 and R73 (`rsv` `fs2` `fs1` `fd` `op`) -/

theorem test_decode_fadd : decode 0b00000000000000100001001100000001 = .ok (.fadd 3 1 2) := by decide

theorem test_decode_fsub : decode 0b00000000000000100001010000000010 = .ok (.fsub 4 1 2) := by decide

theorem test_decode_fmul : decode 0b00000000000001100101011100000011 = .ok (.fmul 7 5 6) := by decide

theorem test_decode_finv : decode 0b00000000000000000010011000000100 = .ok (.finv 6 2) := by decide

theorem test_decode_pcons : decode 0b00000000000000000111000000010000 = .ok (.pcons 7) := by decide

theorem test_decode_peval : decode 0b00000000000000000001001000010001 = .ok (.peval 2 1) := by decide

theorem test_decode_pshare : decode 0b00000000000000000000000000010010 = .ok .pshare := by decide

theorem test_decode_lrecon : decode 0b00000000000000000000011100100000 = .ok (.lrecon 7) := by decide

theorem test_decode_encrypt : decode 0b00000000000000000000000000110000 = .ok .encrypt := by decide

theorem test_decode_decrypt : decode 0b00000000000000000000000000110001 = .ok .decrypt := by decide

/-! ## Ill-formed words, one for each check of `WellFormed.lean`, and the legal word beside them -/

theorem test_wellformed_fadd : (RawCommand.ofWord 0x00021301).wellFormed = true := by decide

theorem test_illformed_reserved :
    (RawCommand.ofWord 0x00100001).reservedZero = false ∧ (RawCommand.ofWord 0x80000001).wellFormed = false := by
  decide

theorem test_illformed_opcode :
    (RawCommand.ofWord 0x00000000).opcodeKnown = false ∧ (RawCommand.ofWord 0x00000005).wellFormed = false ∧
      (RawCommand.ofWord 0x000000ff).wellFormed = false := by decide

theorem test_illformed_fd :
    (RawCommand.ofWord 0x00000801).fdOk = false ∧ (RawCommand.ofWord 0x00000110).wellFormed = false := by decide

theorem test_illformed_fs1 :
    (RawCommand.ofWord 0x00008001).fs1Ok = false ∧ (RawCommand.ofWord 0x00001020).wellFormed = false := by decide

theorem test_illformed_fs2 :
    (RawCommand.ofWord 0x00080001).fs2Ok = false ∧ (RawCommand.ofWord 0x00010004).wellFormed = false := by decide

/-- Section 2.1: the illegal words, each rejected under its reason. -/
theorem test_decode_rejects :
    decode 0x00000000 = .error .unknownOpcode ∧ decode 0x00000013 = .error .unknownOpcode ∧
    decode 0x00000021 = .error .unknownOpcode ∧ decode 0x00000032 = .error .unknownOpcode ∧
    decode 0x00100001 = .error .reservedBits ∧ decode 0x80000001 = .error .reservedBits ∧
    decode 0x00080001 = .error .registerIndex ∧ decode 0x00008001 = .error .registerIndex ∧
    decode 0x00000801 = .error .registerIndex ∧ decode 0x00000820 = .error .registerIndex ∧
    decode 0x00010004 = .error .unusedField ∧ decode 0x00000110 = .error .unusedField ∧
    decode 0x00000112 = .error .unusedField ∧ decode 0x00001020 = .error .unusedField ∧
    decode 0x00000130 = .error .unusedField ∧ decode 0x00010031 = .error .unusedField := by decide

theorem test_table_word_runs : decodeTableWord 32 0x00000720 = some (.lrecon 7) ∧ decodeTableWord 32 0 = none := by
  decide

/-! ## Field commands (section 2.2) -/

/-- `M + M` needs 258 bits before the reduction. -/
theorem test_fadd_largest : gives (.fadd 3 1 2) { busy with f := regs (2 ^ 257 - 1) (2 ^ 257 - 1) } (fun t =>
    t.operand 3 == 0x66ba53c6e8ded817187c0ae38707356aeb329d3b24b0e5b97adbdd0450572b7c && t.statusWord == 2) = true := by
  decide +kernel

theorem test_fadd_same_register : gives (.fadd 2 2 2) { busy with f := regs 0 2 } (fun t => t.operand 2 == 4) = true := by
  decide +kernel

theorem test_fsub_below_zero : gives (.fsub 3 1 2) { busy with f := regs 1 2 } (fun t =>
    t.operand 3 == pRef - 1 && t.operand 1 == 1) = true := by decide +kernel

/-- A canonical result above `2^256`. -/
theorem test_fsub_above : gives (.fsub 3 1 2) { busy with f := regs (2 ^ 256) (pRef - 1) } (fun t =>
    t.operand 3 == 2 ^ 256 + 1) = true := by decide +kernel

theorem test_fmul_largest : gives (.fmul 5 1 2) { busy with f := regs (2 ^ 257 - 1) (2 ^ 257 - 1) } (fun t =>
    t.operand 5 == 0x125d8ec8d60657e97bcdc1c49432f632975a84f74194e46732533aed952ef18fb) = true := by decide +kernel

theorem test_fmul_non_canonical_zero : gives (.fmul 1 1 2) { busy with f := regs pRef 5 } (fun t =>
    t.operand 1 == 0) = true := by decide +kernel

theorem test_finv_largest : gives (.finv 6 1) { busy with f := regs (2 ^ 257 - 1) 0 } (fun t =>
    t.operand 6 == 0x1bd4de15378b28a387752641cc2b1bc50af8337e4a1766c5299192881a9dca342) = true := by decide +kernel

/-- `P` is a non-zero bit pattern congruent to 0. -/
theorem test_finv_zero : gives (.finv 2 1) { busy with f := regs pRef 7 } (fun t =>
    t.statusWord == 0x12 && t.operand 2 == 7) = true := by decide +kernel

/-! ## Polynomial commands (section 2.3) -/

theorem test_pcons_redraw : gives (.pcons 1) { busy with f := regs 42 0, t := 3, rng := [7, 0, 5, 9] } (fun t =>
    entries t.coef 4 == [42, 7, 5, 0] && t.clen == 3 && t.rng == [9] && t.statusWord == 2) = true := by decide +kernel

/-- `RngExhausted` after two redraws: three answers consumed, the 9 never asked for. -/
theorem test_pcons_exhausted : gives (.pcons 1)
    { busy with
      f := regs 42 0, t := 2, coef := stored [1, 2, 3], clen := 3, rng := [0, 0, 0, 9]
      cfg := { Params.reference with retryMax := some 2 } } (fun t =>
    entries t.coef 3 == [1, 2, 3] && t.clen == 3 && t.rng == [9] && t.statusWord == 0x52) = true := by decide +kernel

theorem test_peval_non_canonical : gives (.peval 2 1)
    { busy with f := regs (pRef + 1) 777, coef := stored [pRef - 1, pRef - 4, 8], clen := 3 } (fun t =>
    t.operand 2 == 3) = true := by decide +kernel

theorem test_peval_no_polynomial : gives (.peval 2 1) { busy with f := regs 5 777, clen := 17 } (fun t =>
    t.operand 2 == 777 && t.statusWord == 0x32) = true := by decide +kernel

theorem test_pshare_collision : gives .pshare
    { busy with coef := stored [42, 7, 5], clen := 3, n := 3, shx := stored [99], rng := [1, 2, 2, 3] } (fun t =>
    entries t.shx 3 == [1, 2, 3] && entries t.shy 3 == [54, 76, 108] && t.shn == 3 && t.rng == []) = true := by
  decide +kernel

theorem test_pshare_none : gives .pshare
    { busy with coef := stored [42, 7, 5], clen := 3, n := 0, shx := stored [99], shn := 1 } (fun t =>
    entries t.shx 1 == [99] && t.shn == 0 && t.statusWord == 2) = true := by decide +kernel

/-! ## Reconstruction (section 2.4) -/

/-- S2, the source's example. -/
theorem test_lrecon_source : gives (.lrecon 0)
    { busy with shx := stored [1, 4, 3, 2], shy := stored [3, 111, 59, 23], shn := 4 } (fun t =>
    t.operand 0 == pRef - 1 && t.statusWord == 2) = true := by decide +kernel

/-- `x` values 0 and `P` are congruent. -/
theorem test_lrecon_congruent : gives (.lrecon 2)
    { busy with f := regs 0 777, shx := stored [0, pRef], shy := stored [5, 6], shn := 2 } (fun t =>
    t.operand 2 == 777 && t.statusWord == 0x12) = true := by decide +kernel

/-! ## Byte strings and the reference primitives (section 2.5) -/

theorem test_pad_full_block : pad [0x42, 0x69, 0x2e, 0x74, 0x78, 0x74] [0x31, 0x32, 0x33, 0x34, 0x35, 0x36, 0x37, 0x38,
    0x39] = [0x42, 0x69, 0x2e, 0x74, 0x78, 0x74, 0x00, 0x31, 0x32, 0x33, 0x34, 0x35, 0x36, 0x37, 0x38, 0x39] ++
    List.replicate 16 0x30 := by decide

theorem test_pad_one : pad [0x42, 0x69, 0x2e, 0x74, 0x78, 0x74] [0x31, 0x32, 0x33, 0x34, 0x35, 0x36, 0x37, 0x38] =
    [0x42, 0x69, 0x2e, 0x74, 0x78, 0x74, 0x00, 0x31, 0x32, 0x33, 0x34, 0x35, 0x36, 0x37, 0x38, 0x31] := by decide

/-- Upper-case pad digit; nine other bytes before it are not looked at; a pad longer than the remainder. -/
theorem test_unpad_corners :
    unpad Params.reference ([0x4c, 0x00, 0x30, 0x31, 0x32, 0x33] ++ List.replicate 10 0x41) =
      .ok ([0x4c], [0x30, 0x31, 0x32, 0x33]) ∧
    unpad Params.reference ([0x4c, 0x00, 0x30, 0x31, 0x32, 0x33] ++ List.replicate 9 0x7a ++ [0x61]) =
      .ok ([0x4c], [0x30, 0x31, 0x32, 0x33]) ∧
    unpad Params.reference (0x00 :: List.replicate 15 0x30) = .error .decryptionError ∧
    unpad Params.reference ([0xff, 0x00] ++ List.replicate 14 0x31) = .error .decryptionError := by decide +kernel

theorem test_key_bytes : (bytesBe32 42).toList = List.replicate 31 0x00 ++ [0x2a] ∧ intBe [] = 0 := by decide +kernel

/-- The digest as an integer, most significant byte first. -/
theorem test_hash_password : (kdf Params.reference [0x70, 0x61, 0x73, 0x73, 0x77, 0x6f, 0x72, 0x64]).2 =
    42758200014260304871795218010112217441437394933425264440882844866153524052696 := by decide +kernel

theorem test_hash_abc : intBe (Params.reference.hashOf [0x61, 0x62, 0x63]).toList =
    0xba7816bf8f01cfea414140de5dae2223b00361a396177a9cb410ff61f20015ad := by decide +kernel

/-- `ENC` with key `00 01 .. 1f` of `00 11 .. ff`. -/
theorem test_cipher : intBe (Params.reference.enc (bytesBe32
      0x000102030405060708090a0b0c0d0e0f101112131415161718191a1b1c1d1e1f)
      ⟨(List.range 16).map fun i => BitVec.ofNat 8 (0x11 * i), by simp⟩).toList =
    0x8ea2b7ca516745bfeafc49904b496089 := by decide +kernel

/-- R89: a two-byte sequence is valid, a surrogate, an overlong form and a sequence cut short are not. -/
theorem test_text : Params.reference.validText [0xc3, 0xb1, 0x00] = true ∧
    Params.reference.validText [0xed, 0xa0, 0x80] = false ∧ Params.reference.validText [0xc0, 0x80] = false ∧
    Params.reference.validText [0xe2, 0x82] = false := by decide +kernel

/-! ## Envelope commands (section 2.6, vector E2: everything empty) -/

/-- `ENCRYPT` about to complete with empty password, label and content, one share and the answer 9. -/
def emptyEnvelope : State := { busy with n := 1, t := 1, rng := [9], coef := stored [11, 12], clen := 2 }

theorem test_encrypt_empty : gives .encrypt emptyEnvelope (fun t =>
    t.statusWord == 2 && intBe (t.contents .ct) == 0x7e1de15d44e5c0ee47ebc293f35c7989 && t.ctlen == 16 &&
    t.shareXs == [9] && t.shareYs == [0xe3b0c44298fc1c149afbf4c8996fb92427ae41e4649b934ca495991b7852b855] &&
    t.coef == [] && t.clen == 0 && t.rng == []) = true := by decide +kernel

theorem test_encrypt_threshold_above_count : gives .encrypt { emptyEnvelope with n := 2, t := 3 } (fun t =>
    t.statusWord == 0x32 && t.ctlen == 0 && t.clen == 2 && t.rng == [9]) = true := by decide +kernel

/-- What vector E2 leaves, before `DECRYPT` completes. -/
def emptySealed : State := { busy with
  mem := bytesAt 0x40000 [0x7e, 0x1d, 0xe1, 0x5d, 0x44, 0xe5, 0xc0, 0xee, 0x47, 0xeb, 0xc2, 0x93, 0xf3, 0x5c, 0x79, 0x89]
    Memory.empty
  ctlen := 16, shn := 1, shx := stored [9], lbllen := 3, datlen := 4
  shy := stored [0xe3b0c44298fc1c149afbf4c8996fb92427ae41e4649b934ca495991b7852b855] }

theorem test_decrypt_empty : gives .decrypt emptySealed (fun t =>
    t.statusWord == 2 && t.lbllen == 0 && t.datlen == 0) = true := by decide +kernel

/-- Step 3 of R170 comes before step 5: the reconstructed secret is `2^256`, and nothing changes. -/
theorem test_decrypt_wide_secret : gives .decrypt
    { busy with shx := stored [1], shy := stored [2 ^ 256], shn := 1, ctlen := 32, lbllen := 3 } (fun t =>
    t.statusWord == 0x22 && t.lbllen == 3) = true := by decide +kernel

/-! ## The host port (section 2.7) -/

theorem test_port_reserved : [0x00124, 0x00028, 0x00300, 0x01400, 0x11000, 0x50000, 0x00102].map
    (fun a => State.reset.memRead a 4) = List.replicate 7 .error := by decide +kernel

theorem test_port_ninth_word :
    ((State.reset.memWrite 0x00120 4 0xffffffff).1).operand 0 = 2 ^ 256 ∧
    ((State.reset.memWrite 0x00120 4 0xffffffff).1).memRead 0x00120 4 = .data 1 := by decide +kernel

theorem test_port_little_endian : ((State.reset.memWrite 0x10000 4 0x73736170).1).bufferBytes .pw 4 =
    [0x70, 0x61, 0x73, 0x73] ∧ (State.reset.memWrite 0x10000 1 0x70) = (State.reset, .error) := by decide +kernel

/-- The words of `P_REF`. -/
theorem test_port_words : (List.finRange 9).map (wordAt (BitVec.ofNat 257 pRef)) = [0xd7d46a41, 0x4292117d, 0x6da78d23,
    0x8a66b162, 0x3c7c654a, 0x73c1fa8e, 0x8b9093f4, 0xcca2d61c, 0x00000001] := by decide +kernel

/-- H18: `BUSY` read between issue and completion. -/
theorem test_port_status_busy :
    (State.hostTurn { busy with inbox := [.read 0x00004 4] }).outbox = [.data 1] := by decide +kernel

/-- H19: another read is held. -/
theorem test_port_hold :
    State.hostTurn { busy with inbox := [.read 0x00100 4] } = { busy with inbox := [.read 0x00100 4] } := by
  decide +kernel

/-! ## A case that meets the hypotheses of each statement that has some

Every theorem `witness_<Name>` below is about `Obligations.<Name>`; where a statement has several clauses, so has its
witness, at a value at the edge of the clause's range. -/

theorem legal : busy.cfg.Legal := reference_legal

/-- Parameters with a finite `RETRY_MAX`. -/
def finite (m : Nat) : Params := { Params.reference with retryMax := some m }

theorem finite_legal (m : Nat) (h : m ≠ 0) : (finite m).Legal where
  prime    := reference_legal.prime
  above    := reference_legal.above
  below    := reference_legal.below
  tMax_pos := reference_legal.tMax_pos
  tMax_le  := reference_legal.tMax_le
  nMax_le  := reference_legal.nMax_le
  buf_dvd  := reference_legal.buf_dvd
  buf_pos  := reference_legal.buf_pos
  buf_le   := reference_legal.buf_le
  retry    := by simpa [finite] using h

/-- A state with something in every part. -/
def sample : State := { busy with
  phase := .idle, f := regs 5 7, coef := stored [42, 7, 5], clen := 3, shx := stored [1, 2], shy := stored [54, 76]
  shn := 2, n := 2, t := 2, mem := bytesAt 0x40000 [1, 2] (bytesAt 0x10000 [0x70] Memory.empty), pwlen := 1
  ctlen := 2, done := true, err := some .zeroInverse }

theorem sample_storage : sample.StorageOk := storageCheck.elim (by decide +kernel)

theorem sample_inv : sample.Inv := ⟨legal, sample_storage, ⟨fun h => (by cases h), fun h => (by cases h)⟩, rfl⟩

theorem witness_DecodeAndEncodeAgree : decode 0x00077703 = .ok (.fmul 7 7 7) := by decide

theorem witness_DecodingFollowsTheRows :
    (0x00077703 : Word) &&& Opcode.fmul.mask = Opcode.fmul.pattern ∧
    (∀ o : Opcode, (0x00000820 : Word) &&& o.mask ≠ o.pattern) ∧
    State.cmdl { busy with cmdl := 0x00000820 } = 0x00000820 := by
  refine ⟨by decide, fun o => by cases o <;> decide, rfl⟩

theorem witness_IllegalWordsRaiseIllegalCommand :
    (0x80000001 : Word).extractLsb' 20 12 ≠ 0 ∧
    (∀ o : Opcode, o.byte ≠ (0x00000032 : Word).extractLsb' 0 8) ∧
    (Opcode.fadd.byte = (0x00000801 : Word).extractLsb' 0 8 ∧ Opcode.fadd.usesFd = true ∧
      8 ≤ ((0x00000801 : Word).extractLsb' 8 4).toNat) ∧
    (Opcode.pcons.byte = (0x00000110 : Word).extractLsb' 0 8 ∧ Opcode.pcons.usesFd = false ∧
      (0x00000110 : Word).extractLsb' 8 4 ≠ 0) ∧
    decode (State.cmdl { busy with cmdl := 0x00000820 }) = .error .registerIndex := by
  refine ⟨by decide, fun o => by cases o <;> decide, by decide, by decide, by decide⟩

theorem witness_StepMovesTheAgentWhoseTurnItIs :
    (State.reset.turns = [] ∧ State.reset.phase = .idle) ∧ (busy.turns = [] ∧ busy.phase = .busy) ∧
    State.turns { busy with turns := [.host] } = .host :: [] ∧
    (State.turns { State.reset with turns := [.sequencer] } = .sequencer :: [] ∧ State.reset.phase = .idle) ∧
    (State.turns { busy with turns := [.sequencer] } = .sequencer :: [] ∧ busy.phase = .busy) :=
  ⟨⟨rfl, rfl⟩, ⟨rfl, rfl⟩, rfl, ⟨rfl, rfl⟩, ⟨rfl, rfl⟩⟩

theorem witness_StepRunsTheDecodedCommand :
    let s : State := { busy with cmdl := 0x00021301, turns := [.sequencer] }
    s.phase = .busy ∧ decode s.cmdl = .ok (.fadd 3 1 2) ∧ s.turns = .sequencer :: [] ∧ busy.turns = [] ∧
    decodeTableWord 32 0x00000031 = some .decrypt := by decide

theorem witness_IssuedCommandRunsNext :
    let s : State := { State.reset with inbox := scriptCmd .pshare ++ [.read 4 4] }
    s.phase = .idle ∧ s.turns = [] ∧ s.inbox = scriptCmd .pshare ++ [.read 4 4] := ⟨rfl, rfl, rfl⟩

theorem witness_StepKeepsTheInvariant : sample.Inv ∧ step sample = .next sample := ⟨sample_inv, rfl⟩

theorem witness_ParametersNeverChange : step sample = .next sample := rfl

theorem witness_IssueLatchesTheCommand :
    State.reset.phase = .idle ∧ State.reset.turns = [] ∧
    State.inbox { State.reset with inbox := [.write 0 4 0xffffffff] } = .write 0 4 0xffffffff :: [] ∧
    State.inbox { State.reset with inbox := [.read 0 4] } = .read 0 4 :: [] := ⟨rfl, rfl, rfl, rfl⟩

/-- Held: a write, a 2-byte read of `STATUS`, a misaligned write. Not held: the read of `STATUS`, and any access in
line while idle. -/
theorem witness_BusyBlockHoldsTheHost :
    State.inbox { busy with inbox := [.write 4 4 0] } = .write 4 4 0 :: [] ∧ busy.phase = .busy ∧
    BusRequest.write 4 4 0 ≠ .read 4 4 ∧ State.inbox { busy with inbox := [.read 4 4] } = .read 4 4 :: [] ∧
    State.inbox { busy with inbox := [.read 4 2] } = .read 4 2 :: [] ∧ BusRequest.read 4 2 ≠ .read 4 4 ∧
    State.inbox { busy with inbox := [.write 0x10001 4 7] } = .write 0x10001 4 7 :: [] ∧
    BusRequest.write 0x10001 4 7 ≠ .read 4 4 ∧
    State.inbox { State.reset with inbox := [.write 8 4 5, .read 8 4] } = .write 8 4 5 :: [.read 8 4] ∧
    State.phase { State.reset with inbox := [.write 8 4 5, .read 8 4] } = .idle := by decide

/-- By the sequencer, by an entry of the schedule, by reset. -/
theorem witness_OnlyCompletionOrResetEndsBusy :
    (busy.phase = .busy ∧ ∃ t, step busy = .next t ∧ t.phase = .idle) ∧
    (∃ t, step { busy with turns := [.sequencer] } = .next t ∧ t.phase = .idle) ∧
    ∃ t, step { busy with turns := [.reset 0] } = .next t ∧ t.phase = .idle :=
  ⟨⟨rfl, _, rfl, rfl⟩, ⟨_, rfl, rfl⟩, ⟨_, rfl, rfl⟩⟩

/-- A command that waits for its first draw, and one that completes. -/
theorem witness_SequencerWaitsOrCompletes :
    let s : State := { busy with cmdl := 0x00001010, t := 2 }
    s.phase = .busy ∧ s.runLatched = .next s ∧ ∃ t, busy.runLatched = .next t ∧ t.phase = .idle :=
  ⟨rfl, rfl, _, rfl, rfl⟩

theorem witness_ErrorChangesNothingButStatus :
    busy.phase = .busy ∧ ∃ t, busy.runLatched = .next t ∧ t.phase = .idle ∧ t.err = some .illegalCommand :=
  ⟨rfl, _, rfl, rfl, rfl⟩

/-- Each error kind a command can report. -/
theorem witness_ErrorsComeOnlyFromTheirCommands :
    gives (.finv 0 0) busy (fun t => t.phase == .idle && t.err == some .zeroInverse) = true ∧
    gives .decrypt { busy with shn := 1 } (fun t => t.phase == .idle && t.err == some .decryptionError) = true ∧
    gives .encrypt busy (fun t => t.phase == .idle && t.err == some .invalidParameters) = true ∧
    gives (.pcons 0) { busy with t := 2, rng := [0, 0], cfg := finite 1 } (fun t =>
      t.phase == .idle && t.err == some .rngExhausted) = true := by decide +kernel

theorem witness_StatusReadsPhaseDoneAndError :
    busy.StatusOk ∧ busy.phase = .busy ∧ State.reset.StatusOk ∧ State.reset.phase = .idle ∧
    State.reset.done = false ∧ State.StatusOk { sample with err := none } ∧ sample.StatusOk ∧ sample.phase = .idle ∧
    sample.done = true ∧ sample.err = some .zeroInverse :=
  ⟨⟨fun _ => rfl, fun _ => rfl⟩, rfl, ⟨fun _ => rfl, fun _ => rfl⟩, rfl, rfl,
    ⟨fun h => (by cases h), fun h => (by cases h)⟩, ⟨fun h => (by cases h), fun h => (by cases h)⟩, rfl, rfl, rfl⟩

/-- Busy and idle; and a `PCONS` that would take one of the two answers. -/
theorem witness_ResetAbandonsTheCommand :
    State.turns { busy with turns := [.reset 1] } = .reset 1 :: [] ∧ busy.phase = .busy ∧
    State.turns { sample with turns := [.reset 0] } = .reset 0 :: [] ∧ sample.phase = .idle ∧
    (let s : State := { busy with turns := [.reset 5], cmdl := 0x00000010, t := 2, rng := [4, 9] }
     s.turns = .reset 5 :: [] ∧ s.phase = .busy ∧ ∃ t, s.runLatched = .next t ∧ t.phase = .idle) :=
  ⟨rfl, rfl, rfl, rfl, rfl, rfl, _, rfl, rfl⟩

theorem witness_CommandsWriteOnlyTheirDestinationRegister :
    (exec (.fadd 7 1 2) sample = .next (after (.fadd 7 1 2) sample) ∧ destReg (.fadd 7 1 2) ≠ some 6) ∧
    sample.cfg.Legal ∧ destReg (.fadd 7 1 2) = some 7 ∧ (after (.fadd 7 1 2) sample).err = none :=
  ⟨⟨rfl, by decide⟩, legal, rfl, rfl⟩

/-- One command for each clause, the entry or byte just outside what it writes. -/
theorem witness_CommandsWriteOnlyTheirRow :
    sample.cfg.Legal ∧ sample.StorageOk ∧
    (exec .pshare sample = .next (after .pshare sample) ∧ (∀ fs1, Instr.pshare ≠ .pcons fs1) ∧
      Instr.pshare ≠ .encrypt ∧ Instr.pshare ≠ .decrypt ∧ sample.n.toNat ≤ 2) ∧
    (exec (.pcons 1) sample = .next (after (.pcons 1) sample) ∧ sample.t.toNat ≤ 2) ∧
    (exec .decrypt sample = .next (after .decrypt sample) ∧ Instr.decrypt ≠ .pshare ∧ Instr.decrypt ≠ .encrypt ∧
      ¬ (Buffer.base .lbl ≤ 0x20000 ∧
        0x20000 < Buffer.base .lbl + BitVec.toNat (after .decrypt sample).lbllen) ∧
      ¬ (Buffer.base .dat ≤ 0x20000 ∧ 0x20000 < Buffer.base .dat + BitVec.toNat (after .decrypt sample).datlen)) ∧
    (gives .encrypt sample (fun _ => true) = true ∧
      ¬ (Buffer.base .ct ≤ 0x40010 ∧
        0x40010 < Buffer.base .ct + paddedLength (BitVec.toNat sample.lbllen) (BitVec.toNat sample.datlen))) := by
  refine ⟨legal, sample_storage, ⟨(gives.elim (P := fun _ => true) (by decide +kernel)).1, by simp, by simp, by simp,
    by decide⟩, ⟨(gives.elim (P := fun _ => true) (by decide +kernel)).1, by decide⟩,
    ⟨(gives.elim (P := fun _ => true) (by decide +kernel)).1, by simp, by simp, by decide +kernel, by decide⟩,
    by decide +kernel, by decide⟩

/-- A block that can seal and open: one byte in each of password, label and content, and one block of ciphertext. -/
def sealedNote : State := { busy with
  mem := bytesAt 0x40000 (List.replicate 16 0x21)
    (bytesAt 0x30000 [0x63] (bytesAt 0x20000 [0x62] (bytesAt 0x10000 [0x61] Memory.empty)))
  pwlen := 1, lbllen := 1, datlen := 1, ctlen := 16, n := 1, t := 1, rng := [9], shn := 1, shx := stored [9] }

/-- A byte written just above the length of each buffer of `sealedNote`. -/
def moreBytes (m : Memory 8) : Memory 8 :=
  bytesAt 0x40010 [0x24] (bytesAt 0x30001 [0x25] (bytesAt 0x20001 [0x26] (bytesAt 0x10001 [0x27] m)))

/-- `sample` and `sealedNote` with an entry or a byte more just above each count and length, and a command for each
clause. -/
theorem witness_EntriesAboveTheCountAreNotRead :
    (sample.coef.wf ∧ (stored [42, 7, 5, 9]).wf ∧
      (∀ j, j < sample.clen.toNat → Memory.read (stored [42, 7, 5, 9]) j = Memory.read sample.coef j) ∧
      exec (.peval 3 1) sample = .next (after (.peval 3 1) sample) ∧
      exec .pshare sample = .next (after .pshare sample)) ∧
    (sample.shx.wf ∧ sample.shy.wf ∧ (stored [1, 2, 9]).wf ∧ (stored [54, 76, 9]).wf ∧
      (∀ j, j < sample.shn.toNat → Memory.read (stored [1, 2, 9]) j = Memory.read sample.shx j ∧
        Memory.read (stored [54, 76, 9]) j = Memory.read sample.shy j) ∧
      exec (.lrecon 3) sample = .next (after (.lrecon 3) sample) ∧
      exec .decrypt sample = .next (after .decrypt sample)) ∧
    (sealedNote.mem.wf ∧ (moreBytes sealedNote.mem).wf ∧
      (sealedNote.SameContents (moreBytes sealedNote.mem) .pw ∧
        sealedNote.SameContents (moreBytes sealedNote.mem) .lbl ∧
        sealedNote.SameContents (moreBytes sealedNote.mem) .dat) ∧
      sealedNote.SameContents (moreBytes sealedNote.mem) .ct ∧
      exec .encrypt sealedNote = .next (after .encrypt sealedNote) ∧
      exec .decrypt sealedNote = .next (after .decrypt sealedNote)) := by
  refine ⟨⟨by decide +kernel, by decide +kernel, by decide +kernel, ?_, ?_⟩,
    ⟨by decide +kernel, by decide +kernel, by decide +kernel, by decide +kernel, by decide +kernel, ?_, ?_⟩,
    ⟨by decide +kernel, by decide +kernel, ⟨?_, ?_, ?_⟩, ?_, ?_, ?_⟩⟩
  case refine_5 | refine_6 | refine_7 | refine_8 => unfold State.SameContents; decide +kernel
  all_goals exact (gives.elim (P := fun _ => true) (by decide +kernel)).1

theorem witness_FaddWritesTheReducedSum : busy.cfg.Legal := legal

theorem witness_FsubWritesTheReducedDifference : busy.cfg.Legal := legal

theorem witness_FmulWritesTheReducedProduct : busy.cfg.Legal := legal

/-- The operands 1, and both that are congruent to 0. -/
theorem witness_FinvWritesTheInverseOrRaises :
    busy.cfg.Legal ∧ State.operand { busy with f := regs 1 0 } 1 % busy.cfg.p ≠ 0 ∧
    State.operand { busy with f := regs 1 0 } 2 % busy.cfg.p = 0 ∧
    State.operand { busy with f := regs pRef 0 } 1 % busy.cfg.p = 0 := by
  refine ⟨legal, by decide +kernel, by decide +kernel, by decide +kernel⟩

theorem witness_InverseTimesOperandIsOne :
    sample.cfg.Legal ∧ sample.operand 1 % sample.cfg.p ≠ 0 ∧ (3 : FReg) ≠ 1 := by
  refine ⟨legal, by decide +kernel, by decide⟩

theorem witness_FieldFunctionsObeyTheRingLaws : Nat.Prime pRef ∧ (1 : Nat) ≠ 0 ∧ 1 < pRef := by
  refine ⟨prime_pRef, by decide, by decide⟩

/-- `T = 1` with no draw, `T = 3` with a redraw, `T` at 0 and above the store, and redraws that run out. -/
theorem witness_PconsStoresARandomPolynomial :
    sample.cfg.Legal ∧ sample.StorageOk ∧ TakesCoefs none 5 1 [] [5] [] ∧
    TakesCoefs none 42 3 [7, 0, 5] [42, 7, 5] [] ∧ (0 : Word).toNat = 0 ∧ sample.cfg.tMax < (17 : Word).toNat ∧
    ExhaustsCoefs (some 1) 2 [0, 0, 9] [9] ∧ (finite 1).Legal ∧ State.StorageOk { sample with cfg := finite 1 } := by
  refine ⟨legal, sample_storage, (construct_ok_iff _ _ _ _ _ _ (by decide)).mp (by decide),
    (construct_ok_iff _ _ _ _ _ _ (by decide)).mp (by decide), rfl, by decide,
    (construct_exhausted_iff _ 0 _ _ _ (by decide)).mp (by decide), finite_legal 1 (by decide),
    storageCheck.elim (by decide +kernel)⟩

/-- `T = 2`, and `T = 1`. -/
theorem witness_TopCoefficientIsNotZero :
    (∀ d : Word, d = 1 ∨ d = 2 → State.StorageOk { sample with phase := .busy, t := d, rng := [0, 3] }) ∧
    sample.cfg.Legal ∧
    (∃ t, exec (.pcons 1) { sample with phase := .busy, t := 2, rng := [0, 3] } = .next t ∧
      CompletesOk { sample with phase := .busy, t := 2, rng := [0, 3] } t ∧ 2 ≤ t.clen.toNat) ∧
    (∃ t, exec (.pcons 1) { sample with phase := .busy, t := 1, rng := [0, 3] } = .next t ∧
      CompletesOk { sample with phase := .busy, t := 1, rng := [0, 3] } t ∧ t.clen = 1) ∧
    construct none 42 2 [0, 3] = .ok [42, 3] [] := by
  refine ⟨?_, legal, ⟨_, rfl, ⟨rfl, rfl, rfl⟩, by decide⟩, ⟨_, rfl, ⟨rfl, rfl, rfl⟩, by decide⟩, by decide⟩
  rintro d (rfl | rfl) <;> exact storageCheck.elim (by decide +kernel)

/-- Answers missing for a coefficient, for a redraw, for a share. -/
theorem witness_UnansweredDrawsDelayCompletion :
    sample.cfg.Legal ∧ AwaitsCoefs none 3 [] ∧ AwaitsCoefs none 2 [0] ∧
    (1 ≤ sample.clen.toNat ∧ sample.clen.toNat ≤ sample.cfg.tMax ∧ sample.n.toNat ≤ sample.cfg.nMax) ∧
    AwaitsShares none 2 [4, 4] ∧ ¬ EncryptRefused sample ∧ TakesCoefs none 5 2 [6] [5, 6] [] ∧
    AwaitsShares none 2 [] := by
  refine ⟨legal, (construct_waiting_iff _ 0 _ _ (by decide)).mp (by decide),
    (construct_waiting_iff _ 0 _ _ (by decide)).mp (by decide), by decide +kernel, ?_, ?_,
    (construct_ok_iff _ _ _ _ _ _ (by decide)).mp (by decide), ?_⟩
  · obtain ⟨xs, mid, h1, h2, h3⟩ := (drawShares_waiting_iff none 2 [] [4, 4]).mp (by decide)
    exact ⟨xs, mid, h1, h2, by simpa using h3⟩
  · unfold EncryptRefused
    decide +kernel
  · obtain ⟨xs, mid, h1, h2, h3⟩ := (drawShares_waiting_iff none 2 [] []).mp (by decide)
    exact ⟨xs, mid, h1, h2, by simpa using h3⟩

theorem witness_PevalWritesThePolynomialsValue :
    sample.cfg.Legal ∧ (1 ≤ sample.clen.toNat ∧ sample.clen.toNat ≤ sample.cfg.tMax) ∧
    busy.clen.toNat = 0 ∧ busy.cfg.tMax < (17 : Word).toNat := by
  refine ⟨legal, by decide +kernel, by decide, by decide⟩

/-- `x = P` beside `x = 0`. -/
theorem witness_EvaluationDependsOnTheResidue :
    let s : State := { sample with f := regs pRef 0 }
    s.cfg.Legal ∧ s.operand 1 % s.cfg.p = s.operand 2 % s.cfg.p ∧ 0 < s.cfg.p ∧ s.operand 1 = s.cfg.p - 0 ∧
    (s.operand 2 : Int) = (-((0 : Nat) : Int)) % (s.cfg.p : Int) ∧
    exec (.peval 3 1) s = .next (after (.peval 3 1) s) := by
  refine ⟨legal, by decide +kernel, by decide +kernel, by decide +kernel, by decide +kernel,
    (gives.elim (P := fun _ => true) (by decide +kernel)).1⟩

/-- A collision, no share at all, a bad count, and redraws that run out. -/
theorem witness_PshareStoresSharesOfThePolynomial :
    sample.cfg.Legal ∧ sample.StorageOk ∧
    (1 ≤ sample.clen.toNat ∧ sample.clen.toNat ≤ sample.cfg.tMax ∧ sample.n.toNat ≤ sample.cfg.nMax) ∧
    TakesShares none [] [4, 4, 1] [4, 1] [] ∧ TakesShares none [] [] [] [] ∧
    sample.cfg.nMax < (17 : Word).toNat ∧ ExhaustsShares (some 1) 2 [4, 4, 4, 1] [1] := by
  refine ⟨legal, sample_storage, by decide +kernel, ?_, rfl, by decide, ?_⟩
  · obtain ⟨xs, h1, h2, h3⟩ := (drawShares_ok_iff none 2 [] [4, 4, 1] [] [4, 1]).mp (by decide)
    rw [List.nil_append] at h1
    exact h1 ▸ h3
  · obtain ⟨xs, mid, h1, h2, h3⟩ := (drawShares_exhausted_iff (some 1) 2 [] [4, 4, 4, 1] [1]).mp (by decide)
    exact ⟨xs, mid, h1, h2, by simpa using h3⟩

theorem witness_ProducedSharesAreDistinct :
    let s : State := { sample with phase := .busy, rng := [4, 4, 1] }
    s.cfg.Legal ∧ s.StorageOk ∧ exec .pshare s = .next (after .pshare s) ∧ CompletesOk s (after .pshare s) ∧
    0 < 1 ∧ 1 < (after .pshare s).shn.toNat ∧ exec .encrypt emptyEnvelope = .next (after .encrypt emptyEnvelope) ∧
    CompletesOk emptyEnvelope (after .encrypt emptyEnvelope) := by
  refine ⟨legal, storageCheck.elim (by decide +kernel), (gives.elim (P := fun _ => true) (by decide +kernel)).1,
    ⟨rfl, by decide +kernel, by decide +kernel⟩, by decide, by decide +kernel,
    (gives.elim (P := fun _ => true) (by decide +kernel)).1, ⟨rfl, by decide +kernel, by decide +kernel⟩⟩

theorem distinct_sample : DistinctMod sample.cfg.p sample.shareXs := by
  unfold DistinctMod
  decide +kernel

/-- Two shares, two congruent ones, none and too many. -/
theorem witness_LreconWritesTheLagrangeSum :
    sample.cfg.Legal ∧ (1 ≤ sample.shn.toNat ∧ sample.shn.toNat ≤ sample.cfg.nMax) ∧
    DistinctMod sample.cfg.p sample.shareXs ∧
    ¬ DistinctMod sample.cfg.p (State.shareXs { sample with shx := stored [0, pRef] }) ∧
    busy.shn.toNat = 0 ∧ busy.cfg.nMax < (17 : Word).toNat := by
  refine ⟨legal, by decide +kernel, distinct_sample, ?_, by decide, by decide⟩
  unfold DistinctMod
  decide +kernel

/-- The line `32 + 22 x` through `(1, 54)` and `(2, 76)`. -/
theorem witness_ReconstructionFindsTheConstantTerm :
    sample.cfg.Legal ∧ 1 ≤ sample.shn.toNat ∧ sample.shn.toNat ≤ sample.cfg.nMax ∧
    DistinctMod sample.cfg.p sample.shareXs ∧ [32, 22].length ≤ sample.shn.toNat ∧
    ∀ i, i < sample.shn.toNat → (Memory.read sample.shy i).toNat % sample.cfg.p =
      polyValue sample.cfg.p [32, 22] (Memory.read sample.shx i).toNat := by
  refine ⟨legal, by decide +kernel, by decide +kernel, distinct_sample, by decide +kernel, ?_⟩
  intro i hi
  have h2 : sample.shn.toNat = 2 := by decide +kernel
  obtain rfl | rfl : i = 0 ∨ i = 1 := by omega
  all_goals
    simp only [polyValue, List.length_cons, List.length_nil, Finset.sum_range_succ, Finset.sum_range_zero]
    decide +kernel

/-- `PCONS` of 42 with threshold 2, then three shares, then two of them in another order. -/
def made : State := { sample with phase := .busy, f := regs 42 0, t := 2, rng := [7] }

/-- The state in which `PSHARE` runs. -/
def sharing : State := { after (.pcons 1) made with phase := .busy, n := 3, rng := [1, 2, 3] }

/-- The state in which `LRECON` runs. -/
def chosen : State := { after .pshare sharing with shx := stored [3, 1], shy := stored [63, 49], shn := 2 }

theorem witness_EnoughSharesReconstructTheSecret :
    made.cfg.Legal ∧ made.StorageOk ∧
    exec (.pcons 1) made = .next (after (.pcons 1) made) ∧ CompletesOk made (after (.pcons 1) made) ∧
    sharing.cfg = made.cfg ∧ sharing.StorageOk ∧ sharing.coef = (after (.pcons 1) made).coef ∧
    sharing.clen = (after (.pcons 1) made).clen ∧
    exec .pshare sharing = .next (after .pshare sharing) ∧ CompletesOk sharing (after .pshare sharing) ∧
    chosen.cfg = made.cfg ∧ HoldsShares (after .pshare sharing) chosen [2, 0] ∧ [2, 0].Nodup ∧
    (∀ j ∈ [2, 0], j < (after .pshare sharing).shn.toNat) ∧ made.t.toNat ≤ [2, 0].length := by
  refine ⟨legal, storageCheck.elim (by decide +kernel), (gives.elim (P := fun _ => true) (by decide +kernel)).1,
    ⟨rfl, by decide +kernel, by decide +kernel⟩, by decide +kernel, storageCheck.elim (by decide +kernel), by decide +kernel,
    by decide +kernel,
    (gives.elim (P := fun _ => true) (by decide +kernel)).1, ⟨rfl, by decide +kernel, by decide +kernel⟩,
    by decide +kernel, ⟨by decide +kernel, ?_, ?_⟩, by decide, by decide +kernel, by decide +kernel⟩
  · decide +kernel
  · decide +kernel

theorem witness_ShareOrderDoesNotMatter :
    let u : State := { sample with shx := stored [2, 1], shy := stored [76, 54] }
    sample.cfg.Legal ∧ u.cfg = sample.cfg ∧
    (sample.shareXs.zip sample.shareYs).Perm (u.shareXs.zip u.shareYs) := by
  refine ⟨legal, rfl, ?_⟩
  decide +kernel

/-- A share at `P`, the non-canonical zero; and one share. -/
theorem witness_ShareAtZeroAndSingleShare :
    let s : State := { sample with shx := stored [1, pRef] }
    s.cfg.Legal ∧ 1 ≤ s.shn.toNat ∧ s.shn.toNat ≤ s.cfg.nMax ∧ 1 < s.shn.toNat ∧ DistinctMod s.cfg.p s.shareXs ∧
    (Memory.read s.shx 1).toNat % s.cfg.p = 0 ∧ State.shn { sample with shn := 1 } = 1 := by
  refine ⟨legal, by decide +kernel, by decide +kernel, by decide +kernel, ?_, by decide +kernel, rfl⟩
  unfold DistinctMod
  decide +kernel

/-- The edges of the three digit ranges, and the bytes just outside them. -/
theorem witness_HexDigitsReadBothCases :
    (0x30 ≤ (0x30 : Byte).toNat ∧ (0x39 : Byte).toNat ≤ 0x39) ∧
    (0x61 ≤ (0x61 : Byte).toNat ∧ (0x66 : Byte).toNat ≤ 0x66) ∧
    (0x41 ≤ (0x41 : Byte).toNat ∧ (0x46 : Byte).toNat ≤ 0x46) ∧
    ∀ c ∈ [(0x2f : Byte), 0x3a, 0x40, 0x47, 0x60, 0x67], ¬ (0x30 ≤ c.toNat ∧ c.toNat ≤ 0x39) ∧
      ¬ (0x61 ≤ c.toNat ∧ c.toNat ≤ 0x66) ∧ ¬ (0x41 ≤ c.toNat ∧ c.toNat ≤ 0x46) := by decide

theorem witness_UnpadSplitsOrRaises :
    unpad Params.reference (0x00 :: List.replicate 15 0x66) = .ok ([], []) ∧
    unpad Params.reference [] = .error .decryptionError := by decide +kernel

theorem witness_UnpadUndoesPad :
    (0x00 : Byte) ∉ ([] : List Byte) ∧ Params.reference.validText (pad [] [0x00]) = true := by decide +kernel

theorem witness_ReferenceTextTestFollowsTheTable :
    Params.reference.text = .reference ∧ Utf8Row [0xf4, 0x8f, 0xbf, 0xbf] := by
  refine ⟨rfl, ?_⟩
  simp [Utf8Row]

theorem witness_KeyFormsStayIdentical : 2 ^ 256 - 1 < 2 ^ 256 ∧ Params.reference.Legal :=
  ⟨by decide, reference_legal⟩

theorem witness_BlockModeWorksBlockByBlock :
    (List.replicate 32 (0x41 : Byte)).length % 16 = 0 ∧ 1 < (List.replicate 32 (0x41 : Byte)).length / 16 ∧
    List.Vector.toList (⟨List.replicate 16 0x41, rfl⟩ : Bytes 16) =
      ((List.replicate 32 (0x41 : Byte)).drop (16 * 1)).take 16 := by decide

theorem witness_EqualBlocksEncipherEqually :
    let m : List Byte := List.replicate 32 0x41
    m.length % 16 = 0 ∧ 0 < m.length / 16 ∧ 1 < m.length / 16 ∧
    (m.drop (16 * 0)).take 16 = (m.drop (16 * 1)).take 16 := by decide

/-- One share with `T = 1`; a refused count; and each place where redraws can run out. -/
theorem witness_EncryptWritesCiphertextAndShares :
    emptyEnvelope.cfg.Legal ∧ emptyEnvelope.StorageOk ∧ EncryptRefused busy ∧ ¬ EncryptRefused emptyEnvelope ∧
    (∃ coefs mid rest, TakesCoefs none (intBe (emptyEnvelope.cfg.hashOf []).toList) 1 [9] coefs mid ∧
      TakesShares none [] mid [9] rest ∧ [9].length = emptyEnvelope.n.toNat) ∧
    ExhaustsCoefs (some 1) 2 [0, 0] [] ∧ TakesCoefs (some 1) 5 2 [0, 6, 4, 4, 4] [5, 6] [4, 4, 4] ∧
    ExhaustsShares (some 1) 2 [4, 4, 4] [] ∧ ¬ EncryptRefused { emptyEnvelope with n := 2, t := 2, cfg := finite 1 } ∧
    (finite 1).Legal := by
  refine ⟨legal, storageCheck.elim (by decide +kernel), .inl rfl, ?_, ⟨[_], [9], [], .inl ⟨rfl, rfl, rfl⟩, ?_,
    by decide⟩, (construct_exhausted_iff _ 0 _ _ _ (by decide)).mp (by decide),
    (construct_ok_iff _ _ _ _ _ _ (by decide)).mp (by decide), ?_, ?_, finite_legal 1 (by decide)⟩
  · unfold EncryptRefused
    decide +kernel
  · obtain ⟨xs, h1, h2, h3⟩ := (drawShares_ok_iff none 1 [] [9] [] [9]).mp (by decide)
    rw [List.nil_append] at h1
    exact h1 ▸ h3
  · obtain ⟨xs, mid, h1, h2, h3⟩ := (drawShares_exhausted_iff (some 1) 2 [] [4, 4, 4] []).mp (by decide)
    exact ⟨xs, mid, h1, h2, by simpa using h3⟩
  · unfold EncryptRefused
    decide +kernel

theorem emptyEnvelope_runs : gives .encrypt emptyEnvelope (fun t =>
    t.phase == .idle && t.err == none && storageCheck t && t.shn == 1 && t.cfg == emptyEnvelope.cfg) = true := by
  decide +kernel

theorem witness_EncryptLeavesNoPolynomial :
    emptyEnvelope.Inv ∧ exec .encrypt emptyEnvelope = .next (after .encrypt emptyEnvelope) ∧
    CompletesOk emptyEnvelope (after .encrypt emptyEnvelope) := by
  have h := gives.elim emptyEnvelope_runs
  have h2 := h.2
  simp only [Bool.and_eq_true, beq_iff_eq] at h2
  exact ⟨⟨legal, storageCheck.elim (by decide +kernel), ⟨fun _ => rfl, fun _ => rfl⟩, rfl⟩, h.1,
    ⟨rfl, h2.1.1.1.1, h2.1.1.1.2⟩⟩

/-- A share `(0, y)` gives the secret `y`: the clauses of the statement for `y = 2^256`, for a bad length, for
deciphered bytes that are refused, and for a payload that unpads. -/
theorem witness_DecryptWritesLabelAndContentOrRaises :
    busy.cfg.Legal ∧ busy.StorageOk ∧ busy.shn.toNat = 0 ∧ busy.cfg.bufMax < (4112 : Word).toNat ∧
    (1 ≤ sample.shn.toNat ∧ sample.shn.toNat ≤ sample.cfg.nMax ∧ sample.ctlen.toNat ≤ sample.cfg.bufMax) ∧
    ¬ DistinctMod sample.cfg.p (State.shareXs { sample with shx := stored [0, pRef] }) ∧
    DistinctMod sample.cfg.p sample.shareXs ∧ 2 ^ 256 < sample.cfg.p ∧
    (let u := emptySealed
     let secret := 0xe3b0c44298fc1c149afbf4c8996fb92427ae41e4649b934ca495991b7852b855
     secret < u.cfg.p ∧ secret < 2 ^ 256 ∧ u.ctlen.toNat ≠ 0 ∧ u.ctlen.toNat % 16 = 0 ∧
     unpad u.cfg (ecbDec u.cfg (bytesBe32 secret) (u.bufferBytes .ct u.ctlen.toNat)) = .ok ([], [])) := by
  refine ⟨legal, storageCheck.elim (by decide +kernel), rfl, by decide, by decide +kernel, ?_, distinct_sample,
    by decide +kernel, by decide +kernel⟩
  unfold DistinctMod
  decide +kernel

/-- The one share of vector E2 decrypts its ciphertext. -/
theorem witness_DecryptUndoesEncrypt :
    let u := after .encrypt emptyEnvelope
    emptyEnvelope.cfg.Legal ∧ emptyEnvelope.StorageOk ∧ exec .encrypt emptyEnvelope = .next u ∧
    CompletesOk emptyEnvelope u ∧ (0x00 : Byte) ∉ emptyEnvelope.bufferBytes .lbl emptyEnvelope.lbllen.toNat ∧
    emptyEnvelope.cfg.validText (pad (emptyEnvelope.bufferBytes .lbl emptyEnvelope.lbllen.toNat)
      (emptyEnvelope.bufferBytes .dat emptyEnvelope.datlen.toNat)) = true ∧
    u.cfg = emptyEnvelope.cfg ∧ u.StorageOk ∧ u.ctlen = u.ctlen ∧ HoldsShares u u [0] ∧ [0].Nodup ∧
    (∀ j ∈ [0], j < u.shn.toNat) ∧ emptyEnvelope.t.toNat ≤ [0].length := by
  have h := gives.elim emptyEnvelope_runs
  have h2 := h.2
  simp only [Bool.and_eq_true, beq_iff_eq] at h2
  have hn : BitVec.toNat (after .encrypt emptyEnvelope).shn = 1 := by rw [h2.1.2]; rfl
  refine ⟨legal, storageCheck.elim (by decide +kernel), h.1, ⟨rfl, h2.1.1.1.1, h2.1.1.1.2⟩, by decide +kernel,
    by decide +kernel, h2.2, storageCheck.elim h2.1.1.2, rfl, ⟨hn, ?_, ?_⟩, by decide, ?_, by decide⟩
  · intro k hk
    obtain rfl : k = 0 := by simpa using hk
    rfl
  · intro k hk
    obtain rfl : k = 0 := by simpa using hk
    rfl
  · intro j hj
    obtain rfl : j = 0 := by simpa using hj
    show 0 < BitVec.toNat (after .encrypt emptyEnvelope).shn
    omega

/-- Word 8 of `f[7]`, the last word of the last entry of `SHY`, the last word of `CT`. -/
theorem witness_ReadsReturnTheLatestWrite :
    sample.Inv ∧ ∀ a ∈ [0x002e0, 0x093e0, 0x40ffc, 0x00024],
      (sample.memWrite a 4 0xffffffff).2 = .written ∧ a ≠ 0x00000 ∧ a ≠ 0x00004 := by
  refine ⟨sample_inv, by decide +kernel⟩

/-- The first and the last address of every reserved range, and its neighbours. -/
theorem witness_ReservedAccessesAnswerError :
    busy.cfg.Legal ∧
    (∀ a ∈ [0x28, 0xfc, 0x124, 0x13c, 0x300, 0xffc, 0x1024, 0x1400, 0x4ffc, 0x5400, 0x8ffc, 0x9400, 0xcffc, 0xd000,
      0xfffc, 0x11000, 0x1fffc, 0x21000, 0x2fffc, 0x31000, 0x3fffc, 0x41000, 0x4fffc, 0x50000],
      Reserved busy.cfg a) ∧
    (∀ a ∈ [0x0, 0x4, 0x24, 0x100, 0x120, 0x2e0, 0x1000, 0x13e0, 0x5000, 0x53e0, 0x9000, 0x93e0, 0x10000, 0x10ffc,
      0x20000, 0x20ffc, 0x30000, 0x30ffc, 0x40000, 0x40ffc], a % 4 = 0 ∧ ¬ Reserved busy.cfg a) := by
  refine ⟨legal, ?_, ?_⟩ <;> (unfold Reserved; decide +kernel)

theorem witness_BufferWordsAreLittleEndian : sample.Inv ∧ 4 * 1023 < sample.cfg.bufMax :=
  ⟨sample_inv, by decide⟩

theorem witness_WordAccessesReachTheirOwnBits :
    sample.Inv ∧ ScriptLoc.Present sample.cfg (.f 7) ∧ ScriptLoc.Present sample.cfg (.store .coef 15) ∧
    ScriptLoc.Present sample.cfg (.store .shy 15) ∧ ScriptLoc.store .coef 15 ≠ .store .shy 15 := by
  refine ⟨sample_inv, trivial, ?_, ?_, by decide⟩ <;> (unfold ScriptLoc.Present; decide)

theorem witness_SetAndGetScriptsMoveWholeValues :
    let l := ScriptLoc.store .shx 15
    State.Inv { sample with inbox := scriptSet l 42 ++ [.read 4 4] } ∧
    State.phase { sample with inbox := scriptSet l 42 ++ [.read 4 4] } = .idle ∧ l.Present sample.cfg ∧
    State.inbox { sample with inbox := scriptSet l 42 ++ [.read 4 4] } = scriptSet l 42 ++ [.read 4 4] ∧
    State.inbox { sample with inbox := scriptGet l ++ [] } = scriptGet l ++ [] := by
  refine ⟨⟨legal, storageCheck.elim (by decide +kernel), ⟨fun h => (by cases h), fun h => (by cases h)⟩, rfl⟩, rfl, ?_,
    rfl, rfl⟩
  unfold ScriptLoc.Present
  decide

end Sys2Proof.Tests
end

section
/-! PROOFS. Whose move a step is (log entry 1), and the invariant right after a reset: the statements of
`00_scope.md`. -/

namespace Sys2Proof.Machine

/-! ## Whose turn it is -/

section Schedule

variable {s : State}

/-- With an empty schedule the default agent moves. -/
theorem step_of_turns_nil (h : s.turns = []) : step s = s.move s.defaultTurn := by
  simp only [step, h]

/-- Otherwise the first entry moves, and is used up before it does. -/
theorem step_of_turns_cons {who : Turn} {ts : List Turn} (h : s.turns = who :: ts) :
    step s = State.move { s with turns := ts } who := by
  simp only [step, h]

theorem State.defaultTurn_of_idle (h : s.phase = .idle) : s.defaultTurn = .host := by
  simp only [State.defaultTurn, h]

theorem State.defaultTurn_of_busy (h : s.phase = .busy) : s.defaultTurn = .sequencer := by
  simp only [State.defaultTurn, h]

@[simp] theorem State.move_host (s : State) : s.move .host = .next s.hostTurn := rfl

@[simp] theorem State.move_reset (s : State) (lost : Nat) : s.move (.reset lost) = .next (s.resetTurn lost) := rfl

/-- The sequencer's turn changes nothing while no command is under way (R35). -/
theorem State.move_sequencer_of_idle (h : s.phase = .idle) : s.move .sequencer = .next s := by
  simp only [State.move, State.sequencerTurn, h]

/-- While a command is under way the sequencer's turn is its completion step (R38). -/
theorem State.move_sequencer_of_busy (h : s.phase = .busy) : s.move .sequencer = s.runLatched := by
  simp only [State.move, State.sequencerTurn, h]

end Schedule

/-- Settles O5: the schedule picks the agent (`step_of_turns_nil`, `step_of_turns_cons`), and each agent's move is
known by the phase. -/
theorem stepMovesTheAgentWhoseTurnItIs : Obligations.StepMovesTheAgentWhoseTurnItIs := by
  intro s
  refine ⟨fun ht hp => ?emptyIdle, fun ht hp => ?emptyBusy, fun ts ht => ?host,
    fun ts ht hp => ?sequencerIdle, fun ts ht hp => ?sequencerBusy⟩
  case emptyIdle => rw [step_of_turns_nil ht, State.defaultTurn_of_idle hp, State.move_host]
  case emptyBusy => rw [step_of_turns_nil ht, State.defaultTurn_of_busy hp, State.move_sequencer_of_busy hp]
  case host => rw [step_of_turns_cons ht, State.move_host]
  case sequencerIdle => exact (step_of_turns_cons ht).trans (State.move_sequencer_of_idle hp)
  case sequencerBusy => exact (step_of_turns_cons ht).trans (State.move_sequencer_of_busy hp)

/-! ## The invariant after a reset -/

/-- A reset leaves every store and buffer with nothing listed, which is in form for any capacities (R42, R200). -/
theorem State.resetBlock_storageOk (s : State) : s.resetBlock.StorageOk where
  mem_wf      := Memory.empty_wf
  coef_wf     := Memory.empty_wf
  shx_wf      := Memory.empty_wf
  shy_wf      := Memory.empty_wf
  mem_within  := Memory.within_empty _
  coef_within := Memory.within_empty _
  shx_within  := Memory.within_empty _
  shy_within  := Memory.within_empty _

/-- `STATUS` reads 0 after a reset: idle, and neither `DONE` nor an error (R27, R42). -/
theorem State.resetBlock_statusOk (s : State) : s.resetBlock.StatusOk := ⟨nofun, fun _ => rfl⟩

/-- A reset establishes the invariant from any state of a legally built block, whatever its parameters (R200, R203). -/
theorem State.resetBlock_inv {s : State} (h : s.cfg.Legal) : s.resetBlock.Inv where
  legal   := h
  storage := s.resetBlock_storageOk
  status  := s.resetBlock_statusOk
  hidden  := rfl

/-- The state after reset is a fixed point of reset. -/
theorem State.resetBlock_reset : State.reset.resetBlock = State.reset := rfl

/-- Settles O10: a reset establishes the invariant for all legal parameters, and the reference parameters, which
`State.reset` carries, are legal (`reference_legal`). -/
theorem resetMeetsTheInvariant : Obligations.ResetMeetsTheInvariant := by
  unfold Obligations.ResetMeetsTheInvariant
  rw [← State.resetBlock_reset]
  exact State.resetBlock_inv reference_legal

end Sys2Proof.Machine
end

section
/-! PROOFS. What a completion step reads and what it writes, taken apart: every command's step is one of seven effects,
computed from the state at issue, then committed to it. Each statement about what a command changes, keeps or does not
read is then a statement about seven writes and about which effects a command has. -/

namespace Sys2Proof.Machine

/-! ## Effects -/

/-- What a completion step comes to (R38, R186), with every value it writes; `rest` are the answers left. -/
inductive Effect where
  /-- Draws are unanswered: nothing happens (log entry 6). -/
  | wait
  /-- Completion with an error. -/
  | fail (e : CmdError) (rest : List Answer)
  /-- A field register is written. -/
  | reg (r : FReg) (v : Nat)
  /-- A polynomial is written (R123). -/
  | coefs (c : List Nat) (len : Word) (rest : List Answer)
  /-- Shares are written (R128). -/
  | shares (xs ys : List Nat) (len : Word) (rest : List Answer)
  /-- A ciphertext and shares are written, the polynomial cleared (R165). -/
  | sealed (ct : List Byte) (xs ys : List Nat) (len : Word) (rest : List Answer)
  /-- A label and a content are written (R170). -/
  | opened (label content : List Byte)

/-- An effect written to the state. -/
def State.commit (s : State) : Effect → State
  | .wait => s
  | .fail e rest => State.complete { s with rng := rest } (some e)
  | .reg r v => (s.setReg r v).complete none
  | .coefs c len rest => (State.setCoefs { s with rng := rest } c len).complete none
  | .shares xs ys len rest => (State.setShares { s with rng := rest } xs ys len).complete none
  | .sealed ct xs ys len rest =>
    ((State.setBuffer { s with rng := rest } .ct ct).setShares xs ys len).clearCoefs.complete none
  | .opened label content => ((s.setBuffer .lbl label).setBuffer .dat content).complete none

/-- The effect of a value that may be missing because an inverse of zero was asked for (R182). -/
def Effect.ofValue (s : State) (r : FReg) : Option Nat → Effect
  | some v => .reg r v
  | none   => .fail .zeroInverse s.rng

/-- The effect of a command that draws, from what it does with the values drawn. -/
def Effect.ofDraws {α : Type} (k : α → List Answer → Effect) : Drawn α → Effect
  | .ok v rest      => k v rest
  | .exhausted rest => .fail .rngExhausted rest
  | .waiting        => .wait

/-- The effect of a payload that was deciphered, or of the error met (R170). -/
def Effect.ofPayload (s : State) : Except CmdError (List Byte × List Byte) → Effect
  | .ok (label, content) => .opened label content
  | .error e             => .fail e s.rng

/-- The effect of a command at a state: everything its completion step reads, and nothing it writes (`exec_eq`). -/
def effectOf (s : State) : Instr → Effect
  | .fadd fd fs1 fs2 => .reg fd (adderUnit s.cfg.p (s.operand fs1) (s.operand fs2) false)
  | .fsub fd fs1 fs2 => .reg fd (adderUnit s.cfg.p (s.operand fs1) (s.operand fs2) true)
  | .fmul fd fs1 fs2 => .reg fd (multiplierUnit s.cfg.p (s.operand fs1) (s.operand fs2))
  | .finv fd fs1 => .ofValue s fd (inverseUnit s.cfg.p (s.operand fs1))
  | .pcons fs1 =>
    if s.t.toNat = 0 ∨ s.cfg.tMax < s.t.toNat then .fail .invalidParameters s.rng
    else .ofDraws (fun c rest => .coefs c s.t rest)
      (construct s.cfg.retryMax (s.operand fs1 % s.cfg.p) s.t.toNat s.rng)
  | .peval fd fs1 =>
    if s.clen.toNat = 0 ∨ s.cfg.tMax < s.clen.toNat then .fail .invalidParameters s.rng
    else .reg fd (evaluatorUnit s.cfg.p s.coefs (s.operand fs1))
  | .pshare =>
    if s.clen.toNat = 0 ∨ s.cfg.tMax < s.clen.toNat ∨ s.cfg.nMax < s.n.toNat then .fail .invalidParameters s.rng
    else .ofDraws (fun xs rest => .shares xs (xs.map (evaluatorUnit s.cfg.p s.coefs)) s.n rest)
      (drawShares s.cfg.retryMax s.n.toNat [] s.rng)
  | .lrecon fd =>
    if s.shn.toNat = 0 ∨ s.cfg.nMax < s.shn.toNat then .fail .invalidParameters s.rng
    else .ofValue s fd (interpolatorUnit s.cfg.p s.shareXs s.shareYs)
  | .encrypt =>
    if s.encryptRefused then .fail .invalidParameters s.rng
    else .ofDraws
      (fun cx rest => .sealed (ecbEnc s.cfg (kdf s.cfg (s.contents .pw)).1 (pad (s.contents .lbl) (s.contents .dat)))
        cx.2 (cx.2.map (evaluatorUnit s.cfg.p cx.1)) s.n rest)
      (encryptDraws s.cfg.retryMax (kdf s.cfg (s.contents .pw)).2 s.t.toNat s.n.toNat s.rng)
  | .decrypt =>
    if s.shn.toNat = 0 ∨ s.cfg.nMax < s.shn.toNat ∨ s.cfg.bufMax < s.ctlen.toNat then .fail .invalidParameters s.rng
    else .ofPayload s (decryptPayload s.cfg s.shareXs s.shareYs (s.contents .ct))

/-! The shared operations of the model commit the effects named after them. -/

theorem State.commit_ofValue (s : State) (r : FReg) (v : Option Nat) :
    .next (s.commit (.ofValue s r v)) = s.finishReg r v := by
  cases v <;> rfl

theorem State.commit_ofDraws {α : Type} (s : State) (d : Drawn α) (f : α → List Answer → Effect)
    (k : α → State → Result) (h : ∀ v rest, .next (s.commit (f v rest)) = k v { s with rng := rest }) :
    .next (s.commit (.ofDraws f d)) = s.withDraws d k := by
  cases d with
  | ok v rest => exact h v rest
  | exhausted | waiting => rfl

/-- Every command reads its effect and commits it. -/
theorem exec_eq (i : Instr) (s : State) : exec i s = .next (s.commit (effectOf s i)) := by
  cases i with
  | fadd | fsub | fmul => rfl
  | finv fd fs1 => exact (s.commit_ofValue _ _).symm
  | pcons fs1 =>
    simp only [exec, execPcons, effectOf]
    split
    · rfl
    · exact (s.commit_ofDraws _ _ _ fun _ _ => rfl).symm
  | peval fd fs1 =>
    simp only [exec, execPeval, effectOf]
    split <;> rfl
  | pshare =>
    simp only [exec, execPshare, effectOf]
    split
    · rfl
    · exact (s.commit_ofDraws _ _ _ fun _ _ => rfl).symm
  | lrecon fd =>
    simp only [exec, execLrecon, effectOf]
    split
    · rfl
    · exact (s.commit_ofValue _ _).symm
  | encrypt =>
    simp only [exec, execEncrypt, effectOf]
    split
    · rfl
    · exact (s.commit_ofDraws _ _ _ fun _ _ => rfl).symm
  | decrypt =>
    simp only [exec, execDecrypt, effectOf]
    split
    · rfl
    · cases decryptPayload s.cfg s.shareXs s.shareYs (s.contents .ct) <;> rfl

theorem exec_next_iff {i : Instr} {s t : State} : exec i s = .next t ↔ s.commit (effectOf s i) = t := by
  rw [exec_eq, Host.Outcome.next.injEq]

theorem exec_of_effectOf {i : Instr} {s : State} {e : Effect} (h : effectOf s i = e) :
    exec i s = .next (s.commit e) := by
  rw [exec_eq, h]

/-! ## Which effects a command has -/

/-! Drawing takes answers from the front of the stream. -/

theorem Takes.suffix {bad : Nat → Bool} {limit : Option Nat} {stream rest : List Answer} {v : Nat}
    (h : Takes bad limit stream v rest) : rest <:+ stream := by
  obtain ⟨rejected, a, rfl, -⟩ := h
  exact ⟨rejected ++ [a], by simp⟩

theorem Exhausts.suffix {bad : Nat → Bool} {limit : Option Nat} {stream rest : List Answer}
    (h : Exhausts bad limit stream rest) : rest <:+ stream := by
  obtain ⟨rejected, m, -, rfl, -⟩ := h
  exact List.suffix_append _ _

theorem TakesCoefs.suffix {limit : Option Nat} {secret t : Nat} {stream rest : List Answer} {c : List Nat}
    (h : TakesCoefs limit secret t stream c rest) : rest <:+ stream := by
  obtain ⟨-, -, rfl⟩ | ⟨-, middle, onward, top, rfl, -, htop, -⟩ := h
  · exact List.suffix_rfl
  · exact htop.suffix.trans (List.suffix_append _ _)

theorem ExhaustsCoefs.suffix {limit : Option Nat} {t : Nat} {stream rest : List Answer}
    (h : ExhaustsCoefs limit t stream rest) : rest <:+ stream := by
  obtain ⟨-, middle, onward, rfl, -, htop⟩ := h
  exact htop.suffix.trans (List.suffix_append _ _)

theorem TakesShares.suffix {limit : Option Nat} {chosen xs : List Nat} {stream rest : List Answer}
    (h : TakesShares limit chosen stream xs rest) : rest <:+ stream := by
  induction xs generalizing chosen stream with
  | nil => exact (show stream = rest from h) ▸ List.suffix_rfl
  | cons x xs ih =>
    obtain ⟨mid, hx, hxs⟩ := h
    exact (ih hxs).trans hx.suffix

/-- What drawing a construction came to (R122, R123). -/
theorem construct_cases {limit : Option Nat} {secret t : Nat} {stream : List Answer} (ht : t ≠ 0) :
    (∃ c rest, construct limit secret t stream = .ok c rest ∧ TakesCoefs limit secret t stream c rest) ∨
      (∃ rest, construct limit secret t stream = .exhausted rest ∧ rest <:+ stream) ∨
      construct limit secret t stream = .waiting := by
  have ht' : 1 ≤ t := Nat.one_le_iff_ne_zero.mpr ht
  cases h : construct limit secret t stream with
  | ok c rest => exact .inl ⟨c, rest, rfl, (construct_ok_iff _ _ _ _ _ _ ht').mp h⟩
  | exhausted rest => exact .inr (.inl ⟨rest, rfl, ((construct_exhausted_iff _ _ _ _ _ ht').mp h).suffix⟩)
  | waiting => exact .inr (.inr rfl)

/-- What drawing `n` share coordinates came to (R122, R128). -/
theorem drawShares_cases {limit : Option Nat} {n : Nat} {stream : List Answer} :
    (∃ xs rest, drawShares limit n [] stream = .ok xs rest ∧ xs.length = n ∧
        TakesShares limit [] stream xs rest) ∨
      (∃ rest, drawShares limit n [] stream = .exhausted rest ∧ rest <:+ stream) ∨
      drawShares limit n [] stream = .waiting := by
  cases h : drawShares limit n [] stream with
  | ok xs rest =>
    obtain ⟨xs', rfl, hlen, hxs⟩ := (drawShares_ok_iff _ _ _ _ _ _).mp h
    exact .inl ⟨_, rest, rfl, hlen, hxs⟩
  | exhausted rest =>
    obtain ⟨xs, mid, -, hxs, hex⟩ := (drawShares_exhausted_iff _ _ _ _ _).mp h
    exact .inr (.inl ⟨rest, rfl, hex.suffix.trans hxs.suffix⟩)
  | waiting => exact .inr (.inr rfl)

/-- What the draws of `ENCRYPT` came to: those of a construction, then those of its shares (R165 steps 5, 6). -/
theorem encryptDraws_cases {limit : Option Nat} {secret t n : Nat} {stream : List Answer} (ht : t ≠ 0) :
    (∃ c xs mid rest, encryptDraws limit secret t n stream = .ok (c, xs) rest ∧ xs.length = n ∧ mid <:+ stream ∧
        TakesShares limit [] mid xs rest) ∨
      (∃ rest, encryptDraws limit secret t n stream = .exhausted rest ∧ rest <:+ stream) ∨
      encryptDraws limit secret t n stream = .waiting := by
  simp only [encryptDraws]
  obtain ⟨c, mid, hc, htakes⟩ | ⟨rest, hc, hrest⟩ | hc := construct_cases (limit := limit) (secret := secret)
    (stream := stream) ht <;> simp only [hc, Drawn.bind]
  · obtain ⟨xs, rest, hd, hlen, hxs⟩ | ⟨rest, hd, hrest⟩ | hd := drawShares_cases (limit := limit) (n := n)
      (stream := mid) <;> simp only [hd]
    · exact .inl ⟨c, xs, mid, rest, rfl, hlen, htakes.suffix, hxs⟩
    · exact .inr (.inl ⟨rest, rfl, hrest.trans htakes.suffix⟩)
    · exact .inr (.inr trivial)
  · exact .inr (.inl ⟨rest, rfl, hrest⟩)
  · exact .inr (.inr trivial)

/-! Results are canonical, and byte strings no longer than the buffers they go to. -/

theorem interpolatorUnit_lt {p v : Nat} {xs ys : List Nat} (hp : p.Prime) (h : interpolatorUnit p xs ys = some v) :
    v < p := by
  have : Fact p.Prime := ⟨hp⟩
  by_cases hd : DistinctMod p xs
  · obtain ⟨w, hw, hlt, -⟩ := recon_distinct xs ys hd
    rw [interpolatorUnit, hw] at h
    exact Option.some.inj h ▸ hlt
  · rw [interpolatorUnit, (recon_none_iff xs ys).mpr hd] at h
    cases h

theorem length_pad (l c : List Byte) : (pad l c).length = paddedLength l.length c.length := by
  simp only [pad, padCount, paddedLength, List.length_append, List.length_cons, List.length_replicate]
  omega

theorem length_ecbEnc_le (c : Params) (key : Bytes 32) (m : List Byte) : (ecbEnc c key m).length ≤ m.length := by
  simp only [ecbEnc, length_joinBlocks, List.length_map, length_blocksOf]
  omega

theorem length_ecbDec_le (c : Params) (key : Bytes 32) (m : List Byte) : (ecbDec c key m).length ≤ m.length := by
  simp only [ecbDec, length_joinBlocks, List.length_map, length_blocksOf]
  omega

@[simp] theorem State.length_contents (s : State) (b : Buffer) : (s.contents b).length = (s.lenOf b).toNat :=
  Memory.length_readList _ _ _

/-- The label and the content are pieces of what was unpadded (R84). -/
theorem unpad_length_le {c : Params} {b label content : List Byte} (h : unpad c b = .ok (label, content)) :
    label.length ≤ b.length ∧ content.length ≤ b.length := by
  -- of the branches only the last is no error
  simp only [unpad] at h
  repeat' split at h
  all_goals cases h
  all_goals
    simp only [List.length_take, List.length_drop]
    omega

theorem decryptPayload_length_le {c : Params} {xs ys : List Nat} {ct label content : List Byte}
    (h : decryptPayload c xs ys ct = .ok (label, content)) : label.length ≤ ct.length ∧ content.length ≤ ct.length := by
  simp only [decryptPayload] at h
  split at h
  · cases h
  split at h
  · cases h
  split at h
  · cases h
  obtain ⟨hl, hc⟩ := unpad_length_le h
  exact ⟨hl.trans (length_ecbDec_le _ _ _), hc.trans (length_ecbDec_le _ _ _)⟩

/-- The commands that draw (R122). -/
def DrawsAnswers (i : Instr) : Prop := (∃ fs1, i = .pcons fs1) ∨ i = .pshare ∨ i = .encrypt

/-- What is known of a command's effect: the shape its row of R34 allows, the bounds of what it writes, and that the
answers left are the last of those before (all of them, when the command draws none). -/
inductive Fits (s : State) : Instr → Effect → Prop
  | wait {i : Instr} (hi : DrawsAnswers i) : Fits s i .wait
  | fail {i : Instr} {e : CmdError} {rest : List Answer} (hrest : rest <:+ s.rng)
      (hi : ¬ DrawsAnswers i → rest = s.rng) : Fits s i (.fail e rest)
  | reg {i : Instr} {r : FReg} {v : Nat} (hr : destReg i = some r) (hv : s.cfg.p.Prime → v < s.cfg.p) :
      Fits s i (.reg r v)
  | coefs {fs1 : FReg} {c : List Nat} {rest : List Answer} (hlen : c.length = s.t.toNat)
      (hmax : s.t.toNat ≤ s.cfg.tMax) (hrest : rest <:+ s.rng) : Fits s (.pcons fs1) (.coefs c s.t rest)
  | shares {xs ys : List Nat} {rest : List Answer} (hlen : xs.length = s.n.toNat) (hys : ys.length = xs.length)
      (hmax : s.n.toNat ≤ s.cfg.nMax) (hxs : TakesShares s.cfg.retryMax [] s.rng xs rest) :
      Fits s .pshare (.shares xs ys s.n rest)
  | sealed {ct : List Byte} {xs ys : List Nat} {mid rest : List Answer}
      (hct : ct.length ≤ paddedLength s.lbllen.toNat s.datlen.toNat)
      (hlen : xs.length = s.n.toNat) (hys : ys.length = xs.length) (hok : ¬ EncryptRefused s)
      (hmid : mid <:+ s.rng) (hxs : TakesShares s.cfg.retryMax [] mid xs rest) :
      Fits s .encrypt (.sealed ct xs ys s.n rest)
  | opened {label content : List Byte} (hlabel : label.length ≤ s.cfg.bufMax)
      (hcontent : content.length ≤ s.cfg.bufMax) : Fits s .decrypt (.opened label content)

/-- A command that draws nothing and raises leaves the answers as they are. -/
theorem Fits.fail_self {s : State} {i : Instr} {e : CmdError} : Fits s i (.fail e s.rng) :=
  .fail List.suffix_rfl fun _ => rfl

theorem Fits.ofValue {s : State} {i : Instr} {r : FReg} {v : Option Nat} (hr : destReg i = some r)
    (hv : ∀ x, s.cfg.p.Prime → v = some x → x < s.cfg.p) : Fits s i (.ofValue s r v) := by
  cases v with
  | none => exact .fail_self
  | some x => exact .reg hr fun hp => hv x hp rfl

theorem encryptRefused_iff {s : State} : s.encryptRefused = true ↔ EncryptRefused s := decide_eq_true_iff

/-- What any command at any state comes to. -/
theorem effectOf_fits (s : State) (i : Instr) : Fits s i (effectOf s i) := by
  cases i with
  | fadd | fsub => exact .reg rfl fun hp => adderUnit_lt hp.pos _ _ _
  | fmul => exact .reg rfl fun hp => multiplierUnit_lt hp.pos _ _
  | finv => exact .ofValue rfl fun x hp hx => finv_lt hp.pos hx
  | pcons fs1 =>
    simp only [effectOf]
    split
    · exact .fail_self
    · next hbad =>
      push Not at hbad
      obtain ⟨c, rest, hc, htakes⟩ | ⟨rest, hc, hrest⟩ | hc :=
        construct_cases (limit := s.cfg.retryMax) (secret := s.operand fs1 % s.cfg.p) (stream := s.rng) hbad.1 <;>
        rw [hc]
      · exact .coefs htakes.length hbad.2 htakes.suffix
      · exact .fail hrest fun hi => absurd (.inl ⟨fs1, rfl⟩) hi
      · exact .wait (.inl ⟨fs1, rfl⟩)
  | peval fd fs1 =>
    simp only [effectOf]
    split
    · exact .fail_self
    · exact .reg rfl fun hp => horner_lt hp.pos _ _
  | pshare =>
    simp only [effectOf]
    split
    · exact .fail_self
    · next hbad =>
      push Not at hbad
      obtain ⟨xs, rest, hd, hlen, hxs⟩ | ⟨rest, hd, hrest⟩ | hd :=
        drawShares_cases (limit := s.cfg.retryMax) (n := s.n.toNat) (stream := s.rng) <;> rw [hd]
      · exact .shares hlen (List.length_map _) hbad.2.2 hxs
      · exact .fail hrest fun hi => absurd (.inr (.inl rfl)) hi
      · exact .wait (.inr (.inl rfl))
  | lrecon fd =>
    simp only [effectOf]
    split
    · exact .fail_self
    · exact .ofValue rfl fun x hp hx => interpolatorUnit_lt hp hx
  | encrypt =>
    simp only [effectOf]
    split
    · exact .fail_self
    · next hbad =>
      rw [encryptRefused_iff] at hbad
      obtain ⟨c, xs, mid, rest, hd, hlen, hmid, hxs⟩ | ⟨rest, hd, hrest⟩ | hd :=
        encryptDraws_cases (limit := s.cfg.retryMax) (secret := (kdf s.cfg (s.contents .pw)).2) (n := s.n.toNat)
          (stream := s.rng) (fun ht : s.t.toNat = 0 => hbad (.inr (.inl ht))) <;> rw [hd]
      · refine .sealed ?_ hlen (List.length_map _) hbad hmid hxs
        have := length_ecbEnc_le s.cfg (kdf s.cfg (s.contents .pw)).1 (pad (s.contents .lbl) (s.contents .dat))
        rwa [length_pad, State.length_contents, State.length_contents] at this
      · exact .fail hrest fun hi => absurd (.inr (.inr rfl)) hi
      · exact .wait (.inr (.inr rfl))
  | decrypt =>
    simp only [effectOf]
    split
    · exact .fail_self
    · next hbad =>
      push Not at hbad
      cases hp : decryptPayload s.cfg s.shareXs s.shareYs (s.contents .ct) with
      | error e => exact .fail_self
      | ok lc =>
        obtain ⟨hl, hc⟩ := decryptPayload_length_le hp
        rw [State.length_contents] at hl hc
        exact .opened (hl.trans hbad.2.2) (hc.trans hbad.2.2)

/-- Every completion step commits an effect that fits its command. -/
theorem exec_commits {i : Instr} {s t : State} (h : exec i s = .next t) : ∃ e, Fits s i e ∧ s.commit e = t :=
  ⟨effectOf s i, effectOf_fits s i, exec_next_iff.mp h⟩

end Sys2Proof.Machine
end

section
/-! PROOFS. One agent's move: what the host's turn does, what the sequencer's turn commits, and that both keep the
invariant: the statements of `10_state.md` about steps. -/

namespace Sys2Proof.Machine

/-! ## What every effect keeps -/

section Commit

variable (s : State) (e : Effect)

theorem State.commit_outside : SameOutside s (s.commit e) := by
  cases e <;> exact ⟨rfl, rfl, rfl, rfl⟩

@[simp] theorem State.commit_cfg : (s.commit e).cfg = s.cfg := (s.commit_outside e).cfg

/-- An effect other than waiting completes the command (R38 (d), (e), R41). -/
theorem State.commit_completes (h : e ≠ .wait) : ∃ err, (s.commit e).Completed err := by
  cases e with
  | wait => exact absurd rfl h
  | fail err => exact ⟨some err, rfl, rfl, rfl, rfl⟩
  | reg | coefs | shares | sealed | opened => exact ⟨none, rfl, rfl, rfl, rfl⟩

variable {s e}

/-- Answers are consumed from the front of the stream (R40). -/
theorem Fits.rng_suffix {i : Instr} (hf : Fits s i e) : (s.commit e).rng <:+ s.rng := by
  cases hf with
  | wait | reg | opened => exact List.suffix_rfl
  | fail hrest | coefs _ _ hrest => exact hrest
  | shares _ _ _ hxs => exact hxs.suffix
  | sealed _ _ _ _ hmid hxs => exact hxs.suffix.trans hmid

end Commit

/-- The latched word's completion step commits an effect; that of an illegal word, to raise, fits every command. -/
theorem State.runLatched_commits {s t : State} (h : s.runLatched = .next t) :
    ∃ i e, Fits s i e ∧ s.commit e = t := by
  unfold State.runLatched at h
  split at h
  · next i _ => exact ⟨i, exec_commits h⟩
  · cases h
    exact ⟨.pshare, _, .fail_self, rfl⟩

theorem State.runLatched_of_decode {s : State} {i : Instr} (h : decode s.cmdl = .ok i) : s.runLatched = exec i s := by
  simp only [State.runLatched, h]

/-- Settles O15: the step commits an effect, which is to wait or completes the command. -/
theorem sequencerWaitsOrCompletes : Obligations.SequencerWaitsOrCompletes := by
  intro s t _ h
  obtain ⟨i, e, hf, rfl⟩ := State.runLatched_commits h
  by_cases hw : e = .wait
  · exact .inl (by rw [hw]; rfl)
  · obtain ⟨err, hphase, hdone, -, hhidden⟩ := s.commit_completes e hw
    exact .inr ⟨hphase, hdone, hhidden, s.commit_outside e, _, List.suffix_iff_eq_drop.mp hf.rng_suffix⟩

/-! ## The `STATUS` word -/

section Status

variable {s : State}

/-- `BUSY` alone: a busy block shows neither `DONE` nor an error (R27). -/
theorem State.statusWord_of_busy (h : s.StatusOk) (hp : s.phase = .busy) : s.statusWord = 0x01 := by
  have hd := h.1 hp
  simp only [State.statusWord, State.busyBit, State.doneBit, State.errCode, hp, hd, h.2 hd]
  rfl

theorem State.statusWord_of_idle (h : s.StatusOk) (hp : s.phase = .idle) (hd : s.done = false) :
    s.statusWord = 0x00 := by
  simp only [State.statusWord, State.busyBit, State.doneBit, State.errCode, hp, hd, h.2 hd]
  rfl

theorem State.statusWord_of_done (hp : s.phase = .idle) (hd : s.done = true) (he : s.err = none) :
    s.statusWord = 0x02 := by
  simp only [State.statusWord, State.busyBit, State.doneBit, State.errCode, hp, hd, he]
  rfl

theorem State.statusWord_of_error {e : CmdError} (hp : s.phase = .idle) (hd : s.done = true) (he : s.err = some e) :
    s.statusWord.toNat = 0x02 + 0x10 * e.code.toNat := by
  simp only [State.statusWord, State.busyBit, State.doneBit, State.errCode, hp, hd, he]
  cases e <;> rfl

theorem State.memRead_status (s : State) : s.memRead 0x00004 4 = .data s.statusWord := rfl

theorem State.memWrite_status (s : State) (v : Word) : s.memWrite 0x00004 4 v = (s, .written) := rfl

end Status

/-- Settles O18: one lemma for each combination R27 allows. -/
theorem statusReadsPhaseDoneAndError : Obligations.StatusReadsPhaseDoneAndError := fun s h =>
  ⟨s.memRead_status, s.memWrite_status, State.statusWord_of_busy h, State.statusWord_of_idle h,
    State.statusWord_of_done, fun _ => State.statusWord_of_error⟩

/-! ## The host's turn -/

section HostTurn

variable {s : State} {q : BusRequest} {rest : List BusRequest}

theorem State.hostTurn_of_nil (h : s.inbox = []) : s.hostTurn = s := by
  simp only [State.hostTurn, h]

/-- A held access changes nothing and stays first in line (R37, log entry 7). -/
theorem State.hostTurn_of_held (h : s.inbox = q :: rest) (hq : s.holds q = true) : s.hostTurn = s := by
  simp only [State.hostTurn, h, hq, if_true]

/-- An access not held is carried out and answered (R60). -/
theorem State.hostTurn_of_not_held (h : s.inbox = q :: rest) (hq : s.holds q = false) :
    s.hostTurn = { (s.access q).1 with inbox := rest, outbox := s.outbox ++ [(s.access q).2] } := by
  simp only [State.hostTurn, h, hq, Bool.false_eq_true, if_false]

theorem State.hostTurn_cases (s : State) :
    s.hostTurn = s ∨ ∃ q rest, s.inbox = q :: rest ∧ s.holds q = false ∧
      s.hostTurn = { (s.access q).1 with inbox := rest, outbox := s.outbox ++ [(s.access q).2] } := by
  cases h : s.inbox with
  | nil => exact .inl (State.hostTurn_of_nil h)
  | cons q rest =>
    cases hq : s.holds q with
    | true => exact .inl (State.hostTurn_of_held h hq)
    | false => exact .inr ⟨q, rest, rfl, hq, State.hostTurn_of_not_held h hq⟩

theorem isStatusRead_iff : q.isStatusRead = true ↔ q = .read 0x00004 4 := by
  cases q <;> simp [BusRequest.isStatusRead]

theorem State.holds_of_idle (h : s.phase = .idle) : s.holds q = false := by
  simp only [State.holds, h]
  rfl

theorem State.holds_of_busy (h : s.phase = .busy) : s.holds q = !q.isStatusRead := by
  simp only [State.holds, h, beq_self_eq_true, Bool.true_and]

/-- The host cannot end a command (R37): all it can do while one is under way is read `STATUS`. -/
theorem State.hostTurn_phase_of_busy (h : s.phase = .busy) : s.hostTurn.phase = .busy := by
  obtain he | ⟨q, rest, -, hq, he⟩ := s.hostTurn_cases
  · rw [he, h]
  · rw [State.holds_of_busy h, Bool.not_eq_false', isStatusRead_iff] at hq
    rw [he, hq]
    exact h

theorem State.memRead_cmd (s : State) : s.memRead 0x00000 4 = .data 0 := rfl

theorem State.memWrite_cmd (s : State) (w : Word) : s.memWrite 0x00000 4 w = (s.issue w, .written) := rfl

end HostTurn

/-- Settles O13: an access is held exactly when the block is busy and it is no read of `STATUS`
(`State.hostTurn_of_held`, `State.hostTurn_of_not_held`, `isStatusRead_iff`). -/
theorem busyBlockHoldsTheHost : Obligations.BusyBlockHoldsTheHost := by
  intro s q rest hin
  refine ⟨fun hbusy hq => ?held, fun hq => ?status, fun hidle => ?idle⟩
  case held =>
    refine State.hostTurn_of_held hin ?_
    rw [State.holds_of_busy hbusy, Bool.not_eq_true', Bool.eq_false_iff, ne_eq, isStatusRead_iff]
    exact hq
  case status =>
    have hread : q.isStatusRead = true := isStatusRead_iff.mpr hq
    rw [State.hostTurn_of_not_held hin (by simp only [State.holds, hread, Bool.not_true, Bool.and_false]), hq]
    rfl
  case idle => exact State.hostTurn_of_not_held hin (State.holds_of_idle hidle)

/-- A step of an idle block with no schedule carries out and answers the host's first access (R60). -/
theorem step_of_access {s : State} {q : BusRequest} {rest : List BusRequest} (hidle : s.phase = .idle)
    (hturns : s.turns = []) (hin : s.inbox = q :: rest) :
    step s = .next { (s.access q).1 with inbox := rest, outbox := s.outbox ++ [(s.access q).2] } := by
  rw [step_of_turns_nil hturns, State.defaultTurn_of_idle hidle, State.move_host,
    State.hostTurn_of_not_held hin (State.holds_of_idle hidle)]

/-- Settles O12: the idle block carries out the access (`step_of_access`), a write or a read of `CMD`. -/
theorem issueLatchesTheCommand : Obligations.IssueLatchesTheCommand := by
  intro s w rest hidle hturns
  refine ⟨fun hin => ?write, fun hin => ?read⟩
  case write =>
    rw [step_of_access hidle hturns hin]
    simp only [State.access, State.memWrite_cmd]
    rfl
  case read =>
    rw [step_of_access hidle hturns hin]
    simp only [State.access, State.memRead_cmd]

/-! ## The command a step runs -/

/-- With the sequencer to move, by the schedule or by default, a step of a busy block is the latched word's. -/
theorem step_of_busy_nil {s : State} (hbusy : s.phase = .busy) (hturns : s.turns = []) : step s = s.runLatched := by
  rw [step_of_turns_nil hturns, State.defaultTurn_of_busy hbusy, State.move_sequencer_of_busy hbusy]

theorem step_of_busy_decoded {s : State} {i : Instr} (hbusy : s.phase = .busy) (hturns : s.turns = [])
    (hdec : decode s.cmdl = .ok i) : step s = exec i s :=
  (step_of_busy_nil hbusy hturns).trans (State.runLatched_of_decode hdec)

theorem decode_tableWord {nbits w : Nat} {i : Instr} (h : decodeTableWord nbits w = some i) :
    decode (tableWord nbits w) = .ok i := by
  simp only [decodeTableWord] at h
  split at h
  · next hi => rw [hi, Option.some.inj h]
  · cases h

/-- Settles O6: the sequencer's turn by default, by the schedule, and after the issue of a word. -/
theorem stepRunsTheDecodedCommand : Obligations.StepRunsTheDecodedCommand := by
  refine ⟨fun s i hbusy hdec => ⟨fun hturns => ?_, fun ts hturns => ?_⟩, fun s i nbits w hdec => ?_⟩
  · exact step_of_busy_decoded hbusy hturns hdec
  · exact (step_of_turns_cons hturns).trans
      ((State.move_sequencer_of_busy (s := { s with turns := ts }) hbusy).trans (State.runLatched_of_decode hdec))
  · exact step_of_busy_decoded rfl rfl (decode_tableWord hdec)

/-- The decoder undoes the encoder, over every register index (R70, R74). -/
theorem decode_encode (i : Instr) : decode (encode i) = .ok i := by
  cases i with
  | fadd fd fs1 fs2 | fsub fd fs1 fs2 | fmul fd fs1 fs2 => revert fd fs1 fs2; decide +kernel
  | finv fd fs1 | peval fd fs1 => revert fd fs1; decide +kernel
  | pcons fs1 => revert fs1; decide +kernel
  | lrecon fd => revert fd; decide +kernel
  | pshare | encrypt | decrypt => rfl

/-- Settles O7: the write to `CMD` issues the word, and the word decodes to the command (`decode_encode`). -/
theorem issuedCommandRunsNext : Obligations.IssuedCommandRunsNext := by
  intro s i rest hidle hturns hin
  refine ⟨{ s.issue (encode i) with inbox := rest, outbox := s.outbox ++ [.written] },
    step_of_access hidle hturns hin, ?runs, ?visible, rfl, rfl, rfl, ?status⟩
  case runs => exact step_of_busy_decoded rfl hturns (decode_encode i)
  case visible => exact ⟨rfl, rfl, rfl, rfl, rfl, rfl, rfl, rfl, rfl, rfl, rfl, rfl, rfl⟩
  case status => exact State.statusWord_of_busy ⟨fun _ => rfl, fun _ => rfl⟩ rfl

/-- Settles O14: the host's turn leaves a busy block busy (`State.hostTurn_phase_of_busy`), so the agent that moved was
the sequencer or the reset input. -/
theorem onlyCompletionOrResetEndsBusy : Obligations.OnlyCompletionOrResetEndsBusy := by
  intro s t hbusy hstep hidle
  cases hturns : s.turns with
  | nil => exact .inl ⟨rfl, step_of_busy_nil hbusy hturns ▸ hstep⟩
  | cons who ts =>
    rw [step_of_turns_cons hturns] at hstep
    cases who with
    | host =>
      cases hstep
      cases hidle.symm.trans (State.hostTurn_phase_of_busy (s := { s with turns := ts }) hbusy)
    | sequencer =>
      exact .inr (.inl ⟨ts, rfl, State.move_sequencer_of_busy (s := { s with turns := ts }) hbusy ▸ hstep⟩)
    | reset lost => exact .inr (.inr ⟨lost, ts, rfl⟩)

/-! ## Storage stays in form -/

section Storage

variable {s u : State}

/-- The form of the storage depends on the stores, the buffers and the capacities alone. -/
theorem State.StorageOk.congr (h : s.StorageOk) (hcfg : u.cfg = s.cfg) (hmem : u.mem = s.mem)
    (hcoef : u.coef = s.coef) (hshx : u.shx = s.shx) (hshy : u.shy = s.shy) : u.StorageOk where
  mem_wf      := hmem ▸ h.mem_wf
  coef_wf     := hcoef ▸ h.coef_wf
  shx_wf      := hshx ▸ h.shx_wf
  shy_wf      := hshy ▸ h.shy_wf
  mem_within  := by rw [hmem, hcfg]; exact h.mem_within
  coef_within := by rw [hcoef, hcfg]; exact h.coef_within
  shx_within  := by rw [hshx, hcfg]; exact h.shx_within
  shy_within  := by rw [hshy, hcfg]; exact h.shy_within

theorem State.StorageOk.complete (h : s.StorageOk) (e : Option CmdError) : (s.complete e).StorageOk :=
  h.congr rfl rfl rfl rfl rfl

theorem State.StorageOk.setRng (h : s.StorageOk) (rest : List Answer) : State.StorageOk { s with rng := rest } :=
  h.congr rfl rfl rfl rfl rfl

/-- Entries `0, 1, …` below a capacity may be written. -/
theorem writeList_entries_within {m : Memory 257} {cap : Nat} (h : m.within fun i => decide (i < cap))
    {vs : List FieldWord} (hlen : vs.length ≤ cap) : (Memory.writeList m 0 vs).within fun i => decide (i < cap) :=
  Memory.writeList_within h vs fun i hi => by simp only [decide_eq_true_eq]; omega

theorem State.StorageOk.setCoefs (h : s.StorageOk) {c : List Nat} (len : Word) (hlen : c.length ≤ s.cfg.tMax) :
    (s.setCoefs c len).StorageOk :=
  { h with
    coef_wf := Memory.writeList_wf h.coef_wf _ _
    coef_within := writeList_entries_within h.coef_within (by rwa [List.length_map]) }

theorem State.StorageOk.clearCoefs (h : s.StorageOk) : s.clearCoefs.StorageOk :=
  { h with
    coef_wf := Memory.writeList_wf h.coef_wf _ _
    coef_within := writeList_entries_within h.coef_within (by rw [List.length_replicate]) }

theorem State.StorageOk.setShares (h : s.StorageOk) {xs ys : List Nat} (len : Word)
    (hxs : xs.length ≤ s.cfg.nMax) (hys : ys.length ≤ s.cfg.nMax) : (s.setShares xs ys len).StorageOk :=
  { h with
    shx_wf := Memory.writeList_wf h.shx_wf _ _
    shx_within := writeList_entries_within h.shx_within (by rwa [List.length_map])
    shy_wf := Memory.writeList_wf h.shy_wf _ _
    shy_within := writeList_entries_within h.shy_within (by rwa [List.length_map]) }

theorem bufferAddr_iff {c : Params} {a : Nat} :
    bufferAddr c a = true ↔ ∃ b : Buffer, b.base ≤ a ∧ a < b.base + c.bufMax := by
  simp only [bufferAddr, List.any_eq_true, decide_eq_true_eq]
  exact ⟨fun ⟨b, _, hb⟩ => ⟨b, hb⟩, fun ⟨b, hb⟩ => ⟨b, by cases b <;> simp, hb⟩⟩

/-- Storage in form stays so when a memory in form replaces the bytes. -/
theorem State.StorageOk.setMem (h : s.StorageOk) {m : Memory 8} (hwf : m.wf) (hin : m.within (bufferAddr s.cfg)) :
    State.StorageOk { s with mem := m } :=
  { h with mem_wf := hwf, mem_within := hin }

theorem State.StorageOk.setBuffer (h : s.StorageOk) (b : Buffer) {bytes : List Byte}
    (hlen : bytes.length ≤ s.cfg.bufMax) : (s.setBuffer b bytes).StorageOk := by
  have hm := h.setMem (Memory.writeList_wf h.mem_wf b.base bytes)
    (Memory.writeList_within h.mem_within bytes fun i hi => bufferAddr_iff.mpr ⟨b, by omega, by omega⟩)
  cases b <;> exact hm.congr rfl rfl rfl rfl rfl

/-- An effect that fits its command keeps the storage in form. -/
theorem Fits.storageOk {i : Instr} {e : Effect} (hf : Fits s i e) (h : s.StorageOk) : (s.commit e).StorageOk := by
  cases hf with
  | wait => exact h
  | fail => exact (h.setRng _).complete _
  | reg => exact h.congr rfl rfl rfl rfl rfl
  | coefs hlen hmax => exact ((h.setRng _).setCoefs _ (hlen ▸ hmax)).complete _
  | shares hlen hys hmax =>
    exact ((h.setRng _).setShares _ (hlen ▸ hmax) (hys ▸ hlen ▸ hmax)).complete _
  | @sealed ct xs ys mid rest hct hlen hys hok =>
    simp only [EncryptRefused, not_or, not_lt] at hok
    obtain ⟨-, -, -, hn, -, -, -, -, hpad⟩ := hok
    refine State.StorageOk.complete (State.StorageOk.clearCoefs (State.StorageOk.setShares
      ((h.setRng rest).setBuffer .ct (hct.trans hpad)) _ ?_ ?_)) _
    · exact hlen ▸ hn
    · exact hys ▸ hlen ▸ hn
  | opened hlabel hcontent => exact ((h.setBuffer .lbl hlabel).setBuffer .dat hcontent).complete _

end Storage

/-! ## The invariant -/

section Invariant

variable {s : State}

/-- A completed block shows a legal `STATUS` and hides nothing (R27, R41). -/
theorem State.Completed.statusOk {e : Option CmdError} (h : s.Completed e) : s.StatusOk :=
  ⟨fun hp => absurd (h.phase.symm.trans hp) nofun, fun hd => absurd (h.done.symm.trans hd) nofun⟩

theorem Fits.inv {i : Instr} {e : Effect} (hf : Fits s i e) (h : s.Inv) : (s.commit e).Inv := by
  by_cases hw : e = .wait
  · rw [hw]
    exact h
  · obtain ⟨err, hdone⟩ := s.commit_completes e hw
    exact ⟨s.commit_cfg e ▸ h.legal, hf.storageOk h.storage, hdone.statusOk, hdone.hidden⟩

/-- What stands outside the block, other than its parameters, is no part of the invariant. -/
theorem State.Inv.setOutside (h : s.Inv) (rng : List Answer) (turns : List Turn) (inbox : List BusRequest)
    (outbox : List BusResponse) :
    State.Inv { s with rng := rng, turns := turns, inbox := inbox, outbox := outbox } :=
  ⟨h.legal, h.storage.congr rfl rfl rfl rfl rfl, h.status, h.hidden⟩

/-- A write of the host to a location that exists keeps the storage in form. -/
theorem State.StorageOk.writeLoc (h : s.StorageOk) (hc : s.cfg.Legal) {l : Loc} (hl : l.Exists s.cfg)
    (halign : l.addr % 4 = 0) (v : Word) : (s.writeLoc l v).StorageOk := by
  cases l with
  | cmd | status | field => exact h.congr rfl rfl rfl rfl rfl
  | count r => cases r <;> exact h.congr rfl rfl rfl rfl rfl
  | entry st i w =>
    have hi : decide (i < st.count s.cfg) = true := decide_eq_true hl
    cases st with
    | coef =>
      exact { h with
        coef_wf := Memory.write_wf h.coef_wf _ _, coef_within := Memory.write_within h.coef_within hi _ }
    | shx =>
      exact { h with
        shx_wf := Memory.write_wf h.shx_wf _ _, shx_within := Memory.write_within h.shx_within hi _ }
    | shy =>
      exact { h with
        shy_wf := Memory.write_wf h.shy_wf _ _, shy_within := Memory.write_within h.shy_within hi _ }
  | bytes a =>
    refine h.setMem (writeWord_wf h.mem_wf a v) (Memory.writeList_within h.mem_within _ fun i hi => ?_)
    obtain ⟨b, hlo, hhi⟩ := bufferAddr_iff.mp hl
    have hdvd : s.cfg.bufMax % 16 = 0 := Nat.mod_eq_zero_of_dvd hc.buf_dvd
    have hbase : b.base % 4 = 0 := by cases b <;> rfl
    simp only [Loc.addr] at halign
    simp only [List.length_cons, List.length_nil] at hi
    exact bufferAddr_iff.mpr ⟨b, by omega, by omega⟩

@[simp] theorem State.writeLoc_cfg (s : State) (l : Loc) (v : Word) : (s.writeLoc l v).cfg = s.cfg := by
  cases l with
  | cmd | status | field | bytes => rfl
  | count r => exact State.setCount_cfg _ _ _
  | entry st => exact State.setStore_cfg _ _ _

@[simp] theorem State.writeLoc_hidden (s : State) (l : Loc) (v : Word) : (s.writeLoc l v).hidden = s.hidden := by
  cases l with
  | cmd | status | field | bytes => rfl
  | count r => exact State.setCount_hidden _ _ _
  | entry st => exact State.setStore_hidden _ _ _

/-- Only an issue touches what `STATUS` shows, and it leaves it legal (R36). -/
theorem State.StatusOk.writeLoc (h : s.StatusOk) (l : Loc) (v : Word) : (s.writeLoc l v).StatusOk := by
  cases l with
  | cmd => exact ⟨fun _ => rfl, fun _ => rfl⟩
  | status | field | bytes => exact h
  | count r => cases r <;> exact h
  | entry st => cases st <;> exact h

theorem State.Inv.access (h : s.Inv) (q : BusRequest) : (s.access q).1.Inv := by
  cases q with
  | read => exact h
  | write a size v =>
    simp only [State.access, State.memWrite]
    split
    · next l hl =>
      obtain ⟨-, halign, rfl, hex⟩ := (accessLoc_eq_some h.legal).mp hl
      exact ⟨State.writeLoc_cfg s l v ▸ h.legal, h.storage.writeLoc h.legal hex halign v, h.status.writeLoc l v,
        (State.writeLoc_hidden s l v).trans h.hidden⟩
    · exact h

theorem State.Inv.hostTurn (h : s.Inv) : s.hostTurn.Inv := by
  obtain he | ⟨q, rest, -, -, he⟩ := s.hostTurn_cases
  · rwa [he]
  · rw [he]
    exact (h.access q).setOutside _ _ _ _

/-- Whoever moves, the invariant is kept. -/
theorem State.Inv.move {t : State} (h : s.Inv) {who : Turn} (hm : s.move who = .next t) : t.Inv := by
  cases who with
  | host =>
    cases hm
    exact h.hostTurn
  | sequencer =>
    cases hp : s.phase with
    | idle =>
      rw [State.move_sequencer_of_idle hp] at hm
      cases hm
      exact h
    | busy =>
      rw [State.move_sequencer_of_busy hp] at hm
      obtain ⟨i, e, hf, rfl⟩ := State.runLatched_commits hm
      exact hf.inv h
  | reset lost =>
    cases hm
    exact (State.resetBlock_inv h.legal).setOutside _ _ _ _

end Invariant

/-- Settles O9: the schedule is no part of the invariant, and whoever moves keeps it (`State.Inv.move`). -/
theorem stepKeepsTheInvariant : Obligations.StepKeepsTheInvariant := by
  intro s t h hstep
  cases hturns : s.turns with
  | nil =>
    rw [step_of_turns_nil hturns] at hstep
    exact h.move hstep
  | cons who ts =>
    rw [step_of_turns_cons hturns] at hstep
    exact (h.setOutside s.rng ts s.inbox s.outbox).move hstep

end Sys2Proof.Machine
end

section
/-! PROOFS. What a command writes, what it keeps and what it does not read: the statements of `10_state.md` about
commands. -/

namespace Sys2Proof.Machine

/-! ## The write table (R34) -/

section WriteTable

variable {s : State} {i : Instr} {e : Effect}

/-- No drawing command has a destination register (R22). -/
theorem DrawsAnswers.destReg (h : DrawsAnswers i) : destReg i = none := by
  obtain ⟨fs1, rfl⟩ | rfl | rfl := h <;> rfl

theorem Fits.reg_other (hf : Fits s i e) {r : FReg} (hr : destReg i ≠ some r) : (s.commit e).reg r = s.reg r := by
  cases hf with
  | reg hdest =>
    have hne : r ≠ _ := fun heq => hr (heq ▸ hdest)
    exact State.reg_setReg_other s _ hne
  | wait | fail | coefs | shares | sealed | opened => rfl

theorem toNat_toField {v : Nat} (h : v < 2 ^ 257) : (toField v).toNat = v := by
  simp only [toField, BitVec.toNat_ofNat, Nat.mod_eq_of_lt h]

theorem Fits.operand_dest (hf : Fits s i e) (hc : s.cfg.Legal) {r : FReg} (hr : destReg i = some r)
    (herr : (s.commit e).err = none) : (s.commit e).operand r < s.cfg.p := by
  cases hf with
  | wait hdraws => cases hr.symm.trans hdraws.destReg
  | fail => cases herr
  | @reg _ r' v hdest hv =>
    obtain rfl : r' = r := Option.some.inj (hdest.symm.trans hr)
    have hlt := hv hc.prime
    rw [State.operand, State.commit, State.reg_complete, State.reg_setReg_same, toNat_toField (hlt.trans hc.below)]
    exact hlt
  | coefs | shares | sealed | opened => cases hr

theorem Fits.coef_kept (hf : Fits s i e) (h1 : ∀ fs1, i ≠ .pcons fs1) (h2 : i ≠ .encrypt) :
    (s.commit e).coef = s.coef ∧ (s.commit e).clen = s.clen := by
  cases hf with
  | coefs => exact absurd rfl (h1 _)
  | sealed => exact absurd rfl h2
  | wait | fail | reg | shares | opened => exact ⟨rfl, rfl⟩

theorem Fits.shares_kept (hf : Fits s i e) (h1 : i ≠ .pshare) (h2 : i ≠ .encrypt) :
    (s.commit e).shx = s.shx ∧ (s.commit e).shy = s.shy ∧ (s.commit e).shn = s.shn := by
  cases hf with
  | shares => exact absurd rfl h1
  | sealed => exact absurd rfl h2
  | wait | fail | reg | coefs | opened => exact ⟨rfl, rfl, rfl⟩

theorem Fits.mem_kept (hf : Fits s i e) (h1 : i ≠ .encrypt) (h2 : i ≠ .decrypt) : (s.commit e).mem = s.mem := by
  cases hf with
  | sealed => exact absurd rfl h1
  | opened => exact absurd rfl h2
  | wait | fail | reg | coefs | shares => rfl

theorem Fits.openedLengths_kept (hf : Fits s i e) (h : i ≠ .decrypt) :
    (s.commit e).lbllen = s.lbllen ∧ (s.commit e).datlen = s.datlen := by
  cases hf with
  | opened => exact absurd rfl h
  | wait | fail | reg | coefs | shares | sealed => exact ⟨rfl, rfl⟩

theorem Fits.ctlen_kept (hf : Fits s i e) (h : i ≠ .encrypt) : (s.commit e).ctlen = s.ctlen := by
  cases hf with
  | sealed => exact absurd rfl h
  | wait | fail | reg | coefs | shares | opened => rfl

theorem Fits.rng_kept (hf : Fits s i e) (h : ¬ DrawsAnswers i) : (s.commit e).rng = s.rng := by
  cases hf with
  | fail _ hrest => exact hrest h
  | coefs => exact absurd (.inl ⟨_, rfl⟩) h
  | shares => exact absurd (.inr (.inl rfl)) h
  | sealed => exact absurd (.inr (.inr rfl)) h
  | wait | reg | opened => rfl

theorem State.commit_params (s : State) (e : Effect) :
    (s.commit e).n = s.n ∧ (s.commit e).t = s.t ∧ (s.commit e).pwlen = s.pwlen := by
  cases e <;> exact ⟨rfl, rfl, rfl⟩

/-- Storing `k` entries leaves those from `k` on as they were. -/
theorem read_stored_above {m : Memory 257} (hm : m.wf) {c : List Nat} {j : Nat} (h : c.length ≤ j) :
    Memory.read (Memory.writeList m 0 (c.map toField)) j = Memory.read m j :=
  Memory.read_writeList_out m hm _ _ _ (.inr (by rwa [List.length_map, Nat.zero_add]))

theorem Fits.coef_above {fs1 : FReg} (hf : Fits s (.pcons fs1) e) (h : s.StorageOk) {j : Nat} (hj : s.t.toNat ≤ j) :
    Memory.read (s.commit e).coef j = Memory.read s.coef j := by
  cases hf with
  | coefs hlen => exact read_stored_above h.coef_wf (hlen ▸ hj)
  | wait | fail | reg => rfl

theorem Fits.shares_above (hf : Fits s i e) (h : s.StorageOk) {j : Nat} (hj : s.n.toNat ≤ j) :
    Memory.read (s.commit e).shx j = Memory.read s.shx j ∧ Memory.read (s.commit e).shy j = Memory.read s.shy j := by
  cases hf with
  | shares hlen hys | sealed _ hlen hys =>
    exact ⟨read_stored_above h.shx_wf (hlen ▸ hj), read_stored_above h.shy_wf (hys ▸ hlen ▸ hj)⟩
  | wait | fail | reg | coefs | opened => exact ⟨rfl, rfl⟩

/-- A byte outside the range written keeps its value. -/
theorem read_writeList_outside {m : Memory 8} (hm : m.wf) {base a len : Nat} {bytes : List Byte}
    (hlen : bytes.length ≤ len) (ha : ¬ (base ≤ a ∧ a < base + len)) :
    Memory.read (Memory.writeList m base bytes) a = Memory.read m a :=
  Memory.read_writeList_out m hm _ _ _ (by omega)

theorem Fits.mem_outside_ciphertext (hf : Fits s .encrypt e) (h : s.StorageOk) {a : Nat}
    (ha : ¬ (Buffer.base .ct ≤ a ∧ a < Buffer.base .ct + paddedLength s.lbllen.toNat s.datlen.toNat)) :
    Memory.read (s.commit e).mem a = Memory.read s.mem a := by
  cases hf with
  | sealed hct => exact read_writeList_outside h.mem_wf hct ha
  | wait | fail | reg => rfl

/-- A length that fits a buffer is stored whole in its length register. -/
theorem length_eq_toNat_ofNat {c : Params} (hc : c.Legal) {bytes : List Byte} (h : bytes.length ≤ c.bufMax) :
    bytes.length = (BitVec.ofNat 32 bytes.length).toNat := by
  have := hc.buf_le
  rw [BitVec.toNat_ofNat, Nat.mod_eq_of_lt (by omega)]

theorem Fits.mem_outside_plaintext (hf : Fits s .decrypt e) (hc : s.cfg.Legal) (h : s.StorageOk) {a : Nat}
    (hlbl : ¬ (Buffer.base .lbl ≤ a ∧ a < Buffer.base .lbl + (s.commit e).lbllen.toNat))
    (hdat : ¬ (Buffer.base .dat ≤ a ∧ a < Buffer.base .dat + (s.commit e).datlen.toNat)) :
    Memory.read (s.commit e).mem a = Memory.read s.mem a := by
  cases hf with
  | opened hlabel hcontent =>
    exact (read_writeList_outside (Memory.writeList_wf h.mem_wf _ _) (length_eq_toNat_ofNat hc hcontent).le hdat).trans
      (read_writeList_outside h.mem_wf (length_eq_toNat_ofNat hc hlabel).le hlbl)
  | wait | fail | reg => rfl

end WriteTable

/-- Settles O21: of the effects only `reg` writes a register, the destination, with a reduced value. -/
theorem commandsWriteOnlyTheirDestinationRegister : Obligations.CommandsWriteOnlyTheirDestinationRegister := by
  intro i s t h
  obtain ⟨e, hf, rfl⟩ := exec_commits h
  exact ⟨fun r hr => hf.reg_other hr, fun r hc hr herr => hf.operand_dest hc hr herr⟩

/-- Settles O22: the write table row by row. -/
theorem commandsWriteOnlyTheirRow : Obligations.CommandsWriteOnlyTheirRow := by
  intro i s t hc hs h
  obtain ⟨e, hf, rfl⟩ := exec_commits h
  obtain ⟨hn, ht, hpw⟩ := s.commit_params e
  refine ⟨hf.coef_kept, ?coefAbove, hf.shares_kept, fun _ j hj => hf.shares_above hs hj, hn, ht, hpw,
    hf.openedLengths_kept, hf.ctlen_kept, hf.mem_kept, ?encrypt, ?decrypt, ?rng, s.commit_outside e⟩
  case coefAbove =>
    rintro fs1 rfl j hj
    exact hf.coef_above hs hj
  case encrypt =>
    rintro rfl a ha
    exact hf.mem_outside_ciphertext hs ha
  case decrypt =>
    rintro rfl a hlbl hdat
    exact hf.mem_outside_plaintext hc hs hlbl hdat
  case rng =>
    intro h1 h2 h3
    refine hf.rng_kept ?_
    rintro (⟨fs1, hi⟩ | hi | hi)
    · exact h1 fs1 hi
    · exact h2 hi
    · exact h3 hi

/-! ## What no command reads -/

/-- Settles O23: no effect depends on `STATUS`, the latch or a hidden register, and a completion overwrites them all. -/
theorem commandsReadNoStatusAndNoHiddenState : Obligations.CommandsReadNoStatusAndNoHiddenState := by
  intro i s d err hidden c ph s'
  have hread : effectOf s' i = effectOf s i := by cases i <;> rfl
  rw [exec_of_effectOf hread, exec_eq]
  cases effectOf s i with
  | wait => exact .inr ⟨rfl, rfl⟩
  | fail | reg | coefs | shares | sealed | opened => exact .inl rfl

section OtherStorage

variable {s : State} {i : Instr}

/-- `COEF` is read by `PEVAL` and `PSHARE` alone, below `CLEN` (R31). -/
theorem effectOf_setCoef {m : Memory 257} (h : (∃ fd fs1, i = .peval fd fs1) ∨ i = .pshare →
      ∀ j, j < s.clen.toNat → Memory.read m j = Memory.read s.coef j) :
    effectOf { s with coef := m } i = effectOf s i := by
  have hcoefs : (∃ fd fs1, i = .peval fd fs1) ∨ i = .pshare → State.coefs { s with coef := m } = s.coefs :=
    fun hi => entries_congr (h hi)
  cases i with
  | peval fd fs1 => rw [effectOf, hcoefs (.inl ⟨fd, fs1, rfl⟩)]; rfl
  | pshare => rw [effectOf, hcoefs (.inr rfl)]; rfl
  | fadd | fsub | fmul | finv | pcons | lrecon | encrypt | decrypt => rfl

/-- The shares are read by `LRECON` and `DECRYPT` alone, below `SHN` (R32). -/
theorem effectOf_setShares {mx my : Memory 257} (h : (∃ fd, i = .lrecon fd) ∨ i = .decrypt →
      ∀ j, j < s.shn.toNat → Memory.read mx j = Memory.read s.shx j ∧ Memory.read my j = Memory.read s.shy j) :
    effectOf { s with shx := mx, shy := my } i = effectOf s i := by
  have hxs : (∃ fd, i = .lrecon fd) ∨ i = .decrypt → State.shareXs { s with shx := mx, shy := my } = s.shareXs :=
    fun hi => entries_congr fun j hj => (h hi j hj).1
  have hys : (∃ fd, i = .lrecon fd) ∨ i = .decrypt → State.shareYs { s with shx := mx, shy := my } = s.shareYs :=
    fun hi => entries_congr fun j hj => (h hi j hj).2
  cases i with
  | lrecon fd => rw [effectOf, hxs (.inl ⟨fd, rfl⟩), hys (.inl ⟨fd, rfl⟩)]; rfl
  | decrypt => rw [effectOf, hxs (.inr rfl), hys (.inr rfl)]; rfl
  | fadd | fsub | fmul | finv | pcons | peval | pshare | encrypt => rfl

/-- The bytes are read by `ENCRYPT` and `DECRYPT` alone, below the length of each buffer read (R33). -/
theorem effectOf_setMem {m : Memory 8}
    (he : i = .encrypt → s.SameContents m .pw ∧ s.SameContents m .lbl ∧ s.SameContents m .dat)
    (hd : i = .decrypt → s.SameContents m .ct) :
    effectOf { s with mem := m } i = effectOf s i := by
  cases i with
  | encrypt =>
    obtain ⟨hpw, hlbl, hdat⟩ := he rfl
    rw [effectOf, State.contents_congr hpw, State.contents_congr hlbl, State.contents_congr hdat]; rfl
  | decrypt => rw [effectOf, State.contents_congr (hd rfl)]; rfl
  | fadd | fsub | fmul | finv | pcons | peval | pshare | lrecon => rfl

variable {e : Effect}

/-- An effect committed to a state with another `COEF` makes the same state but for `COEF`. -/
theorem State.commit_setCoef (m : Memory 257) :
    State.commit { s with coef := m } e =
      { s.commit e with coef := (State.commit { s with coef := m } e).coef } := by
  cases e <;> rfl

theorem State.commit_setCoef_alike {m : Memory 257} (hs : s.coef.wf) (hm : m.wf) :
    ChangeAlike s.coef (s.commit e).coef m (State.commit { s with coef := m } e).coef := by
  cases e with
  | coefs | sealed => exact .writeList hs hm _ _
  | wait | fail | reg | shares | opened => exact .refl _ _

theorem State.commit_setShares (mx my : Memory 257) :
    State.commit { s with shx := mx, shy := my } e =
      { s.commit e with
        shx := (State.commit { s with shx := mx, shy := my } e).shx
        shy := (State.commit { s with shx := mx, shy := my } e).shy } := by
  cases e <;> rfl

theorem State.commit_setShares_alike {mx my : Memory 257} (hx : s.shx.wf) (hy : s.shy.wf) (hmx : mx.wf)
    (hmy : my.wf) :
    ChangeAlike s.shx (s.commit e).shx mx (State.commit { s with shx := mx, shy := my } e).shx ∧
      ChangeAlike s.shy (s.commit e).shy my (State.commit { s with shx := mx, shy := my } e).shy := by
  cases e with
  | shares | sealed => exact ⟨.writeList hx hmx _ _, .writeList hy hmy _ _⟩
  | wait | fail | reg | coefs | opened => exact ⟨.refl _ _, .refl _ _⟩

theorem State.commit_setMem (m : Memory 8) :
    State.commit { s with mem := m } e =
      { s.commit e with mem := (State.commit { s with mem := m } e).mem } := by
  cases e <;> rfl

theorem State.commit_setMem_alike {m : Memory 8} (hs : s.mem.wf) (hm : m.wf) :
    ChangeAlike s.mem (s.commit e).mem m (State.commit { s with mem := m } e).mem := by
  cases e with
  | sealed => exact .writeList hs hm _ _
  | opened =>
    exact (ChangeAlike.writeList hs hm _ _).trans
      (.writeList (Memory.writeList_wf hs _ _) (Memory.writeList_wf hm _ _) _ _)
  | wait | fail | reg | coefs | shares => exact .refl _ _

end OtherStorage

/-- Settles O24: for each storage, the effect is the same from both states, and committing one effect to both changes
the storage alike and everything else equally. -/
theorem entriesAboveTheCountAreNotRead : Obligations.EntriesAboveTheCountAreNotRead := by
  refine ⟨?coef, ?shares, ?bytes⟩
  case coef =>
    intro i s t m hs hm hsame h
    obtain rfl := exec_next_iff.mp h
    have heff := effectOf_setCoef hsame
    have hf : Fits { s with coef := m } i (effectOf s i) := heff ▸ effectOf_fits _ i
    exact ⟨_, (exec_of_effectOf heff).trans (congrArg _ (State.commit_setCoef m)),
      State.commit_setCoef_alike hs hm, fun h1 h2 => (hf.coef_kept h1 h2).1⟩
  case shares =>
    intro i s t mx my hx hy hmx hmy hsame h
    obtain rfl := exec_next_iff.mp h
    have heff := effectOf_setShares hsame
    have hf : Fits { s with shx := mx, shy := my } i (effectOf s i) := heff ▸ effectOf_fits _ i
    obtain ⟨hxs, hys⟩ := State.commit_setShares_alike (e := effectOf s i) hx hy hmx hmy
    refine ⟨_, _, (exec_of_effectOf heff).trans (congrArg _ (State.commit_setShares mx my)), hxs, hys,
      fun h1 h2 => ?_⟩
    obtain ⟨hx', hy', -⟩ := hf.shares_kept h1 h2
    exact ⟨hx', hy'⟩
  case bytes =>
    intro i s t m hs hm he hd h
    obtain rfl := exec_next_iff.mp h
    have heff := effectOf_setMem he hd
    have hf : Fits { s with mem := m } i (effectOf s i) := heff ▸ effectOf_fits _ i
    exact ⟨_, (exec_of_effectOf heff).trans (congrArg _ (State.commit_setMem m)),
      State.commit_setMem_alike hs hm, hf.mem_kept⟩

/-! ## Unanswered draws -/

section Waiting

variable {s : State}

theorem exec_of_effectOf_wait {i : Instr} (h : effectOf s i = .wait) : exec i s = .next s := exec_of_effectOf h

/-- Which draws are made does not depend on the secret they hide. -/
theorem TakesCoefs.of_secret {limit : Option Nat} {secret t : Nat} {stream rest : List Answer} {c : List Nat}
    (h : TakesCoefs limit secret t stream c rest) (secret' : Nat) :
    ∃ c', TakesCoefs limit secret' t stream c' rest := by
  obtain ⟨ht, -, hrest⟩ | ⟨ht, middle, onward, top, hstream, hlen, htop, -⟩ := h
  · exact ⟨_, .inl ⟨ht, rfl, hrest⟩⟩
  · exact ⟨_, .inr ⟨ht, middle, onward, top, hstream, hlen, htop, rfl⟩⟩

theorem effectOf_encrypt_wait (hok : ¬ EncryptRefused s)
    (hd : encryptDraws s.cfg.retryMax (kdf s.cfg (s.contents .pw)).2 s.t.toNat s.n.toNat s.rng = .waiting) :
    effectOf s .encrypt = .wait := by
  rw [effectOf, if_neg (mt encryptRefused_iff.mp hok), hd]
  rfl

theorem one_le_of_not_refused (hok : ¬ EncryptRefused s) : 1 ≤ s.t.toNat :=
  Nat.one_le_iff_ne_zero.mpr fun ht => hok (.inr (.inl ht))

end Waiting

/-- Settles O33: in each case the draws come to `waiting`, so the effect is to wait. -/
theorem unansweredDrawsDelayCompletion : Obligations.UnansweredDrawsDelayCompletion := by
  intro s hc
  refine ⟨fun fs1 h1 hmax haw => exec_of_effectOf_wait ?pcons, fun h1 hmax hn haw => exec_of_effectOf_wait ?pshare,
    fun hok haw => exec_of_effectOf_wait (effectOf_encrypt_wait hok ?coefs),
    fun secret coefs mid hok htakes haw => exec_of_effectOf_wait (effectOf_encrypt_wait hok ?shares)⟩
  case pcons =>
    rw [effectOf, if_neg (by omega), (construct_waiting_iff _ _ _ _ h1).mpr haw]
    rfl
  case pshare =>
    rw [effectOf, if_neg (by omega), (drawShares_waiting_iff _ _ _ _).mpr haw]
    rfl
  case coefs =>
    rw [encryptDraws, (construct_waiting_iff _ _ _ _ (one_le_of_not_refused hok)).mpr haw]
    rfl
  case shares =>
    obtain ⟨c, hconstruct⟩ := htakes.of_secret (kdf s.cfg (s.contents .pw)).2
    rw [encryptDraws, (construct_ok_iff _ _ _ _ _ _ (one_le_of_not_refused hok)).mpr hconstruct]
    simp only [Drawn.bind]
    rw [(drawShares_waiting_iff _ _ _ _).mpr haw]

/-! ## What an error-free `PSHARE` or `ENCRYPT` leaves -/

section Shares

variable {s : State} {i : Instr} {e : Effect}

/-- A command that completed without error neither waits nor fails. -/
theorem CompletesOk.effect (h : CompletesOk s (s.commit e)) : e ≠ .wait ∧ ∀ err rest, e ≠ .fail err rest := by
  refine ⟨?_, ?_⟩
  · rintro rfl
    cases h.before.symm.trans h.after
  · rintro err rest rfl
    cases h.noErr

theorem Fits.stores_shares (hf : Fits s i e) (hi : i = .pshare ∨ i = .encrypt) (hok : CompletesOk s (s.commit e)) :
    ∃ stream xs rest, TakesShares s.cfg.retryMax [] stream xs rest ∧ xs.length = (s.commit e).shn.toNat ∧
      (s.commit e).shx = Memory.writeList s.shx 0 (xs.map toField) := by
  obtain ⟨hwait, hfail⟩ := hok.effect
  cases hf with
  | wait => exact absurd rfl hwait
  | fail => exact absurd rfl (hfail _ _)
  | reg hdest => obtain rfl | rfl := hi <;> cases hdest
  | shares hlen _ _ hxs => exact ⟨_, _, _, hxs, hlen, rfl⟩
  | sealed _ hlen _ _ _ hxs => exact ⟨_, _, _, hxs, hlen, rfl⟩
  | coefs | opened => obtain hi | hi := hi <;> cases hi

/-- Coordinates that are different and below `2^256` stay different modulo `P` where they are stored. -/
theorem read_stored_mod_ne {m : Memory 257} (hm : m.wf) {c : Params} (hc : c.Legal) {xs : List Nat}
    (hnodup : xs.Nodup) (hbelow : ∀ x ∈ xs, x < 2 ^ 256) {j k : Nat} (hjk : j < k) (hk : k < xs.length) :
    (Memory.read (Memory.writeList m 0 (xs.map toField)) j).toNat % c.p ≠
      (Memory.read (Memory.writeList m 0 (xs.map toField)) k).toNat % c.p := by
  have hread : ∀ l (hl : l < xs.length),
      (Memory.read (Memory.writeList m 0 (xs.map toField)) l).toNat % c.p = xs[l] := fun l hl => by
    have hlt : xs[l] < 2 ^ 256 := hbelow _ (List.getElem_mem hl)
    have habove := hc.above
    have hin := Memory.read_writeList_in m hm 0 (xs.map toField) (i := l) (by rwa [List.length_map])
    rw [Nat.zero_add, List.getElem_map] at hin
    rw [hin, toNat_toField (by omega), Nat.mod_eq_of_lt (by omega)]
  rw [hread j (hjk.trans hk), hread k hk]
  exact fun heq => hjk.ne ((hnodup.getElem_inj_iff).mp heq)

end Shares

/-- Settles O37: the coordinates taken are different and below `2^256 < P` (`TakesShares.nodup`,
`TakesShares.below`), so different modulo `P` (`read_stored_mod_ne`). -/
theorem producedSharesAreDistinct : Obligations.ProducedSharesAreDistinct := by
  intro i s t hi hc hs h hok j k hjk hk
  obtain ⟨e, hf, rfl⟩ := exec_commits h
  obtain ⟨stream, xs, rest, htakes, hlen, hshx⟩ := hf.stores_shares hi hok
  have hnodup : xs.Nodup := htakes.nodup List.nodup_nil
  have hne := read_stored_mod_ne hs.shx_wf hc hnodup htakes.below hjk (hlen ▸ hk)
  rw [hshx]
  exact ⟨fun heq => hne (congrArg (·.toNat % s.cfg.p) heq), hne⟩

/-- Where a memory lists nothing it reads 0. -/
theorem Memory.read_of_not_within {w : Nat} {m : Memory w} {p : Nat → Bool} (h : m.within p) {a : Nat}
    (ha : p a = false) : Memory.read m a = Memory.unlisted w := by
  induction m with
  | nil => rfl
  | cons c m ih =>
    obtain ⟨k, v⟩ := c
    have hk : p k = true := h (k, v) List.mem_cons_self
    have hne : k ≠ a := by
      rintro rfl
      rw [hk] at ha
      cases ha
    rw [Memory.read_cons, if_neg hne]
    exact ih fun c hc => h c (List.mem_cons_of_mem _ hc)

/-- Clearing the polynomial writes every entry there is, so none is left. -/
theorem State.StorageOk.read_clearCoefs {s : State} (h : s.StorageOk) (i : Nat) :
    Memory.read s.clearCoefs.coef i = 0 := by
  rw [State.clearCoefs_coef, Memory.read_writeList _ h.coef_wf, List.length_replicate]
  by_cases hi : i < s.cfg.tMax
  · rw [if_pos ⟨Nat.zero_le i, by rwa [Nat.zero_add]⟩, List.getD_replicate _ (by rwa [Nat.sub_zero])]
  · rw [if_neg (by omega)]
    exact Memory.read_of_not_within h.coef_within (decide_eq_false hi)

theorem State.StorageOk.clearCoefs_coef_eq_empty {s : State} (h : s.StorageOk) :
    s.clearCoefs.coef = Memory.empty :=
  Memory.ext_of_read h.clearCoefs.coef_wf Memory.empty_wf h.read_clearCoefs

/-- Settles O52: of the effects of `ENCRYPT` only `sealed` is error-free. It clears the polynomial, and it writes bytes
from the start of `CT` on, above all of `PW`. -/
theorem encryptLeavesNoPolynomial : Obligations.EncryptLeavesNoPolynomial := by
  intro s t hinv h hok
  obtain ⟨e, hf, rfl⟩ := exec_commits h
  obtain ⟨hwait, hfail⟩ := hok.effect
  have hstorage := hinv.storage
  cases hf with
  | wait => exact absurd rfl hwait
  | fail => exact absurd rfl (hfail _ _)
  | reg hdest => cases hdest
  | sealed =>
    refine ⟨?_, ?_, rfl, rfl, rfl, ?_⟩
    · exact hstorage.read_clearCoefs
    · exact hstorage.clearCoefs_coef_eq_empty
    · have hbuf := hinv.legal.buf_le
      exact Memory.readList_writeList_disjoint s.mem hstorage.mem_wf _ _ _ _
        (.inl (by simp only [Buffer.base]; omega))

end Sys2Proof.Machine
end

section
/-! PROOFS. The host port on the state (R43, R55, R60): what a read returns after a write, and where every register
stands; and the reset values (R42). -/

namespace Sys2Proof.Machine

/-! ## The reset values -/

/-- Settles O19: registers and counts are 0, and the stores and buffers list nothing, so read 0 everywhere. -/
theorem resetValuesAreZero : Obligations.ResetValuesAreZero := by
  have hreg : ∀ r : FReg, State.reset.reg r = 0 := fun r => by
    simp only [State.reg, State.reset, Fin.getElem_fin, Vector.getElem_replicate]
  exact ⟨hreg, fun _ => rfl, rfl, fun _ => rfl, fun _ => rfl, rfl, rfl, rfl, fun _ => rfl, rfl, rfl, rfl, rfl, rfl, rfl,
    rfl, rfl, rfl, rfl, rfl, fun _ => rfl, rfl, rfl, rfl⟩

/-! ## The map -/

/-- A count or length register stands at its address (R55), is read and written whole. -/
theorem State.memRead_count (s : State) (r : CountReg) : s.memRead r.addr 4 = .data (s.count r) := by
  cases r <;> rfl

theorem State.memWrite_count (s : State) (r : CountReg) (v : Word) :
    s.memWrite r.addr 4 v = (s.setCount r v, .written) := by
  cases r <;> rfl

/-- Settles O60: the registers by `State.memRead_count` and `State.memWrite_count`, the bases by the definitions. -/
theorem theMapPlacesEveryRegister : Obligations.TheMapPlacesEveryRegister := by
  refine ⟨fun s v => ?registers, fun r i => ⟨rfl, rfl, rfl, rfl⟩, rfl, rfl, rfl, rfl,
    fun s => ⟨fun r => rfl, fun i => ⟨rfl, rfl, rfl⟩⟩⟩
  case registers =>
    have h : ∀ r : CountReg, s.memRead r.addr 4 = .data (s.count r) ∧
        s.memWrite r.addr 4 v = (s.setCount r v, .written) := fun r => ⟨s.memRead_count r, s.memWrite_count r v⟩
    exact ⟨h .n, h .t, h .clen, h .shn, h .pwlen, h .lbllen, h .datlen, h .ctlen⟩

/-! ## Reads after a write -/

/-- What a location keeps of a word written to it: word 8 of a 257-bit value has one bit (R43, R56). -/
def Loc.kept (v : Word) : Loc → Word
  | .field _ w | .entry _ _ w => if w.val = 8 then v &&& 1 else v
  | .cmd | .status | .count _ | .bytes _ => v

theorem count_setCount (s : State) (r r' : CountReg) (v : Word) :
    (s.setCount r v).count r' = if r' = r then v else s.count r' := by
  cases r <;> cases r' <;> rfl

theorem store_setStore (s : State) (st st' : Store) (m : Memory 257) :
    (s.setStore st m).store st' = if st' = st then m else s.store st' := by
  cases st <;> cases st' <;> rfl

theorem State.StorageOk.store_wf {s : State} (h : s.StorageOk) (st : Store) : (s.store st).wf := by
  cases st with
  | coef => exact h.coef_wf
  | shx => exact h.shx_wf
  | shy => exact h.shy_wf

theorem readWord_writeWord_other {m : Memory 8} (hm : m.wf) {a b : Nat} (v : Word) (h : b + 4 ≤ a ∨ a + 4 ≤ b) :
    readWord (writeWord m a v) b = readWord m b := by
  have hread : ∀ k, k < 4 → Memory.read (writeWord m a v) (b + k) = Memory.read m (b + k) := fun k hk => by
    rw [read_writeWord m hm, if_neg (by omega)]
  have h0 := hread 0 (by omega)
  rw [Nat.add_zero] at h0
  simp only [readWord, h0, hread 1 (by omega), hread 2 (by omega), hread 3 (by omega)]

/-- Writing the same word twice is writing it once. -/
theorem writeWord_writeWord {m : Memory 8} (hm : m.wf) (a : Nat) (v : Word) :
    writeWord (writeWord m a v) a v = writeWord m a v := by
  refine Memory.ext_of_read (writeWord_wf (writeWord_wf hm a v) a v) (writeWord_wf hm a v) fun b => ?_
  rw [read_writeWord _ (writeWord_wf hm a v)]
  split
  · next hb => rw [read_writeWord m hm, if_pos hb]
  · rfl

theorem Memory.write_write {w : Nat} {m : Memory w} (hm : m.wf) (a : Nat) (v : BitVec w) :
    Memory.write (Memory.write m a v) a v = Memory.write m a v := by
  have hm' := Memory.write_wf hm a v
  refine Memory.ext_of_read (Memory.write_wf hm' a v) hm' fun b => ?_
  rw [Memory.read_write _ hm']
  split
  · next hb => rw [hb, Memory.read_write_same m hm]
  · rfl

section Locations

variable {s : State} {l l' : Loc}

/-- The word a location reads as after a write to it. -/
theorem State.readLoc_writeLoc_same (h : s.StorageOk) (hcmd : l ≠ .cmd) (hstatus : l ≠ .status) (v : Word) :
    (s.writeLoc l v).readLoc l = l.kept v := by
  cases l with
  | cmd => exact absurd rfl hcmd
  | status => exact absurd rfl hstatus
  | count r => exact (count_setCount s r r v).trans (if_pos rfl)
  | field r w =>
    simp only [State.writeLoc, State.readLoc, State.reg, Fin.getElem_fin, Vector.getElem_set_self, wordAt_withWord,
      if_true, Loc.kept]
  | entry st i w =>
    simp only [State.writeLoc, State.readLoc, store_setStore, if_true, Memory.read_write_same _ (h.store_wf st),
      wordAt_withWord, Loc.kept]
  | bytes a => exact readWord_writeWord_same s.mem h.mem_wf a v

/-- No other location reads otherwise after a write; for bytes, at any other word address. -/
theorem State.readLoc_writeLoc_other (h : s.StorageOk) (hcmd : l ≠ .cmd) (hne : l' ≠ l) (hl : l.addr % 4 = 0)
    (hl' : l'.addr % 4 = 0) (v : Word) : (s.writeLoc l v).readLoc l' = s.readLoc l' := by
  cases l with
  | cmd => exact absurd rfl hcmd
  | status => rfl
  | count r =>
    cases l' with
    | count r' =>
      have hr : r' ≠ r := fun heq => hne (heq ▸ rfl)
      exact (count_setCount s r r' v).trans (if_neg hr)
    | cmd | status | field | bytes => cases r <;> rfl
    | entry st => cases r <;> cases st <;> rfl
  | field r w =>
    cases l' with
    | field r' w' =>
      by_cases hr : r' = r
      · subst hr
        have hw : w' ≠ w := fun heq => hne (heq ▸ rfl)
        simp only [State.writeLoc, State.readLoc, State.reg, Fin.getElem_fin, Vector.getElem_set_self, wordAt_withWord,
          if_neg hw]
      · have hval : r.val ≠ r'.val := fun heq => hr (Fin.ext heq.symm)
        simp only [State.writeLoc, State.readLoc, State.reg, Fin.getElem_fin, Vector.getElem_set_ne _ _ hval]
    | cmd | status | count | bytes => rfl
    | entry st => cases st <;> rfl
  | entry st i w =>
    cases l' with
    | entry st' i' w' =>
      simp only [State.writeLoc, State.readLoc, store_setStore]
      by_cases hst : st' = st
      · subst hst
        rw [if_pos rfl, Memory.read_write _ (h.store_wf st')]
        by_cases hi : i' = i
        · subst hi
          have hw : w' ≠ w := fun heq => hne (heq ▸ rfl)
          rw [if_pos rfl, wordAt_withWord, if_neg hw]
        · rw [if_neg hi]
      · rw [if_neg hst]
    | cmd | status | count | field | bytes => cases st <;> rfl
  | bytes a =>
    cases l' with
    | bytes b =>
      have hab : b ≠ a := fun heq => hne (heq ▸ rfl)
      simp only [Loc.addr] at hl hl'
      exact readWord_writeWord_other h.mem_wf v (by omega)
    | cmd | status | count | field => rfl
    | entry st => cases st <;> rfl

theorem State.writeLoc_phase (hcmd : l ≠ .cmd) (v : Word) : (s.writeLoc l v).phase = s.phase := by
  cases l with
  | cmd => exact absurd rfl hcmd
  | status | field | bytes => rfl
  | count r => exact State.setCount_phase _ _ _
  | entry st => exact State.setStore_phase _ _ _

/-- Repeating a write changes nothing. -/
theorem State.writeLoc_writeLoc (h : s.StorageOk) (l : Loc) (v : Word) :
    (s.writeLoc l v).writeLoc l v = s.writeLoc l v := by
  cases l with
  | cmd | status => rfl
  | count r => cases r <;> rfl
  | field r w =>
    simp only [State.writeLoc, State.reg, Fin.getElem_fin, Vector.getElem_set_self, withWord_idem, Vector.set_set]
  | entry st i w =>
    have hread := Memory.read_write_same (s.store st) (h.store_wf st) i
    have hwrite := Memory.write_write (h.store_wf st) i
    cases st <;>
    · simp only [State.store] at hread hwrite
      simp only [State.writeLoc, State.store, State.setStore, hread, withWord_idem, hwrite]
  | bytes a => simp only [State.writeLoc, writeWord_writeWord h.mem_wf]

/-- The words with dropped bits are those the map places last in a slot of the field registers or a store (R55). -/
theorem Loc.kept_eq {c : Params} (hc : c.Legal) (hl : l.Exists c) (v : Word) :
    l.kept v = if 0x00100 ≤ l.addr ∧ l.addr < 0x0D000 ∧ l.addr % 0x40 = 0x20 then v &&& 1 else v := by
  have htMax := hc.tMax_le
  have hnMax := hc.nMax_le
  cases l with
  | cmd | status => rfl
  | count r => cases r <;> rfl
  | field r w =>
    have hiff : w.val = 8 ↔ 0x00100 ≤ (Loc.field r w).addr ∧ (Loc.field r w).addr < 0x0D000 ∧
        (Loc.field r w).addr % 0x40 = 0x20 := by
      simp only [Loc.addr, fieldBase]
      omega
    exact if_congr hiff rfl rfl
  | entry st i w =>
    have hi : i < st.count c := hl
    have hiff : w.val = 8 ↔ 0x00100 ≤ (Loc.entry st i w).addr ∧ (Loc.entry st i w).addr < 0x0D000 ∧
        (Loc.entry st i w).addr % 0x40 = 0x20 := by
      cases st <;> simp only [Loc.addr, Store.base, Store.count] at hi ⊢ <;> omega
    exact if_congr hiff rfl rfl
  | bytes a =>
    obtain ⟨b, hlo, -⟩ := bufferAddr_iff.mp hl
    have hbase : 0x10000 ≤ b.base := by cases b <;> decide
    exact (if_neg (by simp only [Loc.addr]; omega)).symm

/-- A write answered `OKAY` went to a location (R52, R57). -/
theorem State.memWrite_written {t : State} {a size : Nat} {v : Word} (h : s.memWrite a size v = (t, .written)) :
    ∃ l, accessLoc s.cfg a size = some l ∧ s.writeLoc l v = t := by
  simp only [State.memWrite] at h
  split at h
  · next l hl => exact ⟨l, hl, congrArg Prod.fst h⟩
  · cases h

theorem State.memRead_of_accessLoc {a size : Nat} (h : accessLoc s.cfg a size = some l) :
    s.memRead a size = .data (s.readLoc l) := by
  simp only [State.memRead, h]

end Locations

/-- Settles O55: an accepted write went to a location that exists, at that address; the map tells locations apart by
their addresses (`accessLoc_eq_some`), and `State.readLoc_writeLoc_same` and `State.readLoc_writeLoc_other` say what
each reads as after. -/
theorem readsReturnTheLatestWrite : Obligations.ReadsReturnTheLatestWrite := by
  intro s t a v hinv
  refine ⟨fun size => rfl, fun hwritten hcmdAddr hstatusAddr => ?_⟩
  obtain ⟨l, hloc, rfl⟩ := State.memWrite_written hwritten
  obtain ⟨-, halign, haddr, hex⟩ := (accessLoc_eq_some hinv.legal).mp hloc
  have hcmd : l ≠ .cmd := by
    rintro rfl
    exact hcmdAddr haddr.symm
  have hstatus : l ≠ .status := by
    rintro rfl
    exact hstatusAddr haddr.symm
  have hcfg := s.writeLoc_cfg l v
  refine ⟨?same, fun b hb => ?other, State.writeLoc_phase hcmd v, ?again⟩
  case same =>
    rw [State.memRead_of_accessLoc (hcfg ▸ hloc), State.readLoc_writeLoc_same hinv.storage hcmd hstatus,
      Loc.kept_eq hinv.legal hex, haddr]
  case other =>
    simp only [State.memRead, hcfg]
    cases hloc' : accessLoc s.cfg b 4 with
    | none => rfl
    | some l' =>
      obtain ⟨-, halign', haddr', -⟩ := (accessLoc_eq_some hinv.legal).mp hloc'
      have hne : l' ≠ l := by
        rintro rfl
        exact hb (haddr'.symm.trans haddr)
      simp only [State.readLoc_writeLoc_other hinv.storage hcmd hne (haddr ▸ halign) (haddr' ▸ halign')]
  case again => simp only [State.memWrite, hcfg, hloc, State.writeLoc_writeLoc hinv.storage]

end Sys2Proof.Machine
end

section
/-! PROOFS. The host port on the storage: every step answers a next state, which accesses the port rejects, what a word
access to a 257-bit location or a buffer reaches, and what the scripts `SET` and `GET` move: the statements of
`20_memory.md`. -/

namespace Sys2Proof.Machine

/-! ## Every step answers -/

/-- The latched word is a command, which commits an effect (`exec_eq`), or no command, and is raised (R74). -/
theorem State.runLatched_next (s : State) : ∃ t, s.runLatched = .next t := by
  cases h : decode s.cmdl with
  | ok i => exact ⟨_, (State.runLatched_of_decode h).trans (exec_eq i s)⟩
  | error r => exact ⟨s.complete (some .illegalCommand), by simp only [State.runLatched, h, State.raise_eq]⟩

theorem State.move_next (s : State) (who : Turn) : ∃ t, s.move who = .next t := by
  cases who with
  | host => exact ⟨_, s.move_host⟩
  | reset lost => exact ⟨_, s.move_reset lost⟩
  | sequencer =>
    cases hp : s.phase with
    | idle => exact ⟨s, State.move_sequencer_of_idle hp⟩
    | busy => exact State.move_sequencer_of_busy hp ▸ s.runLatched_next

/-- Settles O8: whoever moves answers (`State.move_next`), and so does every command (`exec_eq`). -/
theorem everyStepAnswersNext : Obligations.EveryStepAnswersNext := by
  intro s
  refine ⟨?step, fun i => ⟨_, exec_eq i s⟩⟩
  case step =>
    cases hturns : s.turns with
    | nil => exact step_of_turns_nil hturns ▸ s.move_next _
    | cons who ts => exact step_of_turns_cons hturns ▸ State.move_next _ who

/-! ## Which accesses the port rejects -/

/-- Nothing the block has stands at a reserved address (R55, R57). -/
theorem Loc.Exists.not_reserved {c : Params} (hc : c.Legal) {l : Loc} (hl : l.Exists c) : ¬ Reserved c l.addr := by
  have htMax := hc.tMax_le
  have hnMax := hc.nMax_le
  have hbuf := hc.buf_le
  unfold Reserved
  cases l with
  | cmd | status => simp only [Loc.addr]; omega
  | count r => cases r <;> simp only [Loc.addr, CountReg.addr] <;> omega
  | field r w => simp only [Loc.addr, fieldBase]; omega
  | entry st i w =>
    have hi : i < st.count c := hl
    cases st <;> simp only [Loc.addr, Store.base, Store.count] at hi ⊢ <;> omega
  | bytes a =>
    obtain ⟨b, hlo, hhi⟩ := bufferAddr_iff.mp hl
    cases b <;> simp only [Loc.addr, Buffer.base] at hlo hhi ⊢ <;> omega

/-- A word address in one of the first nine words of a slot of a bank, taken apart (R55). -/
theorem exists_slot {base count a : Nat} (h4 : a % 4 = 0) (hbase : base % 0x40 = 0) (hlo : base ≤ a)
    (hhi : a < base + 0x40 * count) (hword : a % 0x40 < 0x24) :
    ∃ (i : Nat) (w : Fin 9), i < count ∧ base + 0x40 * i + 4 * w.val = a :=
  ⟨(a - base) / 0x40, ⟨a % 0x40 / 4, by omega⟩, by omega, by simp only; omega⟩

/-- The word addresses up to that of `CTLEN` are those of `CMD`, `STATUS` and the counts (R55). -/
theorem exists_register {a : Nat} (h4 : a % 4 = 0) (h : a < 0x28) :
    a = Loc.cmd.addr ∨ a = Loc.status.addr ∨ ∃ r : CountReg, a = r.addr := by
  have hk : ∀ k < 10, 4 * k = Loc.cmd.addr ∨ 4 * k = Loc.status.addr ∨ ∃ r ∈ CountReg.all, 4 * k = r.addr :=
    by decide
  have ha : 4 * (a / 4) = a := by omega
  obtain h0 | h0 | ⟨r, -, h0⟩ := ha ▸ hk (a / 4) (by omega)
  · exact .inl h0
  · exact .inr (.inl h0)
  · exact .inr (.inr ⟨r, h0⟩)

/-- At every word address that is not reserved something stands (R55). -/
theorem exists_loc_of_not_reserved {c : Params} {a : Nat} (h4 : a % 4 = 0) (h : ¬ Reserved c a) :
    ∃ l : Loc, l.addr = a ∧ l.Exists c := by
  have hstore : ∀ st : Store, st.base ≤ a → a < st.base + 0x40 * st.count c → a % 0x40 < 0x24 →
      ∃ l : Loc, l.addr = a ∧ l.Exists c := fun st hlo hhi hword => by
    obtain ⟨i, w, hi, ha⟩ := exists_slot h4 (by cases st <;> rfl) hlo hhi hword
    exact ⟨.entry st i w, ha, hi⟩
  have hbuffer : ∀ b : Buffer, b.base ≤ a → a < b.base + c.bufMax → ∃ l : Loc, l.addr = a ∧ l.Exists c :=
    fun b hlo hhi => ⟨.bytes a, rfl, bufferAddr_iff.mpr ⟨b, hlo, hhi⟩⟩
  simp only [Reserved, not_or] at h
  obtain ⟨hgapCounts, hgapFields, hword, hcoef, hshx, hshy, hgapStores, hpw, hlbl, hdat, hct⟩ := h
  by_cases h1 : a < 0x28
  · obtain ha | ha | ⟨r, ha⟩ := exists_register h4 h1
    · exact ⟨.cmd, ha.symm, trivial⟩
    · exact ⟨.status, ha.symm, trivial⟩
    · exact ⟨.count r, ha.symm, trivial⟩
  by_cases h2 : a < 0x1000
  · obtain ⟨i, w, hi, ha⟩ := exists_slot (base := fieldBase) (count := 8) h4 rfl
      (show 0x100 ≤ a by omega) (show a < 0x100 + 0x40 * 8 by omega) (by omega)
    exact ⟨.field ⟨i, hi⟩ w, ha, trivial⟩
  by_cases h3 : a < 0x5000
  · exact hstore .coef (show 0x1000 ≤ a by omega) (show a < 0x1000 + 0x40 * c.tMax by omega) (by omega)
  by_cases h5 : a < 0x9000
  · exact hstore .shx (show 0x5000 ≤ a by omega) (show a < 0x5000 + 0x40 * c.nMax by omega) (by omega)
  by_cases h6 : a < 0x10000
  · exact hstore .shy (show 0x9000 ≤ a by omega) (show a < 0x9000 + 0x40 * c.nMax by omega) (by omega)
  by_cases h7 : a < 0x20000
  · exact hbuffer .pw (show 0x10000 ≤ a by omega) (show a < 0x10000 + c.bufMax by omega)
  by_cases h8 : a < 0x30000
  · exact hbuffer .lbl (show 0x20000 ≤ a by omega) (show a < 0x20000 + c.bufMax by omega)
  by_cases h9 : a < 0x40000
  · exact hbuffer .dat (show 0x30000 ≤ a by omega) (show a < 0x30000 + c.bufMax by omega)
  · exact hbuffer .ct (show 0x40000 ≤ a by omega) (show a < 0x40000 + c.bufMax by omega)

/-- The port rejects exactly the accesses R54 and R57 list. -/
theorem accessLoc_eq_none {c : Params} (hc : c.Legal) {a size : Nat} :
    accessLoc c a size = none ↔ size ≠ 4 ∨ a % 4 ≠ 0 ∨ Reserved c a := by
  rw [Option.eq_none_iff_forall_ne_some]
  simp only [ne_eq, accessLoc_eq_some hc]
  constructor
  · intro hnone
    by_contra hcon
    simp only [not_or, not_not] at hcon
    obtain ⟨hsize, h4, hres⟩ := hcon
    obtain ⟨l, haddr, hex⟩ := exists_loc_of_not_reserved h4 hres
    exact hnone l ⟨hsize, h4, haddr, hex⟩
  · rintro hbad l ⟨hsize, h4, rfl, hex⟩
    obtain h | h | h := hbad
    · exact h hsize
    · exact h h4
    · exact hex.not_reserved hc h

section Port

variable {s : State} {a size : Nat} {l : Loc}

theorem State.memRead_of_accessLoc_none (h : accessLoc s.cfg a size = none) : s.memRead a size = .error := by
  simp only [State.memRead, h]

theorem State.memWrite_of_accessLoc (h : accessLoc s.cfg a size = some l) (v : Word) :
    s.memWrite a size v = (s.writeLoc l v, .written) := by
  simp only [State.memWrite, h]

theorem State.memWrite_of_accessLoc_none (h : accessLoc s.cfg a size = none) (v : Word) :
    s.memWrite a size v = (s, .error) := by
  simp only [State.memWrite, h]

end Port

/-- Settles O56: the map names nothing exactly where R54 and R57 reject (`accessLoc_eq_none`), and the answer to an
access depends on nothing else. -/
theorem reservedAccessesAnswerError : Obligations.ReservedAccessesAnswerError := by
  intro s a size v hc
  refine ⟨fun hbad => ?rejected, fun hsize h4 hres => ?accepted⟩
  case rejected =>
    have hnone := (accessLoc_eq_none hc).mpr hbad
    exact ⟨congrArg (s, ·) (State.memRead_of_accessLoc_none hnone), State.memWrite_of_accessLoc_none hnone v⟩
  case accepted =>
    obtain ⟨l, haddr, hex⟩ := exists_loc_of_not_reserved h4 hres
    have hloc : accessLoc s.cfg a size = some l := (accessLoc_eq_some hc).mpr ⟨hsize, h4, haddr, hex⟩
    exact ⟨⟨_, congrArg (s, ·) (State.memRead_of_accessLoc hloc)⟩,
      congrArg Prod.snd (State.memWrite_of_accessLoc hloc v)⟩

/-! ## Words of a buffer -/

/-- Every word of a buffer below `BUF_MAX` is in the map, at its byte address (R55, R59). -/
theorem accessLoc_buffer {c : Params} (hc : c.Legal) (b : Buffer) {q : Nat} (hq : 4 * q < c.bufMax) :
    accessLoc c (b.base + 4 * q) 4 = some (.bytes (b.base + 4 * q)) := by
  have hbase : b.base % 4 = 0 := by cases b <;> rfl
  exact (accessLoc_eq_some hc).mpr ⟨rfl, by omega, rfl, bufferAddr_iff.mpr ⟨b, by omega, by omega⟩⟩

/-- Settles O57: the access reaches the four bytes at its address (`accessLoc_buffer`), which a write replaces
(`read_writeWord`). -/
theorem bufferWordsAreLittleEndian : Obligations.BufferWordsAreLittleEndian := by
  intro s b q v hinv hq
  have hloc := accessLoc_buffer hinv.legal b hq
  exact ⟨State.memRead_of_accessLoc hloc, _, State.memWrite_of_accessLoc hloc v,
    fun a => read_writeWord s.mem hinv.storage.mem_wf _ a v⟩

/-! ## Words of a 257-bit location -/

/-- Word `w` of a 257-bit location, as the map's location. -/
def ScriptLoc.word : ScriptLoc → Fin 9 → Loc
  | .f r, w        => .field r w
  | .store st i, w => .entry st i w

/-- `t` is `s` but for the 257-bit location `l`, which holds `x`. -/
structure State.ChangesOnly (s : State) (l : ScriptLoc) (x : FieldWord) (t : State) : Prop where
  value : t.valueAt l = x
  other : ∀ l' : ScriptLoc, l' ≠ l → t.valueAt l' = s.valueAt l'
  frame : t = { s with f := t.f, coef := t.coef, shx := t.shx, shy := t.shy }

section Words

variable {s : State} {l : ScriptLoc} {w : Fin 9}

/-- The nine words of a location that exists are in the map, at the addresses a script uses (R55, R77). -/
theorem accessLoc_word {c : Params} (hc : c.Legal) (hl : l.Present c) (w : Fin 9) :
    accessLoc c (l.addr + 4 * w.val) 4 = some (l.word w) := by
  rw [accessLoc_eq_some hc]
  cases l with
  | f r => exact ⟨rfl, by simp only [ScriptLoc.addr, fieldBase]; omega, rfl, trivial⟩
  | store st i =>
    have hbase : st.base % 4 = 0 := by cases st <;> rfl
    exact ⟨rfl, by simp only [ScriptLoc.addr]; omega, rfl, hl⟩

theorem State.readLoc_word (s : State) (l : ScriptLoc) (w : Fin 9) :
    s.readLoc (l.word w) = wordAt (s.valueAt l) w := by
  cases l <;> rfl

/-- A write to one word replaces that word of the value and touches nothing else (R56). -/
theorem State.StorageOk.writeLoc_word (h : s.StorageOk) (l : ScriptLoc) (w : Fin 9) (v : Word) :
    s.ChangesOnly l (withWord (s.valueAt l) w v) (s.writeLoc (l.word w) v) := by
  cases l with
  | f r =>
    refine ⟨Vector.getElem_set_self r.isLt, fun l' hne => ?_, rfl⟩
    cases l' with
    | store st i => cases st <;> rfl
    | f r' =>
      have hval : r.val ≠ r'.val := fun heq => hne (Fin.ext heq.symm ▸ rfl)
      exact Vector.getElem_set_ne r.isLt r'.isLt hval
  | store st i =>
    refine ⟨?value, fun l' hne => ?other, by cases st <;> rfl⟩
    case value =>
      simp only [State.valueAt, ScriptLoc.word, State.writeLoc, store_setStore, if_true,
        Memory.read_write_same _ (h.store_wf st)]
    case other =>
      cases l' with
      | f r => exact congrArg (·[r]) (State.setStore_f s st _)
      | store st' i' =>
        simp only [State.valueAt, ScriptLoc.word, State.writeLoc, store_setStore]
        split
        · next hst =>
          have hi : i' ≠ i := fun heq => hne (hst ▸ heq ▸ rfl)
          rw [Memory.read_write_other _ (h.store_wf st) _ hi, hst]
        · rfl

end Words

/-- Settles O58: the access reaches its word of the location (`accessLoc_word`), whose bits are known
(`getLsbD_wordAt`, `getLsbD_withWord`). -/
theorem wordAccessesReachTheirOwnBits : Obligations.WordAccessesReachTheirOwnBits := by
  intro s l w v hinv hl
  have hloc := accessLoc_word hinv.legal hl w
  obtain ⟨hvalue, hother, hframe⟩ := hinv.storage.writeLoc_word l w v
  refine ⟨⟨_, State.memRead_of_accessLoc hloc, fun k hk => ?read⟩, _, State.memWrite_of_accessLoc hloc v,
    fun k hk => ?write, hother, hframe⟩
  case read => rw [State.readLoc_word, getLsbD_wordAt _ _ _ hk]
  case write => rw [hvalue, getLsbD_withWord _ _ _ _ hk]

/-! ## Whole values -/

/-- `x` with its words `ws` replaced by those of `v`, one after another. -/
def copyWords (v : FieldWord) (ws : List (Fin 9)) (x : FieldWord) : FieldWord :=
  ws.foldl (fun y w => withWord y w (wordAt v w)) x

theorem copyWords_cons (v : FieldWord) (w : Fin 9) (ws : List (Fin 9)) (x : FieldWord) :
    copyWords v (w :: ws) x = copyWords v ws (withWord x w (wordAt v w)) := rfl

/-- A bit is `v`'s exactly if its word was replaced. -/
theorem getLsbD_copyWords (v : FieldWord) (ws : List (Fin 9)) (x : FieldWord) {k : Nat} (hk : k < 257) :
    (copyWords v ws x).getLsbD k =
      if k / 32 ∈ ws.map Fin.val then v.getLsbD k else x.getLsbD k := by
  induction ws generalizing x with
  | nil => rfl
  | cons w ws ih =>
    rw [copyWords_cons, ih, getLsbD_withWord _ _ _ _ hk, List.map_cons]
    by_cases hws : k / 32 ∈ ws.map Fin.val
    · rw [if_pos hws, if_pos (List.mem_cons_of_mem _ hws)]
    · rw [if_neg hws]
      by_cases hw : k / 32 = w.val
      · rw [if_pos (by omega), if_pos (hw ▸ List.mem_cons_self), getLsbD_wordAt _ _ _ (by omega)]
        congr 1
        omega
      · rw [if_neg (by omega), if_neg (by simp only [List.mem_cons, hw, hws, or_self, not_false_eq_true])]

/-- The nine words of a value make the whole value (R56). -/
theorem copyWords_finRange (v x : FieldWord) : copyWords v (List.finRange 9) x = v :=
  BitVec.eq_of_getLsbD_eq fun k hk => by
    have hlt : k / 32 < 9 := by omega
    rw [getLsbD_copyWords v _ x hk, if_pos (List.mem_map.mpr ⟨⟨k / 32, hlt⟩, List.mem_finRange _, rfl⟩)]

/-! What changed in turn is put together, whatever stands at the host port. -/

theorem State.valueAt_setPort (s : State) (inbox : List BusRequest) (outbox : List BusResponse) (l : ScriptLoc) :
    State.valueAt { s with inbox := inbox, outbox := outbox } l = s.valueAt l := by
  cases l with
  | f => rfl
  | store st => cases st <;> rfl

theorem State.ChangesOnly.refl (s : State) (l : ScriptLoc) : s.ChangesOnly l (s.valueAt l) s :=
  ⟨rfl, fun _ _ => rfl, rfl⟩

section Scripts

variable {s t u : State} {l : ScriptLoc} {x y : FieldWord} {rest : List BusRequest}

theorem State.ChangesOnly.trans (h : s.ChangesOnly l x t) (h' : t.ChangesOnly l y u) :
    s.ChangesOnly l y u where
  value := h'.value
  other := fun l' hne => (h'.other l' hne).trans (h.other l' hne)
  frame := h'.frame.trans (congrArg (fun t : State => { t with f := u.f, coef := u.coef, shx := u.shx, shy := u.shy })
    h.frame)

theorem State.ChangesOnly.setPort (h : s.ChangesOnly l x t) (inbox : List BusRequest)
    (outbox : List BusResponse) :
    State.ChangesOnly { s with inbox := inbox, outbox := outbox } l x
      { t with inbox := inbox, outbox := outbox } where
  value := (t.valueAt_setPort _ _ l).trans h.value
  other := fun l' hne =>
    (t.valueAt_setPort _ _ l').trans ((h.other l' hne).trans (s.valueAt_setPort _ _ l').symm)
  frame := congrArg (fun t : State => { t with inbox := inbox, outbox := outbox }) h.frame

/-- A turn on a write to a word of a location: the write is carried out and answered (R56, R60). -/
theorem State.hostTurn_write_word {w : Fin 9} {v : Word} (hc : s.cfg.Legal) (hidle : s.phase = .idle)
    (hl : l.Present s.cfg) (hin : s.inbox = .write (l.addr + 4 * w.val) 4 v :: rest) :
    s.hostTurn = { s.writeLoc (l.word w) v with inbox := rest, outbox := s.outbox ++ [.written] } := by
  rw [State.hostTurn_of_not_held hin (State.holds_of_idle hidle)]
  simp only [State.access, State.memWrite_of_accessLoc (accessLoc_word hc hl w)]

/-- The host writes some words of a value to a location, one a turn (R60). -/
theorem State.hostTurn_iterate_writes (v : FieldWord) (ws : List (Fin 9)) (hinv : s.Inv) (hidle : s.phase = .idle)
    (hl : l.Present s.cfg)
    (hin : s.inbox = ws.map (fun w => .write (l.addr + 4 * w.val) 4 (wordAt v w)) ++ rest) :
    State.ChangesOnly
      { s with inbox := rest, outbox := s.outbox ++ List.replicate ws.length .written } l
      (copyWords v ws (s.valueAt l)) (State.hostTurn^[ws.length] s) := by
  induction ws generalizing s with
  | nil =>
    rw [List.length_nil, List.replicate_zero, List.append_nil, ← show s.inbox = rest from hin]
    exact .refl s l
  | cons w ws ih =>
    have hturn := State.hostTurn_write_word hinv.legal hidle hl hin
    have hwrite := hinv.storage.writeLoc_word l w (wordAt v w)
    have hphase : (s.writeLoc (l.word w) (wordAt v w)).phase = .idle :=
      (congrArg State.phase hwrite.frame :).trans hidle
    have hinv' := hinv.hostTurn
    rw [hturn] at hinv'
    have hrest := ih hinv' hphase (s.writeLoc_cfg _ _ ▸ hl) rfl
    rw [State.valueAt_setPort, hwrite.value, List.append_assoc] at hrest
    rw [List.length_cons, Function.iterate_succ_apply, hturn]
    exact (hwrite.setPort rest _).trans hrest

/-- A turn on a read: it is answered and changes nothing (R58, R60). -/
theorem State.hostTurn_read {a size : Nat} (hidle : s.phase = .idle) (hin : s.inbox = .read a size :: rest) :
    s.hostTurn = { s with inbox := rest, outbox := s.outbox ++ [s.memRead a size] } :=
  State.hostTurn_of_not_held hin (State.holds_of_idle hidle)

/-- The host reads some words of a location, one a turn (R58, R60). -/
theorem State.hostTurn_iterate_reads (ws : List (Fin 9)) (hinv : s.Inv) (hidle : s.phase = .idle)
    (hl : l.Present s.cfg) (hin : s.inbox = ws.map (fun w => .read (l.addr + 4 * w.val) 4) ++ rest) :
    State.hostTurn^[ws.length] s =
      { s with inbox := rest, outbox := s.outbox ++ ws.map fun w => .data (wordAt (s.valueAt l) w) } := by
  induction ws generalizing s with
  | nil =>
    rw [List.map_nil, List.append_nil, ← show s.inbox = rest from hin]
    rfl
  | cons w ws ih =>
    have hread : s.memRead (l.addr + 4 * w.val) 4 = .data (wordAt (s.valueAt l) w) := by
      rw [State.memRead_of_accessLoc (accessLoc_word hinv.legal hl w), State.readLoc_word]
    have hturn := State.hostTurn_read hidle hin
    have hinv' := hinv.hostTurn
    rw [hread] at hturn
    rw [hturn] at hinv'
    rw [List.length_cons, Function.iterate_succ_apply, hturn]
    simp only [ih hinv' hidle hl rfl, State.valueAt_setPort, List.append_assoc]
    rfl

end Scripts

/-- Settles O59: nine turns carry out the nine accesses (`State.hostTurn_iterate_writes`,
`State.hostTurn_iterate_reads`), and nine words are the whole value (`copyWords_finRange`). -/
theorem setAndGetScriptsMoveWholeValues : Obligations.SetAndGetScriptsMoveWholeValues := by
  intro s l v rest hinv hidle hl
  refine ⟨fun hin => ?set, fun hin => ?get⟩
  case set =>
    obtain ⟨hvalue, hother, hframe⟩ := State.hostTurn_iterate_writes v (List.finRange 9) hinv hidle hl hin
    exact ⟨hvalue.trans (copyWords_finRange v _),
      fun l' hne => (hother l' hne).trans (s.valueAt_setPort _ _ l'), hframe⟩
  case get => exact State.hostTurn_iterate_reads (List.finRange 9) hinv hidle hl hin

end Sys2Proof.Machine
end

section
/-! PROOFS. The decoder and the encoder (R70 to R76): a word matches a row exactly when its fields pass the row's
checks, and then its fields are those the encoder gives the row's command. -/

namespace Sys2Proof

/-! ## The fields of a word -/

/-- A word is its five fields, joined again (R70). -/
@[simp] theorem RawCommand.toWord_ofWord (w : Word) : (RawCommand.ofWord w).toWord = w := by
  simp only [RawCommand.toWord, RawCommand.ofWord]
  iterate 4 rw [BitVec.extractLsb'_append_extractLsb'_eq_extractLsb' (by rfl)]
  exact BitVec.extractLsb'_eq_self

theorem RawCommand.ofWord_inj {v w : Word} : RawCommand.ofWord v = RawCommand.ofWord w ↔ v = w :=
  (Function.LeftInverse.injective RawCommand.toWord_ofWord).eq_iff

/-- A mask cuts each field on its own. -/
theorem RawCommand.ofWord_and (v w : Word) :
    RawCommand.ofWord (v &&& w) =
      let r := RawCommand.ofWord v
      let m := RawCommand.ofWord w
      ⟨r.op &&& m.op, r.fd &&& m.fd, r.fs1 &&& m.fs1, r.fs2 &&& m.fs2, r.rsv &&& m.rsv⟩ := by
  simp only [RawCommand.ofWord, BitVec.extractLsb'_and]

/-! ## The rows -/

/-- The part of a row's mask over a register field: its top bit where the row uses the field, all of it where not. -/
def fieldMask (used : Bool) : BitVec 4 := if used then 0x8 else 0xF

/-- The mask of a field selects what its check looks at (R71, R75). -/
theorem fieldOk_iff_mask {used : Bool} {x : BitVec 4} : fieldOk used x = true ↔ x &&& fieldMask used = 0 := by
  revert used x
  decide

theorem Opcode.ofWord_mask (o : Opcode) : RawCommand.ofWord o.mask =
    ⟨0xFF, fieldMask o.usesFd, fieldMask o.usesFs1, fieldMask o.usesFs2, 0xFFF⟩ := by
  cases o <;> rfl

theorem Opcode.ofWord_pattern (o : Opcode) : RawCommand.ofWord o.pattern = ⟨o.byte, 0, 0, 0, 0⟩ := by
  cases o <;> rfl

/-- A word matches a row (R73) exactly when it has the row's `op` byte, passes the row's three field checks, and has
no reserved bit (R71, R75). -/
theorem Opcode.matches_iff {o : Opcode} {w : Word} : w &&& o.mask = o.pattern ↔
    w.extractLsb' 0 8 = o.byte ∧ fieldOk o.usesFd (w.extractLsb' 8 4) = true ∧
      fieldOk o.usesFs1 (w.extractLsb' 12 4) = true ∧ fieldOk o.usesFs2 (w.extractLsb' 16 4) = true ∧
      w.extractLsb' 20 12 = 0 := by
  rw [← RawCommand.ofWord_inj, RawCommand.ofWord_and, o.ofWord_mask, o.ofWord_pattern, RawCommand.mk.injEq,
    show (0xFF : BitVec 8) = BitVec.allOnes 8 from rfl, show (0xFFF : BitVec 12) = BitVec.allOnes 12 from rfl,
    BitVec.and_allOnes, BitVec.and_allOnes]
  simp only [fieldOk_iff_mask, RawCommand.ofWord]

@[simp] theorem Opcode.ofByte?_byte (o : Opcode) : Opcode.ofByte? o.byte = some o := by cases o <;> rfl

/-- The `op` byte alone tells the rows apart. -/
theorem Opcode.matches_unique {o o' : Opcode} {w : Word} (h : w &&& o.mask = o.pattern)
    (h' : w &&& o'.mask = o'.pattern) : o = o' := by
  have hbyte : o.byte = o'.byte := (Opcode.matches_iff.mp h).1.symm.trans (Opcode.matches_iff.mp h').1
  exact Option.some.inj (by rw [← o.ofByte?_byte, hbyte, o'.ofByte?_byte])

/-- A word that matches a row passes all five checks of R75. -/
theorem Opcode.wellFormed_of_matches {o : Opcode} {w : Word} (h : w &&& o.mask = o.pattern) :
    (RawCommand.ofWord w).wellFormed = true := by
  obtain ⟨hop, hfd, hfs1, hfs2, hrsv⟩ := Opcode.matches_iff.mp h
  simp only [RawCommand.wellFormed, RawCommand.reservedZero, RawCommand.opcodeKnown, RawCommand.fdOk,
    RawCommand.fs1Ok, RawCommand.fs2Ok, RawCommand.ofWord, hop, o.ofByte?_byte, hrsv, Option.all_some, hfd, hfs1, hfs2]
  rfl

/-! ## The decoder -/

theorem Opcode.mem_all (o : Opcode) : o ∈ Opcode.all := by cases o <;> decide

/-- The decoder finds the row that matches, since there is only one. -/
theorem decode_of_matches {o : Opcode} {w : Word} (h : w &&& o.mask = o.pattern) :
    decode w = .ok (o.build (regField w 8) (regField w 12) (regField w 16)) := by
  have hfind : Opcode.all.find? (fun o => o.matchesWord w) = some o := by
    cases hf : Opcode.all.find? fun o => o.matchesWord w with
    | none => exact absurd (beq_iff_eq.mpr h) (List.find?_eq_none.mp hf o o.mem_all)
    | some o' => rw [Opcode.matches_unique h (beq_iff_eq.mp (List.find?_some hf :))]
  simp only [decode, hfind]

theorem decode_of_no_match {w : Word} (h : ∀ o : Opcode, w &&& o.mask ≠ o.pattern) :
    decode w = .error (rejectReason w) := by
  have hfind : Opcode.all.find? (fun o => o.matchesWord w) = none :=
    List.find?_eq_none.mpr fun o _ => mt beq_iff_eq.mp (h o)
  simp only [decode, hfind]

/-- Whatever decodes is the command of a row that matches. -/
theorem exists_row_of_decode {w : Word} {i : Instr} (h : decode w = .ok i) :
    ∃ o : Opcode, w &&& o.mask = o.pattern ∧ i = o.build (regField w 8) (regField w 12) (regField w 16) := by
  by_cases hrow : ∃ o : Opcode, w &&& o.mask = o.pattern
  · obtain ⟨o, ho⟩ := hrow
    exact ⟨o, ho, Except.ok.inj (h.symm.trans (decode_of_matches ho))⟩
  · rw [decode_of_no_match (not_exists.mp hrow)] at h
    cases h

/-! ## Register fields -/

theorem regField_val (w : Word) (lo : Nat) : (regField w lo).val = (w.extractLsb' lo 4).toNat % 8 := by
  simp only [regField, BitVec.val_toFin, BitVec.extractLsb'_toNat]
  exact (Nat.mod_mod_of_dvd _ (by decide)).symm

/-- A register field that passes its check holds a value below 8. -/
theorem toNat_lt_of_fieldOk {used : Bool} {x : BitVec 4} (h : fieldOk used x = true) : x.toNat < 8 := by
  revert used x
  decide

/-- The decoder reads the whole of a field that passes its check: no bit is dropped (R74). -/
theorem regField_val_of_ok {used : Bool} {w : Word} {lo : Nat} (h : fieldOk used (w.extractLsb' lo 4) = true) :
    (regField w lo).val = (w.extractLsb' lo 4).toNat :=
  (regField_val w lo).trans (Nat.mod_eq_of_lt (toNat_lt_of_fieldOk h))

/-! ## The encoder -/

/-- The fields of a row's command (R70, R71). -/
theorem Opcode.raw_build (o : Opcode) (fd fs1 fs2 : FReg) : (o.build fd fs1 fs2).raw =
    ⟨o.byte, if o.usesFd then FReg.field fd else 0, if o.usesFs1 then FReg.field fs1 else 0,
      if o.usesFs2 then FReg.field fs2 else 0, 0⟩ := by
  cases o <;> rfl

/-- The encoder writes back the field the decoder read, used or not. -/
theorem field_regField_of_ok {used : Bool} {w : Word} {lo : Nat} (h : fieldOk used (w.extractLsb' lo 4) = true) :
    (if used then FReg.field (regField w lo) else 0) = w.extractLsb' lo 4 := by
  cases used with
  | true => rw [if_pos rfl, FReg.field, regField_val_of_ok h, BitVec.ofNat_toNat, BitVec.setWidth_eq]
  | false => exact (beq_iff_eq.mp h).symm

/-- The encoder undoes the decoder: its fields are those of the word, for the row that matches. -/
theorem encode_of_decode {w : Word} {i : Instr} (h : decode w = .ok i) : encode i = w := by
  obtain ⟨o, hrow, rfl⟩ := exists_row_of_decode h
  obtain ⟨hop, hfd, hfs1, hfs2, hrsv⟩ := Opcode.matches_iff.mp hrow
  rw [encode, o.raw_build, field_regField_of_ok hfd, field_regField_of_ok hfs1, field_regField_of_ok hfs2, ← hop,
    ← hrsv]
  exact RawCommand.toWord_ofWord w

end Sys2Proof

namespace Sys2Proof.Machine

/-- Settles O2: `decode_encode`, which makes the encoder's word one that matches a row, and `encode_of_decode`. -/
theorem decodeAndEncodeAgree : Obligations.DecodeAndEncodeAgree := by
  refine ⟨fun i => ⟨decode_encode i, ?_⟩, fun w i => encode_of_decode⟩
  obtain ⟨o, hrow, -⟩ := exists_row_of_decode (decode_encode i)
  exact Opcode.wellFormed_of_matches hrow

/-- A latched word that is no command raises `IllegalCommand` (R74, R185). -/
theorem State.runLatched_of_reject {s : State} {r : Reject} (h : decode s.cmdl = .error r) :
    s.runLatched = .next (s.complete (some .illegalCommand)) := by
  simp only [State.runLatched, h, State.raise_eq]

/-- Settles O3: rows are told apart by their `op` byte, and the decoder reads the fields of the row that matches
whole (`regField_val_of_ok`). -/
theorem decodingFollowsTheRows : Obligations.DecodingFollowsTheRows := by
  intro w
  refine ⟨fun o o' => Opcode.matches_unique, fun o hrow => ?row, fun hnone => ?noRow⟩
  case row =>
    obtain ⟨-, hfd, hfs1, hfs2, -⟩ := Opcode.matches_iff.mp hrow
    exact ⟨_, _, _, regField_val_of_ok hfd, regField_val_of_ok hfs1, regField_val_of_ok hfs2, decode_of_matches hrow⟩
  case noRow =>
    have hreject := decode_of_no_match hnone
    exact ⟨⟨_, hreject⟩, fun s hs => ⟨0, State.runLatched_of_reject (hs ▸ hreject)⟩⟩

/-- Settles O1: each word is the encoder's, and decodes to its command by `decode_encode`. -/
theorem writtenWordsDecode : Obligations.WrittenWordsDecode :=
  ⟨decode_encode (.fadd 3 1 2), decode_encode (.fsub 3 1 2), decode_encode (.fmul 5 1 2), decode_encode (.finv 6 2),
    decode_encode (.pcons 1), decode_encode (.peval 2 1), decode_encode .pshare, decode_encode (.lrecon 0),
    decode_encode .encrypt, decode_encode .decrypt⟩

end Sys2Proof.Machine
end

section
/-! PROOFS. The padded payload (R81 to R85): the pad digit, `Pad`, and `Unpad`, which is known by the one lemma that
says when it answers (`unpad_eq_ok_iff`). -/

namespace Sys2Proof.Machine

/-! ## The pad digit -/

/-- `HexVal` reads what `HexDigit` writes. -/
theorem hexVal_hexDigit : ∀ d < 16, hexVal (hexDigit d) = some d := by decide

theorem hexVal_lt {c : Byte} {v : Nat} (h : hexVal c = some v) : v < 16 := by
  simp only [hexVal] at h
  split_ifs at h <;> cases h <;> omega

/-- Settles O43: the three ranges of `HexVal` are disjoint, so at most one of its tests holds. -/
theorem hexDigitsReadBothCases : Obligations.HexDigitsReadBothCases := by
  refine ⟨rfl, fun c => ⟨fun hdigit => ?_, fun hlower => ?_, fun hupper => ?_, fun hdigit hlower hupper => ?_⟩⟩
  · exact if_pos hdigit
  · exact (if_neg (by omega)).trans (if_pos hlower)
  · exact (if_neg (by omega)).trans ((if_neg (by omega)).trans (if_pos hupper))
  · exact (if_neg hdigit).trans ((if_neg hlower).trans (if_neg hupper))

/-! ## Pad -/

theorem padCount_bounds (m : Nat) : 1 ≤ padCount m ∧ padCount m ≤ 16 := by
  unfold padCount
  omega

/-- The four parts of the payload, for the number `k` of its pad bytes (R82). -/
theorem pad_eq {l c : List Byte} {k : Nat} (hk : padCount (l.length + 1 + c.length) = k) :
    pad l c = l ++ [0x00] ++ c ++ List.replicate k (hexDigit (k % 16)) := by
  rw [List.append_assoc l [0x00] c, ← hk]
  rfl

/-- The digits of R81 in their order. -/
theorem hexDigit_eq_getD : ∀ d < 16, hexDigit d = ([0x30, 0x31, 0x32, 0x33, 0x34, 0x35, 0x36, 0x37, 0x38, 0x39, 0x61,
    0x62, 0x63, 0x64, 0x65, 0x66] : List Byte).getD d 0 := by
  decide

/-- Settles O44: the pad is one to sixteen digits (`padCount_bounds`), and fills whole blocks (`length_pad`). -/
theorem paddingFillsWholeBlocks : Obligations.PaddingFillsWholeBlocks := by
  intro l c m k
  obtain ⟨hlo, hhi⟩ : 1 ≤ k ∧ k ≤ 16 := padCount_bounds m
  have hlen : (pad l c).length = 16 * (m / 16 + 1) := length_pad l c
  have hfill : m + k = 16 * (m / 16 + 1) := by
    show m + (16 - m % 16) = 16 * (m / 16 + 1)
    omega
  refine ⟨hlo, hhi, ?_, hlen.trans hfill.symm, hlen, by omega⟩
  rw [← hexDigit_eq_getD _ (Nat.mod_lt k (by decide))]
  exact pad_eq rfl

/-! ## Unpad -/

/-- The number of pad bytes a last pad digit stands for: 16 for the digit 0 (R84 step 6). -/
def padLength (v : Nat) : Nat := if v = 0 then 16 else v

/-- The pad lengths are 1 to 16, each told by its residue. -/
theorem padLength_eq_iff {v k : Nat} (hv : v < 16) : padLength v = k ↔ 1 ≤ k ∧ k ≤ 16 ∧ v = k % 16 := by
  unfold padLength
  split <;> omega

/-- When `Unpad` answers, and with what, step by step (R84): `z` is the position of the first zero byte, `rest` what
follows it. -/
theorem unpad_eq_ok_iff_steps {cfg : Params} {b label content : List Byte} :
    unpad cfg b = .ok (label, content) ↔ cfg.validText b = true ∧ ∃ z rest last v,
      (b.findIdx? (fun x => x == 0) = some z ∧ b.take z = label ∧ b.drop (z + 1) = rest) ∧
      rest.getLast? = some last ∧ hexVal last = some v ∧
      padLength v ≤ rest.length ∧ rest.take (rest.length - padLength v) = content := by
  constructor
  · intro h
    simp only [unpad] at h
    split at h
    · cases h
    next hvalid =>
    split at h
    · cases h
    next z hz =>
    split at h
    · cases h
    next last hlast =>
    split at h
    · cases h
    next v hval =>
    by_cases hlen : (b.drop (z + 1)).length < padLength v
    · cases (if_pos hlen).symm.trans h
    cases (if_neg hlen).symm.trans h
    exact ⟨by simpa using hvalid, z, _, last, v, ⟨hz, rfl, rfl⟩, hlast, hval, not_lt.mp hlen, rfl⟩
  · rintro ⟨hvalid, z, rest, last, v, ⟨hz, rfl, rfl⟩, hlast, hval, hlen, rfl⟩
    simp only [unpad, hvalid, hz, hlast, hval]
    exact (if_neg Bool.noConfusion).trans (if_neg (not_lt.mpr hlen))

/-- Every step of `Unpad` that fails raises the same error (R84, R183). -/
theorem unpad_error {cfg : Params} {b : List Byte} {e : CmdError} (h : unpad cfg b = .error e) :
    e = .decryptionError := by
  simp only [unpad] at h
  repeat' split at h
  all_goals cases h
  all_goals rfl

/-- A byte string is cut at its first zero byte: before it stands no other. -/
theorem cut_at_first_zero_iff {b label rest : List Byte} :
    (∃ z, b.findIdx? (fun x => x == 0) = some z ∧ b.take z = label ∧ b.drop (z + 1) = rest) ↔
      (0x00 : Byte) ∉ label ∧ b = label ++ 0x00 :: rest := by
  constructor
  · rintro ⟨z, hz, rfl, rfl⟩
    obtain ⟨hlt, hzero, hbefore⟩ := List.findIdx?_eq_some_iff_getElem.mp hz
    refine ⟨fun hmem => ?_, ?_⟩
    · obtain ⟨j, hj, hj0⟩ := List.mem_take_iff_getElem.mp hmem
      exact hbefore j (by omega) (beq_iff_eq.mpr hj0)
    · exact (List.take_append_drop z b).symm.trans (by rw [List.drop_eq_getElem_cons hlt, beq_iff_eq.mp hzero])
  · rintro ⟨hnot, rfl⟩
    have hnone : label.findIdx? (fun x => x == 0) = none :=
      List.findIdx?_eq_none_iff.mpr fun x hx => beq_false_of_ne (ne_of_mem_of_not_mem hx hnot)
    exact ⟨label.length, by rw [List.findIdx?_append, hnone]; simp [List.findIdx?_cons], by simp, by simp⟩

/-- A string that ends in `last` is cut `k` bytes before its end. -/
theorem cut_before_end_iff {rest content : List Byte} {last : Byte} {k : Nat} (hk : 1 ≤ k) :
    (rest.getLast? = some last ∧ k ≤ rest.length ∧ rest.take (rest.length - k) = content) ↔
      ∃ front : List Byte, rest = content ++ (front ++ [last]) ∧ front.length + 1 = k := by
  constructor
  · rintro ⟨hlast, hlen, rfl⟩
    obtain ⟨init, rfl⟩ := List.getLast?_eq_some_iff.mp hlast
    rw [List.length_append, List.length_singleton] at hlen ⊢
    refine ⟨init.drop (init.length + 1 - k), ?_, by rw [List.length_drop]; omega⟩
    rw [List.take_append_of_le_length (by omega), ← List.append_assoc, List.take_append_drop]
  · rintro ⟨front, rfl, rfl⟩
    exact ⟨by simp, by simp, by simp⟩

/-- When `Unpad` answers, by the parts of what it was given (R84): the first zero byte ends the label, and the last
byte tells how long the pad is. -/
theorem unpad_eq_ok_iff {cfg : Params} {b label content : List Byte} :
    unpad cfg b = .ok (label, content) ↔ cfg.validText b = true ∧ (0x00 : Byte) ∉ label ∧
      ∃ (front : List Byte) (last : Byte) (k : Nat), b = label ++ [0x00] ++ content ++ (front ++ [last]) ∧
        1 ≤ k ∧ k ≤ 16 ∧ front.length + 1 = k ∧ hexVal last = some (k % 16) := by
  rw [unpad_eq_ok_iff_steps]
  refine and_congr_right fun _ => ⟨?cut, ?join⟩
  case cut =>
    rintro ⟨z, rest, last, v, hcut, hlast, hval, hlen⟩
    obtain ⟨hlo, hhi, hv⟩ := (padLength_eq_iff (hexVal_lt hval)).mp rfl
    obtain ⟨hnot, rfl⟩ := cut_at_first_zero_iff.mp ⟨z, hcut⟩
    obtain ⟨front, rfl, hfront⟩ := (cut_before_end_iff hlo).mp ⟨hlast, hlen⟩
    exact ⟨hnot, front, last, padLength v, by simp, hlo, hhi, hfront, hv ▸ hval⟩
  case join =>
    rintro ⟨hnot, front, last, k, rfl, hlo, hhi, hfront, hval⟩
    have hk : padLength (k % 16) = k := (padLength_eq_iff (Nat.mod_lt k (by decide))).mpr ⟨hlo, hhi, rfl⟩
    obtain ⟨z, hcut⟩ := cut_at_first_zero_iff.mpr
      ⟨hnot, show label ++ [0x00] ++ content ++ (front ++ [last]) = label ++ 0x00 :: (content ++ (front ++ [last])) by
        simp⟩
    obtain ⟨hlast, hlen, htake⟩ := (cut_before_end_iff hlo).mpr ⟨front, rfl, hfront⟩
    exact ⟨z, _, last, k % 16, hcut, hlast, hval, by rwa [hk], by rwa [hk]⟩

/-- Settles O45: `Unpad` answers exactly on well-formed payloads (`unpad_eq_ok_iff`), and has one error. -/
theorem unpadSplitsOrRaises : Obligations.UnpadSplitsOrRaises :=
  fun _ _ => ⟨fun _ _ => unpad_eq_ok_iff, fun _ => unpad_error⟩

/-- Settles O46: `Pad` writes what `Unpad` splits (`pad_eq`, `unpad_eq_ok_iff`), and the last byte of its pad is the
digit of the pad's length. -/
theorem unpadUndoesPad : Obligations.UnpadUndoesPad := by
  intro cfg l c hnot hvalid
  obtain ⟨k, hk⟩ : ∃ k, padCount (l.length + 1 + c.length) = k := ⟨_, rfl⟩
  obtain ⟨hlo, hhi⟩ : 1 ≤ k ∧ k ≤ 16 := hk ▸ padCount_bounds _
  refine unpad_eq_ok_iff.mpr ⟨hvalid, hnot, List.replicate (k - 1) (hexDigit (k % 16)), hexDigit (k % 16), k, ?_,
    hlo, hhi, ?_, hexVal_hexDigit _ (Nat.mod_lt k (by decide))⟩
  · rw [← List.replicate_succ', Nat.sub_add_cancel hlo, pad_eq hk]
  · rw [List.length_replicate, Nat.sub_add_cancel hlo]

end Sys2Proof.Machine
end

section
/-! PROOFS. The two forms of the key (R78 to R80): big-endian digits to the base 256, one more at a time. -/

namespace Sys2Proof.Machine

/-! ## `int_be` -/

/-- The last byte is the least significant (R78). -/
@[simp] theorem intBe_concat (b : List Byte) (c : Byte) : intBe (b ++ [c]) = intBe b * 256 + c.toNat :=
  List.foldl_concat ..

theorem intBe_lt (b : List Byte) : intBe b < 256 ^ b.length := by
  induction b using List.reverseRecOn with
  | nil => decide
  | append_singleton b c ih =>
    have := c.isLt
    rw [intBe_concat, List.length_append, List.length_singleton, Nat.pow_succ]
    omega

/-! ## The big-endian bytes of a number -/

/-- The `m`-byte big-endian form of `v`; `bytes_be_32` is the one of 32 bytes (R79). -/
def bytesBe (m v : Nat) : List Byte := (List.range m).map (byteBe m v)

theorem toList_bytesBe32 (v : Nat) : (bytesBe32 v).toList = bytesBe 32 v := rfl

@[simp] theorem bytesBe_zero (v : Nat) : bytesBe 0 v = [] := rfl

/-- The last of the bytes is the number's low byte, the others are those of the rest. -/
theorem bytesBe_succ (m v : Nat) : bytesBe (m + 1) v = bytesBe m (v / 256) ++ [BitVec.ofNat 8 v] := by
  have hlast : byteBe (m + 1) v m = BitVec.ofNat 8 v := by simp [byteBe]
  have hfront : ∀ i ∈ List.range m, byteBe (m + 1) v i = byteBe m (v / 256) i := fun i hi => by
    rw [List.mem_range] at hi
    rw [byteBe, byteBe, show 8 * (m + 1 - 1 - i) = 8 + 8 * (m - 1 - i) by omega, Nat.shiftRight_add,
      Nat.shiftRight_eq_div_pow v 8]
  rw [bytesBe, List.range_succ, List.map_append, List.map_congr_left hfront, List.map_singleton, hlast, bytesBe]

/-- `int_be` undoes the big-endian form of a number that fits. -/
theorem intBe_bytesBe {m v : Nat} (h : v < 256 ^ m) : intBe (bytesBe m v) = v := by
  induction m generalizing v with
  | zero => rw [bytesBe_zero, show v = 0 by simpa using h]; rfl
  | succ m ih =>
    rw [bytesBe_succ, intBe_concat, ih (by rw [Nat.pow_succ] at h; omega), BitVec.toNat_ofNat]
    omega

/-- The big-endian form undoes `int_be`. -/
theorem bytesBe_intBe (d : List Byte) : bytesBe d.length (intBe d) = d := by
  induction d using List.reverseRecOn with
  | nil => rfl
  | append_singleton d c ih =>
    have := c.isLt
    have hlow : BitVec.ofNat 8 (intBe d * 256 + c.toNat) = c := BitVec.eq_of_toNat_eq (by
      rw [BitVec.toNat_ofNat]
      omega)
    rw [List.length_append, List.length_singleton, bytesBe_succ, intBe_concat, hlow,
      show (intBe d * 256 + c.toNat) / 256 = intBe d by omega, ih]

/-- Settles O48: the conversions undo each other digit by digit (`bytesBe_intBe`, `intBe_bytesBe`), and 32 bytes are
less than `2 ^ 256`, which is below `P`. -/
theorem keyFormsStayIdentical : Obligations.KeyFormsStayIdentical := by
  refine ⟨fun d => ?bytes, fun v hv => ?int, fun cfg pw hc => ⟨rfl, rfl, ?below⟩⟩
  case bytes =>
    have := bytesBe_intBe d.toList
    rw [d.toList_length] at this
    exact List.Vector.toList_injective this
  case int => exact intBe_bytesBe (by norm_num at hv ⊢; exact hv)
  case below =>
    have hlt : intBe (cfg.hashOf pw).toList < 256 ^ 32 := by
      simpa only [List.Vector.toList_length] using intBe_lt (cfg.hashOf pw).toList
    have := hc.above
    exact hlt.trans (by omega)

end Sys2Proof.Machine
end

section
/-! PROOFS. The reference text test (R89): the loop reads one row of the table after another. -/

namespace Sys2Proof.Machine

/-! ## The table -/

/-- The bytes of `q` lie in the ranges `owed`, one for one. -/
def InRanges (owed : List (Byte × Byte)) (q : List Byte) : Prop :=
  List.Forall₂ (fun r b => r.1 ≤ b ∧ b ≤ r.2) owed q

@[simp] theorem inRanges_nil {q : List Byte} : InRanges [] q ↔ q = [] := List.forall₂_nil_left_iff

theorem inRanges_cons {r : Byte × Byte} {owed : List (Byte × Byte)} {q : List Byte} :
    InRanges (r :: owed) q ↔ ∃ b t, (r.1 ≤ b ∧ b ≤ r.2) ∧ InRanges owed t ∧ q = b :: t := List.forall₂_cons_left_iff

/-- The table of R89 as data: the ranges of the first byte and of the bytes that follow it. -/
def utf8Rows : List ((Byte × Byte) × List (Byte × Byte)) :=
  [((0x00, 0x7F), []),
   ((0xC2, 0xDF), [(0x80, 0xBF)]),
   ((0xE0, 0xE0), [(0xA0, 0xBF), (0x80, 0xBF)]),
   ((0xE1, 0xEC), [(0x80, 0xBF), (0x80, 0xBF)]),
   ((0xED, 0xED), [(0x80, 0x9F), (0x80, 0xBF)]),
   ((0xEE, 0xEF), [(0x80, 0xBF), (0x80, 0xBF)]),
   ((0xF0, 0xF0), [(0x90, 0xBF), (0x80, 0xBF), (0x80, 0xBF)]),
   ((0xF1, 0xF3), [(0x80, 0xBF), (0x80, 0xBF), (0x80, 0xBF)]),
   ((0xF4, 0xF4), [(0x80, 0x8F), (0x80, 0xBF), (0x80, 0xBF)])]

theorem utf8Tail_of_row : ∀ row ∈ utf8Rows, ∀ a : Byte, row.1.1 ≤ a → a ≤ row.1.2 → utf8Tail a = some row.2 := by
  decide +kernel

theorem exists_row_of_utf8Tail : ∀ a : Byte, ∀ owed ∈ utf8Tail a, ∃ row ∈ utf8Rows,
    (row.1.1 ≤ a ∧ a ≤ row.1.2) ∧ row.2 = owed := by
  decide +kernel

/-- The model's ranges after a first byte are those of the one row that byte starts. -/
theorem utf8Tail_eq_some_iff {a : Byte} {owed : List (Byte × Byte)} :
    utf8Tail a = some owed ↔ ∃ row ∈ utf8Rows, (row.1.1 ≤ a ∧ a ≤ row.1.2) ∧ row.2 = owed := by
  refine ⟨exists_row_of_utf8Tail a owed, ?_⟩
  rintro ⟨row, hrow, ⟨hlo, hhi⟩, rfl⟩
  exact utf8Tail_of_row row hrow a hlo hhi

/-- The rows of R89 as the statement writes them: only the rows of a sequence's own length can hold it. -/
theorem utf8Row_iff {q : List Byte} : Utf8Row q ↔ ∃ row ∈ utf8Rows, InRanges (row.1 :: row.2) q := by
  simp only [utf8Rows, List.exists_mem_cons_iff, InRanges]
  rcases q with _ | ⟨a, _ | ⟨b, _ | ⟨c, _ | ⟨d, _ | ⟨e, t⟩⟩⟩⟩⟩
  · simp [Utf8Row]
  · simp [Utf8Row, BitVec.le_def]
  · simp [Utf8Row, BitVec.le_def]
  · simp [Utf8Row, BitVec.le_def, or_and_right, and_assoc]
  · simp [Utf8Row, BitVec.le_def, or_and_right, and_assoc]
  · simp [Utf8Row]

theorem not_utf8Row_nil : ¬ Utf8Row [] := id

/-- A sequence of the table is a first byte and bytes in the ranges the model then expects. -/
theorem utf8Row_cons_iff {a : Byte} {q : List Byte} :
    Utf8Row (a :: q) ↔ ∃ owed, utf8Tail a = some owed ∧ InRanges owed q := by
  simp only [utf8Row_iff, utf8Tail_eq_some_iff, InRanges, List.forall₂_cons]
  constructor
  · rintro ⟨row, hrow, hfirst, htail⟩
    exact ⟨row.2, ⟨row, hrow, hfirst, rfl⟩, htail⟩
  · rintro ⟨_, ⟨row, hrow, hfirst, rfl⟩, htail⟩
    exact ⟨row, hrow, hfirst, htail⟩

/-! ## The loop -/

/-- The loop takes the bytes it is owed, then starts a new sequence. -/
theorem utf8Loop_iff {owed : List (Byte × Byte)} {b : List Byte} :
    utf8Loop owed b = true ↔ ∃ q rest, b = q ++ rest ∧ InRanges owed q ∧ utf8Valid rest = true := by
  induction owed generalizing b with
  | nil => simp [utf8Valid]
  | cons r owed ih =>
    cases b with
    | nil => simp [utf8Loop, inRanges_cons]
    | cons c b =>
      simp only [utf8Loop, Bool.and_eq_true, decide_eq_true_iff, ih, inRanges_cons]
      constructor
      · rintro ⟨hc, q, rest, rfl, hq, hrest⟩
        exact ⟨c :: q, rest, rfl, ⟨c, q, hc, hq, rfl⟩, hrest⟩
      · rintro ⟨_, rest, hb, ⟨c', q, hc, hq, rfl⟩, hrest⟩
        obtain ⟨rfl, rfl⟩ := List.cons.inj hb
        exact ⟨hc, q, rest, rfl, hq, hrest⟩

theorem utf8Valid_nil : utf8Valid [] = true := rfl

/-- Valid text that is not empty is one sequence of the table followed by valid text. -/
theorem utf8Valid_cons_iff {a : Byte} {b : List Byte} :
    utf8Valid (a :: b) = true ↔ ∃ q rest, b = q ++ rest ∧ Utf8Row (a :: q) ∧ utf8Valid rest = true := by
  cases h : utf8Tail a with
  | none => simp [utf8Valid, utf8Loop, utf8Row_cons_iff, h]
  | some owed =>
    rw [utf8Valid, utf8Loop, h]
    simp only [utf8Loop_iff, utf8Row_cons_iff, h, Option.some.injEq, exists_eq_left']

/-- Valid text is a concatenation of sequences of the table (R89). -/
theorem utf8Valid_iff {b : List Byte} :
    utf8Valid b = true ↔ ∃ seqs : List (List Byte), b = seqs.flatten ∧ ∀ q ∈ seqs, Utf8Row q := by
  constructor
  · induction hn : b.length using Nat.strong_induction_on generalizing b with
    | h n ih =>
    cases b with
    | nil => exact fun _ => ⟨[], rfl, by simp⟩
    | cons a b =>
      intro h
      obtain ⟨q, rest, rfl, hrow, hrest⟩ := utf8Valid_cons_iff.mp h
      obtain ⟨seqs, rfl, hseqs⟩ := ih rest.length (by rw [← hn, List.length_cons, List.length_append]; omega) rfl hrest
      exact ⟨(a :: q) :: seqs, rfl, List.forall_mem_cons.mpr ⟨hrow, hseqs⟩⟩
  · rintro ⟨seqs, rfl, hseqs⟩
    induction seqs with
    | nil => exact utf8Valid_nil
    | cons q seqs ih =>
      obtain ⟨hrow, hrest⟩ := List.forall_mem_cons.mp hseqs
      cases q with
      | nil => exact absurd hrow not_utf8Row_nil
      | cons a q => exact utf8Valid_cons_iff.mpr ⟨q, seqs.flatten, rfl, hrow, ih hrest⟩

/-- Settles O47: with the reference instantiation the text test is `utf8Valid` (`utf8Valid_iff`). -/
theorem referenceTextTestFollowsTheTable : Obligations.ReferenceTextTestFollowsTheTable := by
  intro cfg b href
  rw [Params.validText, href]
  exact utf8Valid_iff

end Sys2Proof.Machine
end

section
/-! PROOFS. Field arithmetic (R100 to R112): the words of the field commands, what a command that writes a field
register comes to, and the four functions in the ring of residues: the statements of `40_field_arithmetic.md`. -/

namespace Sys2Proof

/-! ## The command's word -/

/-- The word as a number: each field shifted to its place (R70). -/
theorem RawCommand.toNat_toWord (r : RawCommand) : r.toWord.toNat =
    0x100000 * r.rsv.toNat + 0x10000 * r.fs2.toNat + 0x1000 * r.fs1.toNat + 0x100 * r.fd.toNat + r.op.toNat := by
  simp only [RawCommand.toWord, BitVec.toNat_append, ← Nat.shiftLeft_add_eq_or_of_lt (BitVec.isLt _)]
  simp only [Nat.shiftLeft_eq]
  omega

@[simp] theorem FReg.toNat_field (r : FReg) : (FReg.field r).toNat = r.val := by
  rw [FReg.field, BitVec.toNat_ofNat, Nat.mod_eq_of_lt (r.isLt.trans (by decide))]

/-- The word of a row's command: its opcode byte and the register indices the row uses (R70, R71). -/
theorem toNat_encode_build (o : Opcode) (fd fs1 fs2 : FReg) : (encode (o.build fd fs1 fs2)).toNat =
    0x10000 * (if o.usesFs2 then fs2.val else 0) + 0x1000 * (if o.usesFs1 then fs1.val else 0) +
      0x100 * (if o.usesFd then fd.val else 0) + o.byte.toNat := by
  rw [encode, o.raw_build, RawCommand.toNat_toWord]
  simp [apply_ite BitVec.toNat]

end Sys2Proof

namespace Sys2Proof.Machine

/-! ## A command whose effect is a register write -/

section RegisterWrite

variable {s : State} {r q : FReg} {v : Nat}

theorem exec_of_effectOf_reg {i : Instr} (hc : s.cfg.Legal) (h : effectOf s i = .reg r v) (hv : v < s.cfg.p) :
    ∃ (w : FieldWord) (c : Word), w.toNat = v ∧
      exec i s = .next (State.afterCompletion { s with f := s.f.set r w } none c) :=
  ⟨toField v, 0, toNat_toField (hv.trans hc.below), exec_of_effectOf h⟩

theorem State.operand_commit_reg_same (hv : v < 2 ^ 257) : (s.commit (.reg r v)).operand r = v := by
  rw [State.operand, State.commit, State.reg_complete, State.reg_setReg_same, toNat_toField hv]

theorem State.operand_commit_reg_other (h : q ≠ r) : (s.commit (.reg r v)).operand q = s.operand q := by
  rw [State.operand, State.commit, State.reg_complete, State.reg_setReg_other _ _ h, State.operand]

end RegisterWrite

/-! ## Subtraction and inversion as R102 gives them -/

/-- The remainder of R11 is never negative, so taking it as a natural number loses nothing. -/
theorem natCast_fsub {p : Nat} (hp : 0 < p) (a b : Nat) : ((fsub p a b : Nat) : Int) = ((a : Int) - b) % p :=
  Int.toNat_of_nonneg (Int.emod_nonneg _ (by exact_mod_cast hp.ne'))

theorem finv_of_mod_eq_zero {p a : Nat} (h : a % p = 0) : finv p a = none := if_pos h

theorem finv_of_mod_ne_zero {p a : Nat} (hp : 0 < p) (h : a % p ≠ 0) : finv p a = some (a ^ (p - 2) % p) := by
  rw [finv, if_neg h, powMod_eq _ _ _ hp]

/-! ## The four commands -/

/-- Settles O25: `FADD` has one effect, the write of the adder unit's sum. -/
theorem faddWritesTheReducedSum : Obligations.FaddWritesTheReducedSum := fun _ fd fs1 fs2 hc =>
  ⟨toNat_encode_build .fadd fd fs1 fs2, exec_of_effectOf_reg hc rfl (fadd_lt hc.prime.pos _ _)⟩

/-- Settles O26: `FSUB` has one effect, the write of the adder unit's difference (`natCast_fsub`). -/
theorem fsubWritesTheReducedDifference : Obligations.FsubWritesTheReducedDifference := by
  intro s fd fs1 fs2 hc
  obtain ⟨w, c, hw, hexec⟩ := exec_of_effectOf_reg (i := .fsub fd fs1 fs2) hc rfl (fsub_lt hc.prime.pos _ _)
  exact ⟨toNat_encode_build .fsub fd fs1 fs2, w, c, hw ▸ natCast_fsub hc.prime.pos _ _, hexec⟩

/-- Settles O27: `FMUL` has one effect, the write of the multiplier unit's product. -/
theorem fmulWritesTheReducedProduct : Obligations.FmulWritesTheReducedProduct := fun _ fd fs1 fs2 hc =>
  ⟨toNat_encode_build .fmul fd fs1 fs2, exec_of_effectOf_reg hc rfl (fmul_lt hc.prime.pos _ _)⟩

theorem toNat_lt_two_mul {w p : Nat} (h : 2 ^ w < p) (x : BitVec (w + 1)) : x.toNat < 2 * p := calc
  x.toNat < 2 * 2 ^ w := pow_succ' 2 w ▸ x.isLt
  _ < 2 * p := Nat.mul_lt_mul_of_pos_left h (by decide)

/-- No 257-bit multiple of `P` but 0 and `P` itself: `2P` exceeds 257 bits (R108). -/
theorem State.operand_mod_eq_zero_iff {s : State} (hc : s.cfg.Legal) (r : FReg) :
    s.operand r % s.cfg.p = 0 ↔ s.operand r = 0 ∨ s.operand r = s.cfg.p := by
  have hlt : s.operand r < 2 * s.cfg.p := toNat_lt_two_mul hc.above (s.reg r)
  constructor
  · intro h
    obtain ⟨k, hk⟩ := Nat.dvd_of_mod_eq_zero h
    have hk2 : k < 2 := Nat.lt_of_mul_lt_mul_left (a := s.cfg.p) (by omega)
    interval_cases k <;> omega
  · rintro (h | h) <;> rw [h]
    · exact Nat.zero_mod _
    · exact Nat.mod_self _

theorem effectOf_finv_of_some {s : State} {fd fs1 : FReg} {v : Nat} (h : finv s.cfg.p (s.operand fs1) = some v) :
    effectOf s (.finv fd fs1) = .reg fd v := by
  rw [effectOf, inverseUnit, h, Effect.ofValue]

theorem effectOf_finv_of_none {s : State} {fd fs1 : FReg} (h : finv s.cfg.p (s.operand fs1) = none) :
    effectOf s (.finv fd fs1) = .fail .zeroInverse s.rng := by
  rw [effectOf, inverseUnit, h, Effect.ofValue]

/-- Settles O28: `FINV` writes the power, or fails, as the operand's residue says. -/
theorem finvWritesTheInverseOrRaises : Obligations.FinvWritesTheInverseOrRaises := by
  intro s fd fs1 hc
  refine ⟨?word, fun hne => ?inverse, fun hzero => ?raises, State.operand_mod_eq_zero_iff hc fs1⟩
  case word =>
    simpa [Opcode.build, Opcode.usesFd, Opcode.usesFs1, Opcode.usesFs2, Opcode.byte] using
      toNat_encode_build .finv fd fs1 0
  case inverse =>
    have heffect := effectOf_finv_of_some (fd := fd) (finv_of_mod_ne_zero hc.prime.pos hne)
    exact exec_of_effectOf_reg hc heffect (Nat.mod_lt _ hc.prime.pos)
  case raises => exact ⟨0, exec_of_effectOf (effectOf_finv_of_none (finv_of_mod_eq_zero hzero))⟩

/-! ## The laws of the four functions (R109, R111)

Both sides of a law are below `p`, so it is enough that they are the same residue. -/

theorem eq_of_residue_eq {p a b : Nat} (ha : a < p) (hb : b < p) (h : (a : ZMod p) = (b : ZMod p)) : a = b :=
  Nat.ModEq.eq_of_lt_of_lt ((ZMod.natCast_eq_natCast_iff a b p).mp h) ha hb

section Laws

variable {p : Nat}

theorem fmul_finv (hp : p.Prime) {a v : Nat} (h : finv p a = some v) : fmul p a v = 1 := by
  have : Fact p.Prime := ⟨hp⟩
  obtain ⟨-, hnone⟩ | ⟨hne, w, hw, hinv⟩ := finv_cases (p := p) a
  · cases hnone.symm.trans h
  · obtain rfl : w = v := Option.some.inj (hw.symm.trans h)
    refine eq_of_residue_eq (fmul_lt hp.pos _ _) hp.one_lt ?_
    rw [cast_fmul, hinv, mul_inv_cancel₀ hne, Nat.cast_one]

theorem fadd_comm (a b : Nat) : fadd p a b = fadd p b a := by rw [fadd, fadd, Nat.add_comm]

theorem fmul_comm (a b : Nat) : fmul p a b = fmul p b a := by rw [fmul, fmul, Nat.mul_comm]

theorem fadd_mod (a b : Nat) : fadd p (a % p) (b % p) = fadd p a b := (Nat.add_mod a b p).symm

theorem fmul_mod (a b : Nat) : fmul p (a % p) (b % p) = fmul p a b := (Nat.mul_mod a b p).symm

theorem fsub_mod (a b : Nat) : fsub p (a % p) (b % p) = fsub p a b := by
  rw [fsub, fsub, Int.natCast_mod, Int.natCast_mod, ← Int.sub_emod]

theorem finv_mod (a : Nat) : finv p (a % p) = finv p a := by
  simp only [finv, powMod, Nat.mod_mod]

variable [NeZero p]

theorem fadd_assoc (a b c : Nat) : fadd p (fadd p a b) c = fadd p a (fadd p b c) := by
  refine eq_of_residue_eq (fadd_lt (NeZero.pos p) _ _) (fadd_lt (NeZero.pos p) _ _) ?_
  simp only [cast_fadd, add_assoc]

theorem fmul_assoc (a b c : Nat) : fmul p (fmul p a b) c = fmul p a (fmul p b c) := by
  refine eq_of_residue_eq (fmul_lt (NeZero.pos p) _ _) (fmul_lt (NeZero.pos p) _ _) ?_
  simp only [cast_fmul, mul_assoc]

theorem fmul_fadd (a b c : Nat) : fmul p a (fadd p b c) = fadd p (fmul p a b) (fmul p a c) := by
  refine eq_of_residue_eq (fmul_lt (NeZero.pos p) _ _) (fadd_lt (NeZero.pos p) _ _) ?_
  simp only [cast_fmul, cast_fadd, mul_add]

theorem fsub_eq_fadd_fsub_zero (a b : Nat) : fsub p a b = fadd p a (fsub p 0 b) := by
  refine eq_of_residue_eq (fsub_lt (NeZero.pos p) _ _) (fadd_lt (NeZero.pos p) _ _) ?_
  rw [cast_fadd, cast_fsub, cast_fsub, Nat.cast_zero, zero_sub, sub_eq_add_neg]

theorem fsub_zero_left {a : Nat} (h0 : a ≠ 0) (h : a < p) : fsub p 0 a = p - a := by
  refine eq_of_residue_eq (fsub_lt (NeZero.pos p) _ _) (by omega) ?_
  rw [cast_fsub, Nat.cast_sub h.le, ZMod.natCast_self, Nat.cast_zero]

theorem fadd_fsub_cancel (a b : Nat) : fadd p (fsub p a b) b = a % p := by
  refine eq_of_residue_eq (fadd_lt (NeZero.pos p) _ _) (Nat.mod_lt _ (NeZero.pos p)) ?_
  rw [cast_fadd, cast_fsub, ZMod.natCast_mod, sub_add_cancel]

end Laws

/-- Settles O29: the result is still there for the multiplication, and so is the operand, as `fd ≠ fs1`
(`fmul_finv`). -/
theorem inverseTimesOperandIsOne : Obligations.InverseTimesOperandIsOne := by
  intro s fd fs1 k hc hne hother
  have hfinv := finv_of_mod_ne_zero hc.prime.pos hne
  set v := s.operand fs1 ^ (s.cfg.p - 2) % s.cfg.p
  set t := s.commit (.reg fd v)
  have hresult : t.operand fd = v :=
    s.operand_commit_reg_same ((finv_lt hc.prime.pos hfinv).trans hc.below)
  have hone : effectOf t (.fmul k fs1 fd) = .reg k 1 := by
    rw [effectOf, multiplierUnit, hresult, s.operand_commit_reg_other hother.symm, s.commit_cfg,
      fmul_finv hc.prime hfinv]
  exact ⟨t, t.commit (.reg k 1), exec_of_effectOf (effectOf_finv_of_some hfinv), rfl, exec_of_effectOf hone, rfl,
    t.operand_commit_reg_same (hc.prime.one_lt.trans hc.below)⟩

/-- Settles O30, law by law. -/
theorem fieldFunctionsObeyTheRingLaws : Obligations.FieldFunctionsObeyTheRingLaws := by
  intro p a b c hp
  have : NeZero p := ⟨hp.ne_zero⟩
  exact ⟨fadd_comm a b, fmul_comm a b, fadd_assoc a b c, fmul_assoc a b c, fmul_fadd a b c,
    fsub_eq_fadd_fsub_zero a b, fsub_zero_left, fadd_fsub_cancel a b, fadd_mod a b, fsub_mod a b, fmul_mod a b,
    finv_mod a⟩

end Sys2Proof.Machine
end

section
/-! PROOFS. Polynomials (R120 to R130): Horner's method is the polynomial's value, which depends on the residue of the
point only; and what `PCONS`, `PEVAL` and `PSHARE` come to in each of their cases: the statements of
`41_polynomial.md`. -/

namespace Sys2Proof.Machine

/-! ## The value of a polynomial (R120, R121) -/

section Value

variable {p : Nat}

theorem polyValue_lt (hp : 0 < p) (c : List Nat) (x : Nat) : polyValue p c x < p := Nat.mod_lt _ hp

/-- The sum of the powers, factored from the constant term on, as Horner's method computes it. -/
theorem cast_polyValue (c : List Nat) (x : Nat) :
    ((polyValue p c x : Nat) : ZMod p) = c.foldr (fun (a : Nat) (acc : ZMod p) => (a : ZMod p) + acc * x) 0 := by
  rw [polyValue, ZMod.natCast_mod]
  induction c with
  | nil => simp
  | cons a c ih =>
    rw [List.foldr_cons, ← ih, List.length_cons, Finset.sum_range_succ']
    simp only [List.getD_cons_succ, List.getD_cons_zero, pow_succ, pow_zero, mul_one, ← mul_assoc, ← Finset.sum_mul]
    push_cast
    ring

/-- `Horner(c, x)` is the polynomial's value, reduced (R121, R127 (c)). -/
theorem horner_eq_polyValue (hp : 0 < p) (c : List Nat) (x : Nat) : horner p c x = polyValue p c x :=
  eq_of_residue_eq (horner_lt hp c x) (polyValue_lt hp c x) ((cast_horner c x).trans (cast_polyValue c x).symm)

/-- Congruent points have one value (R127 (b)). -/
theorem horner_congr (hp : 0 < p) (c : List Nat) {x y : Nat} (h : x % p = y % p) : horner p c x = horner p c y := by
  refine eq_of_residue_eq (horner_lt hp c x) (horner_lt hp c y) ?_
  rw [cast_horner, cast_horner, (ZMod.natCast_eq_natCast_iff' x y p).mpr h]

theorem getD_entries {m : Memory 257} {k i : Nat} (h : i < k) : (entries m k).getD i 0 = (Memory.read m i).toNat := by
  simp [entries, Memory.readList, h]

@[simp] theorem length_entries (m : Memory 257) (k : Nat) : (entries m k).length = k := by
  rw [entries, List.length_map, Memory.length_readList]

/-- The value of the polynomial whose coefficients stand in a store (R31). -/
theorem polyValue_entries (m : Memory 257) (k x : Nat) :
    polyValue p (entries m k) x = (∑ i ∈ Finset.range k, (Memory.read m i).toNat * x ^ i) % p := by
  rw [polyValue, length_entries]
  congr 1
  exact Finset.sum_congr rfl fun i hi => by rw [getD_entries (Finset.mem_range.mp hi)]

end Value

theorem State.evaluatorUnit_coefs {s : State} (hc : s.cfg.Legal) (x : Nat) : evaluatorUnit s.cfg.p s.coefs x =
    (∑ i ∈ Finset.range s.clen.toNat, (Memory.read s.coef i).toNat * x ^ i) % s.cfg.p :=
  (horner_eq_polyValue hc.prime.pos _ _).trans (polyValue_entries _ _ _)

/-! ## Storing a list -/

section Stores

variable {m m' : Memory 257} {vals : List Nat} {i : Nat}

theorem storesFirst_writeList (hm : m.wf) (vals : List Nat) :
    StoresFirst m vals (Memory.writeList m 0 (vals.map toField)) := by
  intro i
  rw [Memory.read_writeList m hm, List.length_map]
  by_cases h : i < vals.length
  · simp [h, toField]
  · rw [if_neg (by omega), if_neg h]

/-- An entry stored reads back whole when it fits 257 bits. -/
theorem StoresFirst.toNat_read (h : StoresFirst m vals m') (hi : i < vals.length) (hv : vals.getD i 0 < 2 ^ 257) :
    (Memory.read m' i).toNat = vals.getD i 0 := by
  rw [h i, if_pos hi]
  exact toNat_toField hv

theorem StoresFirst.read_ne_zero (h : StoresFirst m vals m') (hi : i < vals.length) (hv : vals.getD i 0 < 2 ^ 257)
    (hne : vals.getD i 0 ≠ 0) : Memory.read m' i ≠ 0 := by
  rw [← h.toNat_read hi hv] at hne
  exact fun hzero => hne ((congrArg BitVec.toNat hzero).trans BitVec.toNat_zero)

end Stores

/-! ## What the three commands come to -/

section Effects

variable {s : State} {fd fs1 : FReg}

/-- A command that fails completes with its error, the answers it asked for consumed, and nothing else changed
(R186, R187). -/
theorem exec_of_effectOf_fail {i : Instr} {e : CmdError} {rest : List Answer} (h : effectOf s i = .fail e rest) :
    ∃ c, exec i s = .next (State.afterCompletion { s with rng := rest } (some e) c) :=
  ⟨0, exec_of_effectOf h⟩

theorem effectOf_pcons (h1 : 1 ≤ s.t.toNat) (hmax : s.t.toNat ≤ s.cfg.tMax) :
    effectOf s (.pcons fs1) = .ofDraws (fun c rest => .coefs c s.t rest)
      (construct s.cfg.retryMax (s.operand fs1 % s.cfg.p) s.t.toNat s.rng) := by
  rw [effectOf, if_neg (by omega)]

theorem effectOf_peval (h1 : 1 ≤ s.clen.toNat) (hmax : s.clen.toNat ≤ s.cfg.tMax) :
    effectOf s (.peval fd fs1) = .reg fd (evaluatorUnit s.cfg.p s.coefs (s.operand fs1)) := by
  rw [effectOf, if_neg (by omega)]

theorem effectOf_pshare (h1 : 1 ≤ s.clen.toNat) (hmax : s.clen.toNat ≤ s.cfg.tMax) (hn : s.n.toNat ≤ s.cfg.nMax) :
    effectOf s .pshare = .ofDraws (fun xs rest => .shares xs (xs.map (evaluatorUnit s.cfg.p s.coefs)) s.n rest)
      (drawShares s.cfg.retryMax s.n.toNat [] s.rng) := by
  rw [effectOf, if_neg (by omega)]

theorem effectOf_pcons_ok {c : List Nat} {rest : List Answer} (h1 : 1 ≤ s.t.toNat) (hmax : s.t.toNat ≤ s.cfg.tMax)
    (htakes : TakesCoefs s.cfg.retryMax (s.operand fs1 % s.cfg.p) s.t.toNat s.rng c rest) :
    effectOf s (.pcons fs1) = .coefs c s.t rest := by
  rw [effectOf_pcons h1 hmax, (construct_ok_iff _ _ _ _ _ _ h1).mpr htakes]
  rfl

theorem effectOf_pcons_exhausted {rest : List Answer} (h1 : 1 ≤ s.t.toNat) (hmax : s.t.toNat ≤ s.cfg.tMax)
    (hex : ExhaustsCoefs s.cfg.retryMax s.t.toNat s.rng rest) :
    effectOf s (.pcons fs1) = .fail .rngExhausted rest := by
  rw [effectOf_pcons h1 hmax, (construct_exhausted_iff _ _ _ _ _ h1).mpr hex]
  rfl

theorem effectOf_pshare_ok {xs : List Nat} {rest : List Answer} (h1 : 1 ≤ s.clen.toNat)
    (hmax : s.clen.toNat ≤ s.cfg.tMax) (hn : s.n.toNat ≤ s.cfg.nMax)
    (htakes : TakesShares s.cfg.retryMax [] s.rng xs rest) (hlen : xs.length = s.n.toNat) :
    effectOf s .pshare = .shares xs (xs.map (evaluatorUnit s.cfg.p s.coefs)) s.n rest := by
  rw [effectOf_pshare h1 hmax hn, (drawShares_ok_iff _ _ _ _ _ _).mpr ⟨xs, rfl, hlen, htakes⟩]
  rfl

theorem effectOf_pshare_exhausted {rest : List Answer} (h1 : 1 ≤ s.clen.toNat) (hmax : s.clen.toNat ≤ s.cfg.tMax)
    (hn : s.n.toNat ≤ s.cfg.nMax) (hex : ExhaustsShares s.cfg.retryMax s.n.toNat s.rng rest) :
    effectOf s .pshare = .fail .rngExhausted rest := by
  rw [effectOf_pshare h1 hmax hn, (drawShares_exhausted_iff _ _ _ _ _).mpr hex]
  rfl

end Effects

/-! ## `PCONS` (R123) -/

/-- Settles O31: the draws decide which of its effects `PCONS` has, and `storesFirst_writeList` says what it stores. -/
theorem pconsStoresARandomPolynomial : Obligations.PconsStoresARandomPolynomial := by
  intro s fs1 hc hs
  refine ⟨?word, fun coefs rest h1 hmax htakes => ?stores, fun hbad => exec_of_effectOf_fail (if_pos hbad),
    fun rest h1 hmax hex => exec_of_effectOf_fail (effectOf_pcons_exhausted h1 hmax hex)⟩
  case word =>
    simpa [Opcode.build, Opcode.usesFd, Opcode.usesFs1, Opcode.usesFs2, Opcode.byte] using
      toNat_encode_build .pcons 0 fs1 0
  case stores =>
    exact ⟨_, 0, storesFirst_writeList hs.coef_wf coefs, htakes.length,
      exec_of_effectOf (effectOf_pcons_ok h1 hmax htakes)⟩

/-- The top coefficient of a construction with a draw is the answer taken for it, which is not 0 (R124). -/
theorem TakesCoefs.top {limit : Option Nat} {secret t : Nat} {stream rest : List Answer} {c : List Nat}
    (h : TakesCoefs limit secret t stream c rest) (ht : 2 ≤ t) :
    ∃ a : Answer, c.getD (t - 1) 0 = a.toNat ∧ a.toNat ≠ 0 := by
  obtain ⟨rfl, -⟩ | ⟨-, middle, onward, _, -, hlen, ⟨_, a, -, rfl, hbad, -⟩, rfl⟩ := h
  · omega
  · refine ⟨a, ?_, by simpa using hbad⟩
    have hbelow : (secret :: middle.map BitVec.toNat).length = t - 1 := by
      rw [List.length_cons, List.length_map]
      omega
    rw [← hbelow, List.getD_append_right _ _ _ _ le_rfl, Nat.sub_self, List.getD_cons_zero]

/-- An error-free `PCONS` has stored a construction. -/
theorem CompletesOk.exists_takesCoefs {s t : State} {fs1 : FReg} (hok : CompletesOk s t)
    (h : exec (.pcons fs1) s = .next t) (hs : s.StorageOk) :
    ∃ c rest, TakesCoefs s.cfg.retryMax (s.operand fs1 % s.cfg.p) t.clen.toNat s.rng c rest ∧
      StoresFirst s.coef c t.coef := by
  obtain rfl := exec_next_iff.mp h
  obtain ⟨hwait, hfail⟩ := hok.effect
  have hgood : ¬ (s.t.toNat = 0 ∨ s.cfg.tMax < s.t.toNat) := fun hbad => hfail _ _ (if_pos hbad)
  have h1 : 1 ≤ s.t.toNat := by omega
  have heffect := effectOf_pcons (fs1 := fs1) h1 (by omega)
  cases hd : construct s.cfg.retryMax (s.operand fs1 % s.cfg.p) s.t.toNat s.rng with
  | ok c rest =>
    rw [heffect, hd]
    exact ⟨c, rest, (construct_ok_iff _ _ _ _ _ _ h1).mp hd, storesFirst_writeList hs.coef_wf c⟩
  | exhausted rest => exact absurd (heffect.trans (congrArg _ hd)) (hfail _ _)
  | waiting => exact absurd (heffect.trans (congrArg _ hd)) hwait

/-- Settles O32: what `PCONS` stored is a construction (`CompletesOk.exists_takesCoefs`), and the top of a construction
is an answer that is not 0 (`TakesCoefs.top`). -/
theorem topCoefficientIsNotZero : Obligations.TopCoefficientIsNotZero := by
  refine ⟨fun s t fs1 hc hs h hok => ?pcons, fun limit secret n stream coefs rest hn hconstruct => ?construct⟩
  case pcons =>
    obtain ⟨c, rest, htakes, hstores⟩ := hok.exists_takesCoefs h hs
    have hlen := htakes.length
    refine ⟨fun ht => ?top, fun ht => ?secret⟩
    case top =>
      obtain ⟨a, htop, hne⟩ := htakes.top ht
      have hlt : c.getD (t.clen.toNat - 1) 0 < 2 ^ 257 := (htop.trans_lt a.isLt).trans (by omega)
      exact hstores.read_ne_zero (by omega) hlt (htop ▸ hne)
    case secret =>
      have hlt : s.operand fs1 % s.cfg.p < 2 ^ 257 := (Nat.mod_lt _ hc.prime.pos).trans hc.below
      obtain ⟨-, rfl, -⟩ | ⟨h2, -⟩ := htakes
      · exact hstores.toNat_read (i := 0) Nat.one_pos hlt
      · rw [ht] at h2
        exact absurd h2 (by decide)
  case construct =>
    have htakes := (construct_ok_iff _ _ _ _ _ _ (by omega)).mp hconstruct
    obtain ⟨a, htop, hne⟩ := htakes.top hn
    exact ⟨htakes.length, htop ▸ hne⟩

/-! ## `PEVAL` (R126, R127) -/

/-- Settles O34: the evaluator unit's result is the sum of R126 (`State.evaluatorUnit_coefs`). -/
theorem pevalWritesThePolynomialsValue : Obligations.PevalWritesThePolynomialsValue := by
  intro s fd fs1 hc
  refine ⟨?word, fun h1 hmax => ?value, fun hbad => exec_of_effectOf_fail (if_pos hbad)⟩
  case word =>
    simpa [Opcode.build, Opcode.usesFd, Opcode.usesFs1, Opcode.usesFs2, Opcode.byte] using
      toNat_encode_build .peval fd fs1 0
  case value =>
    rw [← State.evaluatorUnit_coefs hc]
    exact exec_of_effectOf_reg hc (effectOf_peval h1 hmax) (horner_lt hc.prime.pos _ _)

/-- `P - m` and `-m mod P` are one residue, also at `m = 0` (R127 (b)). -/
theorem sub_mod_eq_of_neg_emod {p m b : Nat} (hm : m ≤ p) (hb : (b : Int) = -(m : Int) % (p : Int)) :
    (p - m) % p = b % p := by
  zify [hm]
  rw [hb, Int.emod_emod, sub_eq_add_neg, Int.add_emod_left]

theorem exec_peval_congr {s : State} (hc : s.cfg.Legal) (fd : FReg) {a b : FReg}
    (h : s.operand a % s.cfg.p = s.operand b % s.cfg.p) : exec (.peval fd a) s = exec (.peval fd b) s := by
  simp only [exec_eq, effectOf, evaluatorUnit, horner_congr hc.prime.pos _ h]

/-- Settles O35: the value depends on the residue of the point (`exec_peval_congr`), and `PEVAL` draws nothing. -/
theorem evaluationDependsOnTheResidue : Obligations.EvaluationDependsOnTheResidue := by
  intro s fd a b hc
  refine ⟨exec_peval_congr hc fd, fun m hm ha hb => exec_peval_congr hc fd ?residue, fun t h => ?rng⟩
  case residue => rw [ha, sub_mod_eq_of_neg_emod hm.le hb]
  case rng =>
    obtain ⟨e, hf, rfl⟩ := exec_commits h
    exact hf.rng_kept (by simp [DrawsAnswers])

/-! ## `PSHARE` (R128) -/

/-- Settles O36: the draws decide which of its effects `PSHARE` has, and the values it stores are the polynomial's
(`State.evaluatorUnit_coefs`). -/
theorem pshareStoresSharesOfThePolynomial : Obligations.PshareStoresSharesOfThePolynomial := by
  intro s hc hs
  refine ⟨rfl, fun xs rest h1 hmax hn htakes hlen => ?stores, fun hbad => exec_of_effectOf_fail (if_pos hbad),
    fun rest h1 hmax hn hex => exec_of_effectOf_fail (effectOf_pshare_exhausted h1 hmax hn hex)⟩
  case stores =>
    simp only [← State.evaluatorUnit_coefs hc]
    exact ⟨_, _, 0, storesFirst_writeList hs.shx_wf xs, storesFirst_writeList hs.shy_wf _,
      exec_of_effectOf (effectOf_pshare_ok h1 hmax hn htakes hlen)⟩

end Sys2Proof.Machine
end

section
/-! PROOFS. Reconstruction (R140 to R147): the Lagrange sum is the value at 0 of the one polynomial of degree below
the number of shares on which the shares lie, so what `LRECON` writes follows from which polynomial that is: the
statements of `42_lagrange.md`. -/

namespace Sys2Proof.Machine

/-! ## The polynomial through the shares (R144, R145) -/

section Interpolation

open Polynomial

variable {p : Nat} {f : (ZMod p)[X]} {xs ys : List Nat}

/-- Every share is a point of the polynomial. -/
def SharesOn (f : (ZMod p)[X]) (xs ys : List Nat) : Prop :=
  ∀ q ∈ xs.zip ys, f.eval (q.1 : ZMod p) = (q.2 : ZMod p)

theorem sharesOn_iff_getD (hlen : ys.length = xs.length) : SharesOn f xs ys ↔
    ∀ i, i < xs.length → f.eval (xs.getD i 0 : ZMod p) = (ys.getD i 0 : ZMod p) := by
  constructor
  · intro h i hi
    have hys : i < ys.length := hlen ▸ hi
    have hmem : (xs[i], ys[i]) ∈ xs.zip ys := List.mem_iff_getElem.mpr ⟨i, by simp [hi, hys], by simp⟩
    rw [List.getD_eq_getElem _ _ hi, List.getD_eq_getElem _ _ hys]
    exact h _ hmem
  · intro h q hq
    obtain ⟨i, hi, rfl⟩ := List.mem_iff_getElem.mp hq
    rw [List.length_zip, lt_min_iff] at hi
    have hpoint := h i hi.1
    rw [List.getD_eq_getElem _ _ hi.1, List.getD_eq_getElem _ _ hi.2] at hpoint
    rwa [List.getElem_zip]

/-- Incongruent coordinates are different residues. -/
theorem DistinctMod.injOn (h : DistinctMod p xs) :
    Set.InjOn (fun i => (xs.getD i 0 : ZMod p)) (Finset.range xs.length) := by
  intro i hi j hj hij
  by_contra hne
  exact h.ne (Finset.mem_range.mp hj) (Finset.mem_range.mp hi) hne ((ZMod.natCast_eq_natCast_iff' _ _ p).mp hij)

variable [Fact p.Prime]

/-- The interpolation polynomial of the shares. -/
noncomputable def interpolant (p : Nat) [Fact p.Prime] (xs ys : List Nat) : (ZMod p)[X] :=
  Lagrange.interpolate (Finset.range xs.length) (fun i => (xs.getD i 0 : ZMod p)) fun i => (ys.getD i 0 : ZMod p)

theorem degree_interpolant_lt (h : DistinctMod p xs) : (interpolant p xs ys).degree < xs.length := by
  simpa [interpolant] using Lagrange.degree_interpolate_lt (fun i => (ys.getD i 0 : ZMod p)) h.injOn

theorem eval_interpolant (h : DistinctMod p xs) {i : Nat} (hi : i < xs.length) :
    (interpolant p xs ys).eval (xs.getD i 0 : ZMod p) = (ys.getD i 0 : ZMod p) := by
  have hnode := Lagrange.eval_interpolate_at_node (fun i => (ys.getD i 0 : ZMod p)) h.injOn (Finset.mem_range.mpr hi)
  exact hnode

theorem interpolant_sharesOn (h : DistinctMod p xs) (hlen : ys.length = xs.length) :
    SharesOn (interpolant p xs ys) xs ys :=
  (sharesOn_iff_getD hlen).mpr fun _ hi => eval_interpolant h hi

/-- The sum of R141 is Lagrange's formula at 0. -/
theorem lagrangeSum_eq_eval_interpolant (xs ys : List Nat) : lagrangeSum p xs ys = (interpolant p xs ys).eval 0 := by
  rw [lagrangeSum, interpolant, Lagrange.interpolate_apply, eval_finsetSum]
  refine Finset.sum_congr rfl fun i _ => ?_
  rw [eval_mul, eval_C, Lagrange.basis, eval_prod]
  congr 1
  refine Finset.prod_congr rfl fun j _ => ?_
  rw [Lagrange.basisDivisor, eval_mul, eval_C, eval_sub, eval_X, eval_C, zero_sub, ← neg_sub (xs.getD j 0 : ZMod p),
    inv_neg, neg_mul_neg, mul_comm]

/-- Uniqueness: whichever polynomial of degree below the number of shares passes through them, the sum of R141 is its
constant term (R144, R145). -/
theorem lagrangeSum_eq_eval (h : DistinctMod p xs) (hlen : ys.length = xs.length) (hdeg : f.degree < xs.length)
    (hon : SharesOn f xs ys) : lagrangeSum p xs ys = f.eval 0 := by
  have hpoint := (sharesOn_iff_getD hlen).mp hon
  have hunique : f = interpolant p xs ys := Lagrange.eq_interpolate_of_eval_eq _ h.injOn (by simpa using hdeg)
    fun i hi => hpoint i (Finset.mem_range.mp hi)
  rw [lagrangeSum_eq_eval_interpolant, hunique]

theorem recon_eq_some {v : Nat} (h : DistinctMod p xs) (hv : v < p) (hval : (v : ZMod p) = lagrangeSum p xs ys) :
    recon p xs ys = some v := by
  obtain ⟨w, hrecon, hw, hwval⟩ := recon_distinct xs ys h
  rw [hrecon, eq_of_residue_eq hw hv (hwval.trans hval.symm)]

end Interpolation

/-! ## What `Recon` answers (R144, R146) -/

section Recon

open Polynomial

variable {p : Nat} {xs ys c : List Nat}

/-- The polynomial with coefficients `c` in rising index order (R120). -/
noncomputable def coefPolynomial (p : Nat) (c : List Nat) : (ZMod p)[X] :=
  ∑ i : Fin c.length, C (c.getD i 0 : ZMod p) * X ^ (i : Nat)

theorem degree_coefPolynomial_lt (c : List Nat) : (coefPolynomial p c).degree < c.length :=
  degree_sum_fin_lt fun i : Fin c.length => (c.getD i 0 : ZMod p)

theorem eval_coefPolynomial (c : List Nat) (x : Nat) :
    (coefPolynomial p c).eval (x : ZMod p) = (polyValue p c x : Nat) := by
  rw [polyValue, ZMod.natCast_mod, Finset.sum_range, coefPolynomial, eval_finsetSum, Nat.cast_sum]
  exact Finset.sum_congr rfl fun i _ => by simp

theorem polyValue_zero (c : List Nat) : polyValue p c 0 = c.getD 0 0 % p := by
  cases c with
  | nil => simp [polyValue]
  | cons a c => simp [polyValue, Finset.sum_range_succ']

/-- Shares on a polynomial with at most as many coefficients as there are shares: `Recon` answers its constant term
(R144). -/
theorem recon_of_polyValue (hp : p.Prime) (h : DistinctMod p xs) (hlen : ys.length = xs.length)
    (hc : c.length ≤ xs.length)
    (hon : ∀ i, i < xs.length → ys.getD i 0 % p = polyValue p c (xs.getD i 0)) :
    recon p xs ys = some (c.getD 0 0 % p) := by
  have : Fact p.Prime := ⟨hp⟩
  have hshares : SharesOn (coefPolynomial p c) xs ys := (sharesOn_iff_getD hlen).mpr fun i hi => by
    rw [eval_coefPolynomial, ← hon i hi, ZMod.natCast_mod]
  have hdeg : (coefPolynomial p c).degree < xs.length :=
    (degree_coefPolynomial_lt c).trans_le (by exact_mod_cast hc)
  refine recon_eq_some h (Nat.mod_lt _ hp.pos) ?_
  rw [lagrangeSum_eq_eval h hlen hdeg hshares, ← polyValue_zero, ← eval_coefPolynomial, Nat.cast_zero]

/-- A share at 0 is a point of the polynomial where its constant term is read (R146 (b)). -/
theorem recon_of_share_at_zero (hp : p.Prime) (h : DistinctMod p xs) {i : Nat} (hi : i < xs.length)
    (hzero : xs.getD i 0 % p = 0) : recon p xs ys = some (ys.getD i 0 % p) := by
  have : Fact p.Prime := ⟨hp⟩
  have hpoint := eval_interpolant (ys := ys) h hi
  rw [(residue_eq_zero _).mp hzero] at hpoint
  refine recon_eq_some h (Nat.mod_lt _ hp.pos) ?_
  rw [lagrangeSum_eq_eval_interpolant, hpoint, ZMod.natCast_mod]

/-- One share lies on the constant polynomial of its own `y` (R146 (c)). -/
theorem recon_singleton (hp : p.Prime) (x y : Nat) : recon p [x] [y] = some (y % p) :=
  recon_of_polyValue (c := [y]) hp (List.pairwise_singleton _ _) rfl le_rfl fun i hi => by
    obtain rfl : i = 0 := Nat.lt_one_iff.mp hi
    simp [polyValue]

/-- `Recon` sees the shares as a set: the same polynomial passes through them in any order (R146 (a)). -/
theorem recon_perm (hp : p.Prime) {xs' ys' : List Nat} (hlen : ys.length = xs.length)
    (hlen' : ys'.length = xs'.length) (h : (xs.zip ys).Perm (xs'.zip ys')) : recon p xs ys = recon p xs' ys' := by
  have : Fact p.Prime := ⟨hp⟩
  have hxs : xs.Perm xs' := by
    have hfst := h.map Prod.fst
    rwa [List.map_fst_zip hlen.ge, List.map_fst_zip hlen'.ge] at hfst
  have hdistinct : DistinctMod p xs ↔ DistinctMod p xs' := hxs.pairwise_iff Ne.symm
  by_cases hd : DistinctMod p xs
  · have hd' := hdistinct.mp hd
    have hdeg : (interpolant p xs ys).degree < xs'.length := hxs.length_eq ▸ degree_interpolant_lt hd
    have hon : SharesOn (interpolant p xs ys) xs' ys' := fun q hq =>
      interpolant_sharesOn hd hlen q (h.mem_iff.mpr hq)
    obtain ⟨v, hrecon, hv, hval⟩ := recon_distinct xs ys hd
    rw [hrecon, recon_eq_some hd' hv]
    rw [hval, lagrangeSum_eq_eval_interpolant, lagrangeSum_eq_eval hd' hlen' hdeg hon]
  · rw [(recon_none_iff xs ys).mpr hd, (recon_none_iff xs' ys').mpr (mt hdistinct.mpr hd)]

end Recon

/-! ## `LRECON` (R143) -/

section Lrecon

variable {s : State} {fd : FReg}

@[simp] theorem State.length_shareXs (s : State) : s.shareXs.length = s.shn.toNat := length_entries _ _

@[simp] theorem State.length_shareYs (s : State) : s.shareYs.length = s.shn.toNat := length_entries _ _

theorem State.length_shareYs_eq (s : State) : s.shareYs.length = s.shareXs.length := by
  rw [s.length_shareYs, s.length_shareXs]

theorem State.getD_shareXs {i : Nat} (h : i < s.shn.toNat) : s.shareXs.getD i 0 = (Memory.read s.shx i).toNat :=
  getD_entries h

theorem State.getD_shareYs {i : Nat} (h : i < s.shn.toNat) : s.shareYs.getD i 0 = (Memory.read s.shy i).toNat :=
  getD_entries h

theorem effectOf_lrecon (h1 : 1 ≤ s.shn.toNat) (hmax : s.shn.toNat ≤ s.cfg.nMax) :
    effectOf s (.lrecon fd) = .ofValue s fd (recon s.cfg.p s.shareXs s.shareYs) := by
  rw [effectOf, if_neg (by omega), interpolatorUnit]

theorem effectOf_lrecon_some {v : Nat} (h1 : 1 ≤ s.shn.toNat) (hmax : s.shn.toNat ≤ s.cfg.nMax)
    (h : recon s.cfg.p s.shareXs s.shareYs = some v) : effectOf s (.lrecon fd) = .reg fd v := by
  rw [effectOf_lrecon h1 hmax, h, Effect.ofValue]

theorem effectOf_lrecon_none (h1 : 1 ≤ s.shn.toNat) (hmax : s.shn.toNat ≤ s.cfg.nMax)
    (h : recon s.cfg.p s.shareXs s.shareYs = none) : effectOf s (.lrecon fd) = .fail .zeroInverse s.rng := by
  rw [effectOf_lrecon h1 hmax, h, Effect.ofValue]

/-- `LRECON` with a count in range completes without error when `Recon` answers, with the answer in `f[fd]`. -/
theorem exec_lrecon_of_recon {v : Nat} (hc : s.cfg.Legal) (h1 : 1 ≤ s.shn.toNat) (hmax : s.shn.toNat ≤ s.cfg.nMax)
    (h : recon s.cfg.p s.shareXs s.shareYs = some v) :
    ∃ t, exec (.lrecon fd) s = .next t ∧ t.Completed none ∧ t.operand fd = v :=
  ⟨_, exec_of_effectOf (effectOf_lrecon_some h1 hmax h), ⟨rfl, rfl, rfl, rfl⟩,
    s.operand_commit_reg_same ((interpolatorUnit_lt hc.prime h).trans hc.below)⟩

/-- The effect of a value depends on the state in the answers left only. -/
theorem State.commit_ofValue_congr (s u : State) (fd : FReg) (v : Option Nat) :
    (s.commit (.ofValue s fd v)).err = (u.commit (.ofValue u fd v)).err ∧
      ((s.commit (.ofValue s fd v)).err = none →
        (s.commit (.ofValue s fd v)).reg fd = (u.commit (.ofValue u fd v)).reg fd) := by
  cases v with
  | none => exact ⟨rfl, nofun⟩
  | some v => exact ⟨rfl, fun _ => by simp [Effect.ofValue, State.commit]⟩

end Lrecon

/-- Settles O38: `Recon` answers the sum of R141 or nothing as the coordinates are incongruent or not
(`recon_distinct`, `recon_none_iff`), and a bad count is tested before. -/
theorem lreconWritesTheLagrangeSum : Obligations.LreconWritesTheLagrangeSum := by
  intro s fd hc
  have : Fact s.cfg.p.Prime := ⟨hc.prime⟩
  refine ⟨?word, fun h1 hmax hd => ?sum, fun h1 hmax hd => ?zeroInverse,
    fun hbad => exec_of_effectOf_fail (if_pos hbad)⟩
  case word =>
    simpa [Opcode.build, Opcode.usesFd, Opcode.usesFs1, Opcode.usesFs2, Opcode.byte] using
      toNat_encode_build .lrecon fd 0 0
  case sum =>
    obtain ⟨v, hrecon, hv, hval⟩ := recon_distinct s.shareXs s.shareYs hd
    obtain ⟨w, c, rfl, hexec⟩ := exec_of_effectOf_reg hc (effectOf_lrecon_some (fd := fd) h1 hmax hrecon) hv
    exact ⟨w, c, hv, hval, hexec⟩
  case zeroInverse =>
    exact exec_of_effectOf_fail (effectOf_lrecon_none h1 hmax ((recon_none_iff _ _).mpr hd))

/-- Settles O39: the shares lie on the polynomial, so `Recon` answers its constant term (`recon_of_polyValue`). -/
theorem reconstructionFindsTheConstantTerm : Obligations.ReconstructionFindsTheConstantTerm := by
  intro s fd f hc h1 hmax hd hlen hon
  refine exec_lrecon_of_recon hc h1 hmax (recon_of_polyValue hc.prime hd s.length_shareYs_eq ?length ?points)
  case length => rwa [s.length_shareXs]
  case points =>
    intro i hi
    rw [s.length_shareXs] at hi
    rw [State.getD_shareXs hi, State.getD_shareYs hi, hon i hi]

/-- Settles O41: the counts are the same, and `Recon` does not see the order (`recon_perm`). -/
theorem shareOrderDoesNotMatter : Obligations.ShareOrderDoesNotMatter := by
  intro s u fd hc hcfg h
  have hcount : s.shn.toNat = u.shn.toNat := by simpa using h.length_eq
  have hrecon := recon_perm hc.prime s.length_shareYs_eq u.length_shareYs_eq h
  refine ⟨_, _, exec_eq _ _, exec_eq _ _, ?_⟩
  simp only [effectOf, hcfg, ← hcount, interpolatorUnit, ← hrecon]
  split
  · exact ⟨rfl, nofun⟩
  · exact s.commit_ofValue_congr u fd _

/-- Settles O42: the share at 0 is where the polynomial through the shares is read (`recon_of_share_at_zero`); one
share lies on a constant (`recon_singleton`). -/
theorem shareAtZeroAndSingleShare : Obligations.ShareAtZeroAndSingleShare := by
  intro s fd hc h1 hmax
  refine ⟨fun i hi hd hzero => exec_lrecon_of_recon hc h1 hmax ?zero,
    fun hone => exec_lrecon_of_recon hc h1 hmax ?one⟩
  case zero =>
    rw [← State.getD_shareXs hi] at hzero
    rw [← State.getD_shareYs hi]
    exact recon_of_share_at_zero hc.prime hd (by rwa [s.length_shareXs]) hzero
  case one =>
    have hxs : s.shareXs = [(Memory.read s.shx 0).toNat] := by rw [State.shareXs, hone]; rfl
    have hys : s.shareYs = [(Memory.read s.shy 0).toNat] := by rw [State.shareYs, hone]; rfl
    rw [hxs, hys, recon_singleton hc.prime]

/-! ## Sharing, then reconstructing (R144) -/

section ProducedShares

variable {s t u v : State} {fs1 : FReg} {idx c : List Nat} {p : Nat}

/-- An error-free `PCONS` has made a polynomial of `T` coefficients. -/
theorem CompletesOk.clen_of_pcons (hok : CompletesOk s t) (h : exec (.pcons fs1) s = .next t) : t.clen = s.t := by
  obtain ⟨e, hf, rfl⟩ := exec_commits h
  obtain ⟨hwait, hfail⟩ := hok.effect
  cases hf with
  | wait => exact absurd rfl hwait
  | fail => exact absurd rfl (hfail _ _)
  | reg hdest => cases hdest
  | coefs => rfl

/-- The constant term of a construction is the secret (R123). -/
theorem TakesCoefs.constant {limit : Option Nat} {secret n : Nat} {stream rest : List Answer}
    (h : TakesCoefs limit secret n stream c rest) : 1 ≤ n ∧ c.getD 0 0 = secret := by
  obtain ⟨rfl, rfl, -⟩ | ⟨h2, middle, onward, top, -, -, -, rfl⟩ := h
  · exact ⟨le_rfl, rfl⟩
  · exact ⟨by omega, rfl⟩

/-- An error-free `PCONS` leaves the secret, reduced, in `COEF[0]` (R123). -/
theorem CompletesOk.read_coef_zero (hok : CompletesOk s t) (h : exec (.pcons fs1) s = .next t) (hc : s.cfg.Legal)
    (hs : s.StorageOk) : 1 ≤ t.clen.toNat ∧ (Memory.read t.coef 0).toNat = s.operand fs1 % s.cfg.p := by
  obtain ⟨c, rest, htakes, hstores⟩ := hok.exists_takesCoefs h hs
  obtain ⟨h1, hsecret⟩ := htakes.constant
  have hlt : c.getD 0 0 < 2 ^ 257 := hsecret ▸ (Nat.mod_lt _ hc.prime.pos).trans hc.below
  exact ⟨h1, (hstores.toNat_read (htakes.length ▸ h1) hlt).trans hsecret⟩

/-- An error-free `PSHARE` has stored shares of the polynomial, no more than the store holds. -/
theorem CompletesOk.exists_takesShares (hok : CompletesOk s t) (h : exec .pshare s = .next t) (hs : s.StorageOk) :
    t.shn.toNat ≤ s.cfg.nMax ∧ ∃ xs rest, TakesShares s.cfg.retryMax [] s.rng xs rest ∧
      xs.length = t.shn.toNat ∧ StoresFirst s.shx xs t.shx ∧
      StoresFirst s.shy (xs.map (evaluatorUnit s.cfg.p s.coefs)) t.shy := by
  obtain rfl := exec_next_iff.mp h
  obtain ⟨hwait, hfail⟩ := hok.effect
  have hgood : ¬ (s.clen.toNat = 0 ∨ s.cfg.tMax < s.clen.toNat ∨ s.cfg.nMax < s.n.toNat) :=
    fun hbad => hfail _ _ (if_pos hbad)
  have hn : s.n.toNat ≤ s.cfg.nMax := by omega
  have heffect := effectOf_pshare (s := s) (by omega) (by omega) hn
  obtain ⟨xs, rest, hd, hlen, htakes⟩ | ⟨rest, hd, -⟩ | hd :=
    drawShares_cases (limit := s.cfg.retryMax) (n := s.n.toNat) (stream := s.rng) <;> rw [hd] at heffect
  · rw [heffect]
    exact ⟨hn, xs, rest, htakes, hlen, storesFirst_writeList hs.shx_wf xs, storesFirst_writeList hs.shy_wf _⟩
  · exact absurd heffect (hfail _ _)
  · exact absurd heffect hwait

/-- The shares an error-free `PSHARE` leaves are points of the polynomial (R128). -/
theorem CompletesOk.shares_on_polynomial (hok : CompletesOk s t) (h : exec .pshare s = .next t) (hc : s.cfg.Legal)
    (hs : s.StorageOk) {j : Nat} (hj : j < t.shn.toNat) :
    (Memory.read t.shy j).toNat = polyValue s.cfg.p s.coefs (Memory.read t.shx j).toNat := by
  obtain ⟨-, xs, rest, htakes, hlen, hshx, hshy⟩ := hok.exists_takesShares h hs
  have hjxs : j < xs.length := hlen ▸ hj
  have hx : xs.getD j 0 < 2 ^ 257 := by
    rw [List.getD_eq_getElem _ _ hjxs]
    exact (htakes.below _ (List.getElem_mem hjxs)).trans (by omega)
  have hvalue : (xs.map (evaluatorUnit s.cfg.p s.coefs)).getD j 0 = polyValue s.cfg.p s.coefs (xs.getD j 0) := by
    rw [List.getD_eq_getElem _ _ (by rwa [List.length_map]), List.getElem_map, List.getD_eq_getElem _ _ hjxs,
      evaluatorUnit, horner_eq_polyValue hc.prime.pos]
  have hy : polyValue s.cfg.p s.coefs (xs.getD j 0) < 2 ^ 257 := (polyValue_lt hc.prime.pos _ _).trans hc.below
  rw [hshx.toNat_read hjxs hx, hshy.toNat_read (by rwa [List.length_map]) (hvalue ▸ hy), hvalue]

/-- The coordinates of the shares chosen are those at their positions. -/
theorem HoldsShares.shareXs (h : HoldsShares u v idx) :
    v.shareXs = idx.map fun j => (Memory.read u.shx j).toNat := by
  refine List.ext_getElem (by rw [v.length_shareXs, List.length_map, h.count]) fun k hk hk' => ?_
  rw [List.length_map] at hk'
  rw [← List.getD_eq_getElem _ 0 hk, State.getD_shareXs (h.count ▸ hk'), h.xs k hk', List.getElem_map]

/-- Positions that differ are no more than there are shares. -/
theorem length_le_of_nodup {n : Nat} (hnodup : idx.Nodup) (hlt : ∀ j ∈ idx, j < n) : idx.length ≤ n := by
  simpa using (hnodup.subperm fun j hj => List.mem_range.mpr (hlt j hj)).length_le

/-- Any choice of enough shares on a polynomial gives back its constant term (R144). -/
theorem HoldsShares.recon_eq (h : HoldsShares u v idx) (hp : p.Prime) (hnodup : idx.Nodup)
    (hlt : ∀ j ∈ idx, j < u.shn.toNat)
    (hdistinct : ∀ j k, j < k → k < u.shn.toNat →
      (Memory.read u.shx j).toNat % p ≠ (Memory.read u.shx k).toNat % p)
    (hon : ∀ j, j < u.shn.toNat → (Memory.read u.shy j).toNat % p = polyValue p c (Memory.read u.shx j).toNat)
    (hlen : c.length ≤ idx.length) : recon p v.shareXs v.shareYs = some (c.getD 0 0 % p) := by
  have hd : DistinctMod p v.shareXs := by
    rw [h.shareXs, DistinctMod, List.pairwise_map]
    refine hnodup.pairwise_of_forall_ne fun j hj k hk hne => ?_
    obtain hjk | hkj := Nat.lt_or_gt_of_ne hne
    · exact hdistinct j k hjk (hlt k hk)
    · exact (hdistinct k j hkj (hlt j hj)).symm
  refine recon_of_polyValue hp hd v.length_shareYs_eq (by rwa [v.length_shareXs, h.count]) fun i hi => ?_
  rw [v.length_shareXs] at hi
  have hidx : i < idx.length := h.count ▸ hi
  rw [State.getD_shareXs hi, State.getD_shareYs hi, h.xs i hidx, h.ys i hidx]
  exact hon _ (hlt _ (List.getElem_mem hidx))

end ProducedShares

/-- Settles O40: the shares `PSHARE` made differ (O37) and are points of the polynomial `PCONS` made, of `T`
coefficients the first of which is the secret, so any `T` of them give it back (`HoldsShares.recon_eq`). -/
theorem enoughSharesReconstructTheSecret : Obligations.EnoughSharesReconstructTheSecret := by
  intro s u w x v fs1 fd idx hc hs hpcons hokU hwcfg hw hcoef hclen hpshare hokX hvcfg hholds hnodup hlt hT
  have hwc : w.cfg.Legal := hwcfg ▸ hc
  obtain ⟨h1, hsecret⟩ := hokU.read_coef_zero hpcons hc hs
  have hT' : u.clen.toNat ≤ idx.length := hokU.clen_of_pcons hpcons ▸ hT
  have hlen : w.coefs.length ≤ idx.length := by rwa [State.coefs, length_entries, hclen]
  have hconstant : w.coefs.getD 0 0 = s.operand fs1 % s.cfg.p := by
    rw [State.coefs, getD_entries (hclen ▸ h1), hcoef, hsecret]
  have hon : ∀ j, j < x.shn.toNat →
      (Memory.read x.shy j).toNat % s.cfg.p = polyValue s.cfg.p w.coefs (Memory.read x.shx j).toNat := fun j hj => by
    rw [hokX.shares_on_polynomial hpshare hwc hw hj, hwcfg, Nat.mod_eq_of_lt (polyValue_lt hc.prime.pos _ _)]
  have hdistinct : ∀ j k, j < k → k < x.shn.toNat →
      (Memory.read x.shx j).toNat % s.cfg.p ≠ (Memory.read x.shx k).toNat % s.cfg.p := fun j k hjk hk =>
    hwcfg ▸ (producedSharesAreDistinct .pshare w x (.inl rfl) hwc hw hpshare hokX j k hjk hk).2
  have hrecon : recon v.cfg.p v.shareXs v.shareYs = some (s.operand fs1 % s.cfg.p) := by
    rw [hvcfg, hholds.recon_eq hc.prime hnodup hlt hdistinct hon hlen, hconstant, Nat.mod_mod]
  have hmax : v.shn.toNat ≤ v.cfg.nMax := by
    rw [hholds.count, hvcfg, ← hwcfg]
    exact (length_le_of_nodup hnodup hlt).trans (hokX.exists_takesShares hpshare hw).1
  obtain ⟨t, hexec, hdone, hresult⟩ := exec_lrecon_of_recon (fd := fd) (hvcfg ▸ hc)
    (hholds.count ▸ h1.trans hT') hmax hrecon
  exact ⟨t, hexec, hdone, hresult, hresult.trans hsecret.symm⟩

end Sys2Proof.Machine
end

section
/-! PROOFS. The key envelope (R151 to R174): the block mode works on each block by itself, and what `ENCRYPT` and
`DECRYPT` come to in each of their cases: the statements of `43_envelope.md`. -/

namespace Sys2Proof.Machine

/-! ## The block mode (R152, R153) -/

section BlockMode

variable {m m' : List Byte} {q q' : Nat}

/-- The first 16 bytes from `16 * q` on of joined blocks are block `q`. -/
theorem take_drop_joinBlocks {bs : List (Bytes 16)} (hq : q < bs.length) :
    ((joinBlocks bs).drop (16 * q)).take 16 = bs[q].toList := by
  induction bs generalizing q with
  | nil => cases hq
  | cons b bs ih =>
    cases q with
    | zero => exact List.take_left' b.toList_length
    | succ q =>
      have hskip : (joinBlocks (b :: bs)).drop (16 * (q + 1)) = (joinBlocks bs).drop (16 * q) := by
        rw [joinBlocks_cons, Nat.mul_succ, Nat.add_comm, ← List.drop_drop, List.drop_left' b.toList_length]
      rw [hskip, ih (Nat.lt_of_succ_lt_succ hq), List.getElem_cons_succ]

theorem take_drop_eq_block (hm : m.length % 16 = 0) (hq : q < (blocksOf m).length) :
    (m.drop (16 * q)).take 16 = (blocksOf m)[q].toList := by
  rw [← take_drop_joinBlocks hq, joinBlocks_blocksOf m hm]

/-- A byte string with a function applied to each of its blocks: what both directions of the block mode are. -/
def mapBlocks (g : Bytes 16 → Bytes 16) (m : List Byte) : List Byte := joinBlocks ((blocksOf m).map g)

theorem ecbEnc_eq_mapBlocks (c : Params) (key : Bytes 32) (m : List Byte) :
    ecbEnc c key m = mapBlocks (c.enc key) m := rfl

theorem ecbDec_eq_mapBlocks (c : Params) (key : Bytes 32) (m : List Byte) :
    ecbDec c key m = mapBlocks (c.dec key) m := rfl

theorem length_mapBlocks (g : Bytes 16 → Bytes 16) (hm : m.length % 16 = 0) : (mapBlocks g m).length = m.length := by
  rw [mapBlocks, length_joinBlocks, List.length_map, length_blocksOf]
  omega

theorem take_drop_mapBlocks (g : Bytes 16 → Bytes 16) (hq : q < (blocksOf m).length) :
    ((mapBlocks g m).drop (16 * q)).take 16 = (g (blocksOf m)[q]).toList := by
  rw [mapBlocks, take_drop_joinBlocks (by rwa [List.length_map]), List.getElem_map]

/-- Equal blocks of the argument, wherever they stand, are equal blocks of the result. -/
theorem take_drop_mapBlocks_congr (g : Bytes 16 → Bytes 16) (hm : m.length % 16 = 0) (hm' : m'.length % 16 = 0)
    (hq : q < (blocksOf m).length) (hq' : q' < (blocksOf m').length)
    (h : (m.drop (16 * q)).take 16 = (m'.drop (16 * q')).take 16) :
    ((mapBlocks g m).drop (16 * q)).take 16 = ((mapBlocks g m').drop (16 * q')).take 16 := by
  rw [take_drop_eq_block hm hq, take_drop_eq_block hm' hq'] at h
  rw [take_drop_mapBlocks g hq, take_drop_mapBlocks g hq', List.Vector.toList_injective h]

theorem mapBlocks_mapBlocks (g g' : Bytes 16 → Bytes 16) (m : List Byte) :
    mapBlocks g' (mapBlocks g m) = mapBlocks (g' ∘ g) m := by
  rw [mapBlocks, mapBlocks, blocksOf_joinBlocks, List.map_map, mapBlocks]

theorem mapBlocks_id (hm : m.length % 16 = 0) : mapBlocks id m = m := by
  rw [mapBlocks, List.map_id, joinBlocks_blocksOf m hm]

theorem ecbDec_ecbEnc (c : Params) (key : Bytes 32) (hm : m.length % 16 = 0) :
    ecbDec c key (ecbEnc c key m) = m := by
  have hid : c.dec key ∘ c.enc key = id := funext (c.dec_enc key)
  rw [ecbDec_eq_mapBlocks, ecbEnc_eq_mapBlocks, mapBlocks_mapBlocks, hid, mapBlocks_id hm]

end BlockMode

/-- Settles O49: both directions apply the cipher to each block (`take_drop_mapBlocks`), which it undoes
(`ecbDec_ecbEnc`). -/
theorem blockModeWorksBlockByBlock : Obligations.BlockModeWorksBlockByBlock := by
  intro cfg key m hm
  refine ⟨length_mapBlocks _ hm, length_mapBlocks _ hm, fun q b hq hb => ?block, ecbDec_ecbEnc cfg key hm⟩
  case block =>
    have hq' : q < (blocksOf m).length := by rwa [length_blocksOf]
    obtain rfl : b = (blocksOf m)[q] := List.Vector.toList_injective (hb.trans (take_drop_eq_block hm hq'))
    exact ⟨take_drop_mapBlocks _ hq', take_drop_mapBlocks _ hq'⟩

/-- Settles O50: a block of the result depends on the block it comes from only (`take_drop_mapBlocks_congr`). -/
theorem equalBlocksEncipherEqually : Obligations.EqualBlocksEncipherEqually :=
  fun cfg key m m' _ _ hm hm' hq hq' h => take_drop_mapBlocks_congr (cfg.enc key) hm hm'
    ((length_blocksOf m).symm ▸ hq) ((length_blocksOf m').symm ▸ hq') h

/-! ## The draws of `ENCRYPT` (R165 steps 5 and 6) -/

section Draws

theorem Drawn.bind_eq_ok_iff {α β : Type} {d : Drawn α} {k : α → List Answer → Drawn β} {v : β}
    {rest : List Answer} : d.bind k = .ok v rest ↔ ∃ w mid, d = .ok w mid ∧ k w mid = .ok v rest := by
  cases d <;> simp [Drawn.bind]

theorem Drawn.bind_eq_exhausted_iff {α β : Type} {d : Drawn α} {k : α → List Answer → Drawn β}
    {rest : List Answer} : d.bind k = .exhausted rest ↔
      d = .exhausted rest ∨ ∃ w mid, d = .ok w mid ∧ k w mid = .exhausted rest := by
  cases d <;> simp [Drawn.bind]

variable {limit : Option Nat} {secret t n : Nat} {stream rest : List Answer} {c xs : List Nat}

theorem encryptDraws_ok_iff (ht : 1 ≤ t) : encryptDraws limit secret t n stream = .ok (c, xs) rest ↔
    ∃ mid, TakesCoefs limit secret t stream c mid ∧ TakesShares limit [] mid xs rest ∧ xs.length = n := by
  simp [encryptDraws, Drawn.bind_eq_ok_iff, construct_ok_iff _ _ _ _ _ _ ht, drawShares_ok_iff, and_comm]

theorem encryptDraws_exhausted_iff (ht : 1 ≤ t) : encryptDraws limit secret t n stream = .exhausted rest ↔
    ExhaustsCoefs limit t stream rest ∨
      ∃ c mid, TakesCoefs limit secret t stream c mid ∧ ExhaustsShares limit n mid rest := by
  simp [encryptDraws, Drawn.bind_eq_exhausted_iff, construct_ok_iff _ _ _ _ _ _ ht,
    construct_exhausted_iff _ _ _ _ _ ht, drawShares_exhausted_iff, ExhaustsShares]

end Draws

/-! ## What `ENCRYPT` comes to (R165) -/

/-- The cipher key and the secret of the password (R165 step 4). -/
def State.passwordKey (s : State) : Bytes 32 × Nat := kdf s.cfg (s.contents .pw)

/-- The padded payload of the label and the content (R165 step 7). -/
def State.payload (s : State) : List Byte := pad (s.contents .lbl) (s.contents .dat)

/-- The payload enciphered under the password's key (R165 step 8). -/
def State.ciphertext (s : State) : List Byte := ecbEnc s.cfg s.passwordKey.1 s.payload

section Encrypt

variable {s : State} {coefs xs : List Nat} {mid rest : List Answer}

theorem paddedLength_mod (l c : Nat) : paddedLength l c % 16 = 0 := Nat.mul_mod_right ..

theorem State.length_payload (s : State) : s.payload.length = paddedLength s.lbllen.toNat s.datlen.toNat := by
  rw [State.payload, length_pad, State.length_contents, State.length_contents, State.lenOf, State.lenOf]

theorem State.length_payload_mod (s : State) : s.payload.length % 16 = 0 := s.length_payload ▸ paddedLength_mod _ _

theorem State.length_ciphertext (s : State) :
    s.ciphertext.length = paddedLength s.lbllen.toNat s.datlen.toNat :=
  (length_mapBlocks _ s.length_payload_mod).trans s.length_payload

/-- The counts and lengths of a state that passes the tests of steps 1 to 3 (R165). -/
theorem bounds_of_not_refused (hok : ¬ EncryptRefused s) : s.n.toNat ≤ s.cfg.nMax ∧
    s.lbllen.toNat ≤ s.cfg.bufMax ∧ s.datlen.toNat ≤ s.cfg.bufMax ∧ s.ciphertext.length ≤ s.cfg.bufMax := by
  rw [s.length_ciphertext, paddedLength]
  unfold EncryptRefused at hok
  omega

theorem evaluatorUnit_eq_polyValue {p : Nat} (hp : 0 < p) (c : List Nat) : evaluatorUnit p c = polyValue p c :=
  funext (horner_eq_polyValue hp c)

theorem effectOf_encrypt (hok : ¬ EncryptRefused s) : effectOf s .encrypt =
    .ofDraws (fun cx rest => .sealed s.ciphertext cx.2 (cx.2.map (evaluatorUnit s.cfg.p cx.1)) s.n rest)
      (encryptDraws s.cfg.retryMax s.passwordKey.2 s.t.toNat s.n.toNat s.rng) :=
  if_neg (mt encryptRefused_iff.mp hok)

theorem effectOf_encrypt_ok (hc : s.cfg.Legal) (hok : ¬ EncryptRefused s)
    (hcoefs : TakesCoefs s.cfg.retryMax s.passwordKey.2 s.t.toNat s.rng coefs mid)
    (hxs : TakesShares s.cfg.retryMax [] mid xs rest) (hlen : xs.length = s.n.toNat) :
    effectOf s .encrypt = .sealed s.ciphertext xs (xs.map (polyValue s.cfg.p coefs)) s.n rest := by
  rw [effectOf_encrypt hok, (encryptDraws_ok_iff (one_le_of_not_refused hok)).mpr ⟨mid, hcoefs, hxs, hlen⟩,
    Effect.ofDraws, evaluatorUnit_eq_polyValue hc.prime.pos]

theorem effectOf_encrypt_exhausted (hok : ¬ EncryptRefused s)
    (hex : ExhaustsCoefs s.cfg.retryMax s.t.toNat s.rng rest ∨
      ∃ coefs mid, TakesCoefs s.cfg.retryMax s.passwordKey.2 s.t.toNat s.rng coefs mid ∧
        ExhaustsShares s.cfg.retryMax s.n.toNat mid rest) :
    effectOf s .encrypt = .fail .rngExhausted rest := by
  rw [effectOf_encrypt hok, (encryptDraws_exhausted_iff (one_le_of_not_refused hok)).mpr hex, Effect.ofDraws]

theorem storesBytes_writeList {m : Memory 8} (hm : m.wf) (base : Nat) (bytes : List Byte) :
    StoresBytes m base bytes (Memory.writeList m base bytes) :=
  fun a => Memory.read_writeList m hm base a bytes

theorem storesFirst_clearCoefs (hs : s.StorageOk) :
    StoresFirst s.coef (List.replicate s.cfg.tMax 0) s.clearCoefs.coef := by
  have hzeros : (List.replicate s.cfg.tMax 0).map toField = List.replicate s.cfg.tMax 0 := List.map_replicate
  rw [State.clearCoefs_coef, ← hzeros]
  exact storesFirst_writeList hs.coef_wf _

end Encrypt

/-- Settles O51: the tests and the draws decide which of its effects `ENCRYPT` has (`effectOf_encrypt_ok`,
`effectOf_encrypt_exhausted`). -/
theorem encryptWritesCiphertextAndShares : Obligations.EncryptWritesCiphertextAndShares := by
  intro s hc hs
  refine ⟨rfl, fun hbad => exec_of_effectOf_fail (if_pos (encryptRefused_iff.mpr hbad)), fun hok => ?accepted⟩
  case accepted =>
    intro key payload
    refine ⟨fun coefs mid xs rest hcoefs hxs hlen => ?sealed,
      fun rest hex => exec_of_effectOf_fail (effectOf_encrypt_exhausted hok (.inl hex)),
      fun coefs mid rest hcoefs hex =>
        exec_of_effectOf_fail (effectOf_encrypt_exhausted hok (.inr ⟨coefs, mid, hcoefs, hex⟩))⟩
    case sealed =>
      obtain ⟨-, -, -, hfits⟩ := bounds_of_not_refused hok
      have hlenreg := (length_eq_toNat_ofNat hc hfits).symm.trans s.length_ciphertext
      exact ⟨_, _, _, _, _, 0, storesBytes_writeList hs.mem_wf _ s.ciphertext, hlenreg,
        s.length_payload.trans hlenreg.symm, storesFirst_writeList hs.shx_wf xs, storesFirst_writeList hs.shy_wf _,
        storesFirst_clearCoefs hs, exec_of_effectOf (effectOf_encrypt_ok hc hok hcoefs hxs hlen)⟩

/-! ## What `DECRYPT` comes to (R170) -/

section Decrypt

variable {s : State} {cfg : Params} {xs ys : List Nat} {ct label content : List Byte} {secret : Nat}

/-- Without an inverse there is no secret (R170 step 2). -/
theorem decryptPayload_of_recon_none (h : recon cfg.p xs ys = none) :
    decryptPayload cfg xs ys ct = .error .zeroInverse := by
  rw [decryptPayload, interpolatorUnit, h]

/-- Steps 3 to 7 for the secret the shares give (R170). -/
theorem decryptPayload_of_recon_some (h : recon cfg.p xs ys = some secret) : decryptPayload cfg xs ys ct =
    if 2 ^ 256 ≤ secret then .error .decryptionError
    else if ct.length = 0 ∨ ct.length % 16 ≠ 0 then .error .decryptionError
    else unpad cfg (ecbDec cfg (bytesBe32 secret) ct) := by
  rw [decryptPayload, interpolatorUnit, h]

theorem decryptPayload_error (h : recon cfg.p xs ys = some secret)
    (hbad : 2 ^ 256 ≤ secret ∨ ct.length = 0 ∨ ct.length % 16 ≠ 0 ∨
      ∃ e, unpad cfg (ecbDec cfg (bytesBe32 secret) ct) = .error e) :
    decryptPayload cfg xs ys ct = .error .decryptionError := by
  rw [decryptPayload_of_recon_some h]
  split
  · rfl
  next hsecret =>
  split
  · rfl
  next hlen =>
  obtain ⟨e, he⟩ : ∃ e, unpad cfg (ecbDec cfg (bytesBe32 secret) ct) = .error e := by tauto
  rw [he, unpad_error he]

theorem decryptPayload_ok (h : recon cfg.p xs ys = some secret) (hsecret : secret < 2 ^ 256) (hne : ct.length ≠ 0)
    (hmod : ct.length % 16 = 0) (hunpad : unpad cfg (ecbDec cfg (bytesBe32 secret) ct) = .ok (label, content)) :
    decryptPayload cfg xs ys ct = .ok (label, content) := by
  rw [decryptPayload_of_recon_some h, if_neg (not_le.mpr hsecret), if_neg (by tauto), hunpad]

/-- `DECRYPT` with a share count and a ciphertext length in range. -/
theorem effectOf_decrypt (h1 : 1 ≤ s.shn.toNat) (hmax : s.shn.toNat ≤ s.cfg.nMax)
    (hct : s.ctlen.toNat ≤ s.cfg.bufMax) :
    effectOf s .decrypt = .ofPayload s (decryptPayload s.cfg s.shareXs s.shareYs (s.contents .ct)) :=
  if_neg (by omega)

end Decrypt

/-- Settles O53: `Recon` answers as the coordinates are incongruent or not (`recon_none_iff`, `recon_eq_some`), and
the tests after it decide whether there is a payload to write (`decryptPayload_error`, `decryptPayload_ok`). -/
theorem decryptWritesLabelAndContentOrRaises : Obligations.DecryptWritesLabelAndContentOrRaises := by
  intro s hc hs
  have : Fact s.cfg.p.Prime := ⟨hc.prime⟩
  refine ⟨rfl, fun hbad => exec_of_effectOf_fail (if_pos hbad), fun h1 hmax hct => ?tests⟩
  have heffect := effectOf_decrypt h1 hmax hct
  refine ⟨fun hd => ?congruent, fun hd secret hlt hsum => ?secret⟩
  case congruent =>
    rw [decryptPayload_of_recon_none ((recon_none_iff _ _).mpr hd)] at heffect
    exact exec_of_effectOf_fail heffect
  case secret =>
    have hrecon := recon_eq_some hd hlt hsum
    have hlen : (s.contents .ct).length = s.ctlen.toNat := s.length_contents .ct
    refine ⟨fun hbad => ?rejected, fun label content hsecret hne hmod hunpad => ?opened⟩
    case rejected =>
      rw [decryptPayload_error hrecon (by rwa [hlen])] at heffect
      exact exec_of_effectOf_fail heffect
    case opened =>
      have hpayload := decryptPayload_ok (ct := s.contents .ct) hrecon hsecret (by rwa [hlen]) (by rwa [hlen]) hunpad
      obtain ⟨hlabel, hcontent⟩ := decryptPayload_length_le hpayload
      rw [hpayload] at heffect
      exact ⟨_, _, _, _, 0, storesBytes_writeList hs.mem_wf _ label,
        storesBytes_writeList (Memory.writeList_wf hs.mem_wf _ _) _ content,
        (length_eq_toNat_ofNat hc (by omega)).symm, (length_eq_toNat_ofNat hc (by omega)).symm,
        exec_of_effectOf heffect⟩

/-! ## Enciphering, then deciphering (R174) -/

section BufferContents

variable {s u : State} {b : Buffer} {bytes : List Byte}

/-- Equal contents are the same bytes below the same length register. -/
theorem State.bufferBytes_eq_of_contents_eq (h : u.contents b = s.contents b) :
    u.lenOf b = s.lenOf b ∧ u.bufferBytes b (s.lenOf b).toNat = s.bufferBytes b (s.lenOf b).toNat := by
  have hlen : u.lenOf b = s.lenOf b :=
    BitVec.eq_of_toNat_eq (by rw [← u.length_contents, h, s.length_contents])
  rw [State.contents, State.contents, hlen] at h
  exact ⟨hlen, h⟩

theorem State.lenOf_setBuffer_same (s : State) (b : Buffer) (bytes : List Byte) :
    (s.setBuffer b bytes).lenOf b = BitVec.ofNat 32 bytes.length := by
  cases b <;> rfl

/-- A buffer reads back the byte string written to it. -/
theorem State.StorageOk.contents_setBuffer_same (hs : s.StorageOk) (hc : s.cfg.Legal)
    (h : bytes.length ≤ s.cfg.bufMax) : (s.setBuffer b bytes).contents b = bytes := by
  rw [State.contents, State.lenOf_setBuffer_same, ← length_eq_toNat_ofNat hc h, State.bufferBytes, State.setBuffer_mem,
    Memory.readList_writeList_same s.mem hs.mem_wf]

/-- The label's buffer lies below the content's (R55), so a write of the content leaves the label. -/
theorem State.StorageOk.contents_lbl_setBuffer_dat (hs : s.StorageOk) (hc : s.cfg.Legal)
    (h : s.lbllen.toNat ≤ s.cfg.bufMax) : (s.setBuffer .dat bytes).contents .lbl = s.contents .lbl := by
  have hmax := hc.buf_le
  have hbelow : Buffer.base .lbl + s.lbllen.toNat ≤ Buffer.base .dat := by
    simp only [Buffer.base]
    omega
  exact Memory.readList_writeList_disjoint s.mem hs.mem_wf _ _ _ _ (.inl hbelow)

end BufferContents

section RoundTrip

variable {s u v : State} {idx : List Nat}

/-! What an error-free `ENCRYPT` leaves. -/

/-- An error-free `ENCRYPT` has written the ciphertext and shares of a polynomial made for the password's secret. -/
theorem CompletesOk.exists_sealed (hok : CompletesOk s u) (h : exec .encrypt s = .next u) (hc : s.cfg.Legal) :
    ¬ EncryptRefused s ∧ ∃ coefs mid xs rest, TakesCoefs s.cfg.retryMax s.passwordKey.2 s.t.toNat s.rng coefs mid ∧
      TakesShares s.cfg.retryMax [] mid xs rest ∧ xs.length = s.n.toNat ∧
      s.commit (.sealed s.ciphertext xs (xs.map (polyValue s.cfg.p coefs)) s.n rest) = u := by
  obtain rfl := exec_next_iff.mp h
  obtain ⟨hwait, hfail⟩ := hok.effect
  have hgood : ¬ EncryptRefused s := fun hbad => hfail _ _ (if_pos (encryptRefused_iff.mpr hbad))
  have heffect := effectOf_encrypt hgood
  refine ⟨hgood, ?_⟩
  cases hd : encryptDraws s.cfg.retryMax s.passwordKey.2 s.t.toNat s.n.toNat s.rng with
  | ok cx rest =>
    obtain ⟨mid, hcoefs, hxs, hlen⟩ := (encryptDraws_ok_iff (one_le_of_not_refused hgood)).mp hd
    exact ⟨_, _, _, _, hcoefs, hxs, hlen, by rw [effectOf_encrypt_ok hc hgood hcoefs hxs hlen]⟩
  | exhausted rest => exact absurd (heffect.trans (congrArg _ hd)) (hfail _ _)
  | waiting => exact absurd (heffect.trans (congrArg _ hd)) hwait

theorem CompletesOk.contents_ct (hok : CompletesOk s u) (h : exec .encrypt s = .next u) (hc : s.cfg.Legal)
    (hs : s.StorageOk) : u.contents .ct = s.ciphertext := by
  obtain ⟨hgood, coefs, mid, xs, rest, -, -, -, rfl⟩ := hok.exists_sealed h hc
  obtain ⟨-, -, -, hfits⟩ := bounds_of_not_refused hgood
  exact (hs.setRng rest).contents_setBuffer_same (b := .ct) hc hfits

/-- The coordinates stored, and the values of a polynomial at them: each stored pair is a point of the polynomial. -/
theorem read_polyValue_of_storesFirst {c : Params} (hc : c.Legal) {mx mx' my my' : Memory 257} {coefs xs : List Nat}
    {j : Nat} (hx : StoresFirst mx xs mx') (hy : StoresFirst my (xs.map (polyValue c.p coefs)) my')
    (hbelow : ∀ x ∈ xs, x < 2 ^ 256) (hj : j < xs.length) :
    (Memory.read my' j).toNat = polyValue c.p coefs (Memory.read mx' j).toNat := by
  have hxs : xs.getD j 0 < 2 ^ 257 := by
    rw [List.getD_eq_getElem _ _ hj]
    exact (hbelow _ (List.getElem_mem hj)).trans (by omega)
  have hvalue : (xs.map (polyValue c.p coefs)).getD j 0 = polyValue c.p coefs (xs.getD j 0) := by
    simp [hj]
  have hys : (xs.map (polyValue c.p coefs)).getD j 0 < 2 ^ 257 :=
    hvalue ▸ (polyValue_lt hc.prime.pos _ _).trans hc.below
  rw [hx.toNat_read hj hxs, hy.toNat_read (by rwa [List.length_map]) hys, hvalue]

/-! The two forms of the password's key (R80). -/

theorem State.bytesBe32_passwordKey (s : State) : bytesBe32 s.passwordKey.2 = s.passwordKey.1 :=
  keyFormsStayIdentical.1 _

theorem State.passwordKey_lt (s : State) : s.passwordKey.2 < 2 ^ 256 := by
  have hlt := intBe_lt s.passwordKey.1.toList
  rw [List.Vector.toList_length] at hlt
  exact hlt.trans_eq (by norm_num)

/-- Any choice of `T` or more of the shares an error-free `ENCRYPT` made gives back the password's secret (R144). -/
theorem CompletesOk.recon_of_encrypt (hok : CompletesOk s u) (h : exec .encrypt s = .next u) (hc : s.cfg.Legal)
    (hs : s.StorageOk) (hholds : HoldsShares u v idx) (hnodup : idx.Nodup) (hlt : ∀ j ∈ idx, j < u.shn.toNat)
    (hT : s.t.toNat ≤ idx.length) : recon s.cfg.p v.shareXs v.shareYs = some s.passwordKey.2 := by
  have hdistinct : ∀ j k, j < k → k < u.shn.toNat →
      (Memory.read u.shx j).toNat % s.cfg.p ≠ (Memory.read u.shx k).toNat % s.cfg.p := fun j k hjk hk =>
    (producedSharesAreDistinct .encrypt s u (.inr rfl) hc hs h hok j k hjk hk).2
  obtain ⟨-, coefs, mid, xs, rest, hcoefs, hxs, hlen, rfl⟩ := hok.exists_sealed h hc
  have hon : ∀ j, j < s.n.toNat →
      (Memory.read (Memory.writeList s.shy 0 ((xs.map (polyValue s.cfg.p coefs)).map toField)) j).toNat % s.cfg.p =
        polyValue s.cfg.p coefs (Memory.read (Memory.writeList s.shx 0 (xs.map toField)) j).toNat := fun j hj => by
    rw [read_polyValue_of_storesFirst hc (storesFirst_writeList hs.shx_wf xs) (storesFirst_writeList hs.shy_wf _)
      hxs.below (hlen ▸ hj), Nat.mod_eq_of_lt (polyValue_lt hc.prime.pos _ _)]
  have hsecret : s.passwordKey.2 < s.cfg.p := s.passwordKey_lt.trans hc.above
  rw [hholds.recon_eq hc.prime hnodup hlt hdistinct hon (hcoefs.length ▸ hT), hcoefs.constant.2,
    Nat.mod_eq_of_lt hsecret]

/-! What `DECRYPT` makes of it. -/

theorem decryptPayload_ciphertext {xs ys : List Nat} (hrecon : recon s.cfg.p xs ys = some s.passwordKey.2)
    (hlabel : (0x00 : Byte) ∉ s.contents .lbl) (hvalid : s.cfg.validText s.payload = true) :
    decryptPayload s.cfg xs ys s.ciphertext = .ok (s.contents .lbl, s.contents .dat) := by
  have hlen := s.length_ciphertext
  refine decryptPayload_ok hrecon s.passwordKey_lt ?nonempty (hlen ▸ paddedLength_mod _ _) ?unpads
  case nonempty =>
    rw [hlen, paddedLength]
    omega
  case unpads =>
    rw [s.bytesBe32_passwordKey, State.ciphertext, ecbDec_ecbEnc _ _ s.length_payload_mod]
    exact unpadUndoesPad _ _ _ hlabel hvalid

/-- `DECRYPT` on the ciphertext of `s` and shares that give back its secret opens what `s` held. -/
theorem effectOf_decrypt_ciphertext (hcfg : v.cfg = s.cfg) (hct : v.contents .ct = s.ciphertext)
    (hfits : s.ciphertext.length ≤ s.cfg.bufMax) (h1 : 1 ≤ v.shn.toNat) (hmax : v.shn.toNat ≤ s.cfg.nMax)
    (hrecon : recon s.cfg.p v.shareXs v.shareYs = some s.passwordKey.2)
    (hlabel : (0x00 : Byte) ∉ s.contents .lbl) (hvalid : s.cfg.validText s.payload = true) :
    effectOf v .decrypt = .opened (s.contents .lbl) (s.contents .dat) := by
  have hctlen : v.ctlen.toNat ≤ v.cfg.bufMax := by
    rwa [hcfg, ← show (v.contents .ct).length = v.ctlen.toNat from v.length_contents .ct, hct]
  rw [effectOf_decrypt h1 (hcfg ▸ hmax) hctlen, hcfg, hct, decryptPayload_ciphertext hrecon hlabel hvalid,
    Effect.ofPayload]

/-- The label and the content `DECRYPT` writes stand in their buffers. -/
theorem State.StorageOk.contents_commit_opened (hs : s.StorageOk) (hc : s.cfg.Legal) {label content : List Byte}
    (hlabel : label.length ≤ s.cfg.bufMax) (hcontent : content.length ≤ s.cfg.bufMax) :
    (s.commit (.opened label content)).contents .lbl = label ∧
      (s.commit (.opened label content)).contents .dat = content := by
  have hs' : (s.setBuffer .lbl label).StorageOk := hs.setBuffer .lbl hlabel
  have hlbl : (s.setBuffer .lbl label).contents .lbl = label := hs.contents_setBuffer_same hc hlabel
  have hlen : (s.setBuffer .lbl label).lbllen.toNat = label.length :=
    (State.length_contents _ .lbl).symm.trans (congrArg List.length hlbl)
  exact ⟨(hs'.contents_lbl_setBuffer_dat hc (hlen.trans_le hlabel)).trans hlbl,
    hs'.contents_setBuffer_same (b := .dat) hc hcontent⟩

end RoundTrip

/-- Settles O54: the shares give back the secret the payload was enciphered under (`CompletesOk.recon_of_encrypt`), so
`DECRYPT` deciphers and unpads what `ENCRYPT` padded and enciphered (`decryptPayload_ciphertext`). -/
theorem decryptUndoesEncrypt : Obligations.DecryptUndoesEncrypt := by
  intro s u v idx hc hs h hok hlabel hvalid hcfg hv hctlen hct hholds hnodup hlt hT
  have hrecon := hok.recon_of_encrypt h hc hs hholds hnodup hlt hT
  have hsealed : v.contents .ct = s.ciphertext := by
    rw [← hok.contents_ct h hc hs, State.contents, State.lenOf, hctlen, hct, State.contents, State.lenOf]
  obtain ⟨hgood, coefs, mid, xs, rest, -, -, -, rfl⟩ := hok.exists_sealed h hc
  obtain ⟨hn, hlbl, hdat, hfits⟩ := bounds_of_not_refused hgood
  have h1 : 1 ≤ v.shn.toNat := hholds.count ▸ (one_le_of_not_refused hgood).trans hT
  have hmax : v.shn.toNat ≤ s.cfg.nMax := hholds.count ▸ (length_le_of_nodup hnodup hlt).trans hn
  have heffect := effectOf_decrypt_ciphertext hcfg hsealed hfits h1 hmax hrecon hlabel hvalid
  obtain ⟨hlblT, hdatT⟩ := hv.contents_commit_opened (hcfg ▸ hc)
    (label := s.contents .lbl) (content := s.contents .dat) (by rwa [s.length_contents, hcfg])
    (by rwa [s.length_contents, hcfg])
  obtain ⟨hlbllen, hlblbytes⟩ := State.bufferBytes_eq_of_contents_eq hlblT
  obtain ⟨hdatlen, hdatbytes⟩ := State.bufferBytes_eq_of_contents_eq hdatT
  exact ⟨_, exec_of_effectOf heffect, ⟨rfl, rfl, rfl, rfl⟩, hlbllen, hdatlen, hlblbytes, hdatbytes⟩

end Sys2Proof.Machine
end

section
/-! PROOFS. The error completions (R180 to R189): the words that are no command, what a completion with an error
keeps, and which command can report which error: the statements of `60_exceptions.md`. -/

namespace Sys2Proof

/-! ## The illegal words (R75, R185) -/

/-- A register field fails its check with an index of 8 or more where the row uses it, with any bit set where not. -/
theorem fieldOk_ne_true_iff {used : Bool} {x : BitVec 4} :
    fieldOk used x ≠ true ↔ (used = true ∧ 8 ≤ x.toNat) ∨ (used = false ∧ x ≠ 0) := by
  revert used x
  decide

theorem Opcode.byte_inj {o o' : Opcode} (h : o.byte = o'.byte) : o = o' :=
  Option.some.inj (by rw [← o.ofByte?_byte, h, o'.ofByte?_byte])

/-- The decoder rejects exactly the words that match no row (R74). -/
theorem decode_error_iff {w : Word} : (∃ r, decode w = .error r) ↔ ∀ o : Opcode, w &&& o.mask ≠ o.pattern := by
  refine ⟨fun ⟨r, hr⟩ o hrow => ?_, fun hnone => ⟨_, decode_of_no_match hnone⟩⟩
  cases hr.symm.trans (decode_of_matches hrow)

/-- The words that match no row, by the check they fail (R75). -/
theorem no_match_iff {w : Word} : (∀ o : Opcode, w &&& o.mask ≠ o.pattern) ↔
    w.extractLsb' 20 12 ≠ 0 ∨ (∀ o : Opcode, o.byte ≠ w.extractLsb' 0 8) ∨
      ∃ o : Opcode, o.byte = w.extractLsb' 0 8 ∧
        (fieldOk o.usesFd (w.extractLsb' 8 4) ≠ true ∨ fieldOk o.usesFs1 (w.extractLsb' 12 4) ≠ true ∨
          fieldOk o.usesFs2 (w.extractLsb' 16 4) ≠ true) := by
  constructor
  · intro hnone
    by_cases hrsv : w.extractLsb' 20 12 = 0
    · by_cases hop : ∃ o : Opcode, o.byte = w.extractLsb' 0 8
      · obtain ⟨o, ho⟩ := hop
        have hfields := mt Opcode.matches_iff.mpr (hnone o)
        exact .inr (.inr ⟨o, ho, by tauto⟩)
      · exact .inr (.inl (not_exists.mp hop))
    · exact .inl hrsv
  · intro hbad o hrow
    obtain ⟨hop, hfd, hfs1, hfs2, hrsv⟩ := Opcode.matches_iff.mp hrow
    obtain hrsv' | hop' | ⟨o', ho', hfields⟩ := hbad
    · exact hrsv' hrsv
    · exact hop' o hop.symm
    · obtain rfl := Opcode.byte_inj (ho'.trans hop)
      tauto

end Sys2Proof

namespace Sys2Proof.Machine

/-! ## What a completion with an error keeps (R186) -/

section ErrorCompletion

variable {s t : State} {e : CmdError}

/-- The error code is the one R181 gives the error reported. -/
theorem State.errCode_of_err (h : t.err = some e) : t.errCode = e.code := by
  simp only [State.errCode, h]

theorem State.Completed.statusBits (h : t.Completed (some e)) :
    t.errCode = e.code ∧ t.busyBit = 0 ∧ t.doneBit = 1 := by
  refine ⟨State.errCode_of_err h.err, ?_, ?_⟩
  · simp only [State.busyBit, h.phase]
  · rw [State.doneBit, h.done]; rfl

theorem State.commit_fail_completed (s : State) (e : CmdError) (rest : List Answer) :
    (s.commit (.fail e rest)).Completed (some e) := ⟨rfl, rfl, rfl, rfl⟩

theorem State.commit_fail_sameVisible (s : State) (e : CmdError) (rest : List Answer) :
    SameVisible s (s.commit (.fail e rest)) := ⟨rfl, rfl, rfl, rfl, rfl, rfl, rfl, rfl, rfl, rfl, rfl, rfl, rfl⟩

/-- A command completes with an error only by failing with it. -/
theorem Effect.eq_fail_of_err {eff : Effect} (hbusy : s.phase = .busy) (hidle : (s.commit eff).phase = .idle)
    (herr : (s.commit eff).err = some e) : ∃ rest, eff = .fail e rest := by
  cases eff with
  | wait => cases hbusy.symm.trans hidle
  | fail e' rest => exact ⟨rest, by rw [Option.some.inj herr]⟩
  | reg | coefs | shares | sealed | opened => cases herr

end ErrorCompletion

/-- Settles O4: the rejected words match no row (`decode_error_iff`), so fail a check (`no_match_iff`), and their
completion is the shared one of every error. -/
theorem illegalWordsRaiseIllegalCommand : Obligations.IllegalWordsRaiseIllegalCommand := by
  refine ⟨fun w => ?words, fun s r hr => ?completion⟩
  case words =>
    rw [decode_error_iff, no_match_iff]
    simp only [fieldOk_ne_true_iff, or_assoc]
  case completion =>
    have hdone := s.commit_fail_completed .illegalCommand s.rng
    obtain ⟨hcode, -, -⟩ := hdone.statusBits
    exact ⟨_, State.runLatched_of_reject hr, s.commit_fail_sameVisible _ s.rng, rfl, rfl, hdone, hcode⟩

/-- Settles O16: the step that reported the error committed a failure (`Effect.eq_fail_of_err`). -/
theorem errorChangesNothingButStatus : Obligations.ErrorChangesNothingButStatus := by
  intro s t e hbusy hrun hidle herr
  obtain ⟨i, eff, hf, rfl⟩ := State.runLatched_commits hrun
  obtain ⟨rest, rfl⟩ := Effect.eq_fail_of_err hbusy hidle herr
  have hdone := s.commit_fail_completed e rest
  obtain ⟨hcode, hbusyBit, hdoneBit⟩ := hdone.statusBits
  exact ⟨s.commit_fail_sameVisible e rest, s.commit_cfg _, hcode, hbusyBit, hdoneBit, hdone.hidden, _,
    List.suffix_iff_eq_drop.mp hf.rng_suffix⟩

/-! ## The codes (R181, R188) -/

theorem CmdError.code_bounds (e : CmdError) : e.code ≠ 0 ∧ e.code.toNat ≤ 5 := by cases e <;> decide

/-- `ERR` reads 0 exactly when there is no error, and never one of the codes 6 to 15 (R188). -/
theorem State.errCode_range (s : State) : (s.err = none ↔ s.errCode = 0) ∧ s.errCode.toNat ≤ 5 := by
  cases h : s.err with
  | none =>
    have hcode : s.errCode = 0 := by simp only [State.errCode, h]
    exact ⟨iff_of_true rfl hcode, hcode ▸ Nat.zero_le 5⟩
  | some e =>
    obtain ⟨hne, hle⟩ := e.code_bounds
    rw [State.errCode_of_err h]
    exact ⟨iff_of_false (Option.some_ne_none e) hne, hle⟩

/-! ## Which command reports which error (R182 to R187) -/

/-- The table of errors read command by command (R182 to R184, R187), with `RETRY_MAX` for the last of them. -/
def MayReport (limit : Option Nat) (e : CmdError) : Instr → Prop
  | .fadd .. | .fsub .. | .fmul .. => False
  | .finv ..                       => e = .zeroInverse
  | .pcons _ | .pshare | .encrypt  => e = .invalidParameters ∨ (e = .rngExhausted ∧ limit ≠ none)
  | .peval ..                      => e = .invalidParameters
  | .lrecon _                      => e = .invalidParameters ∨ e = .zeroInverse
  | .decrypt                       => e = .invalidParameters ∨ e = .zeroInverse ∨ e = .decryptionError

section Exhaustion

variable {limit : Option Nat} {stream rest : List Answer}

/-! Redraws run out only where `RETRY_MAX` is finite (R122, R187). -/

theorem Exhausts.limit_ne_none {bad : Nat → Bool} (h : Exhausts bad limit stream rest) : limit ≠ none := by
  obtain ⟨rejected, m, rfl, -⟩ := h
  exact Option.some_ne_none m

theorem limit_ne_none_of_construct {secret t : Nat} (ht : 1 ≤ t)
    (h : construct limit secret t stream = .exhausted rest) : limit ≠ none := by
  obtain ⟨-, middle, onward, -, -, hex⟩ := (construct_exhausted_iff _ _ _ _ _ ht).mp h
  exact hex.limit_ne_none

theorem limit_ne_none_of_drawShares {n : Nat} {chosen : List Nat}
    (h : drawShares limit n chosen stream = .exhausted rest) : limit ≠ none := by
  obtain ⟨xs, mid, -, -, hex⟩ := (drawShares_exhausted_iff _ _ _ _ _).mp h
  exact hex.limit_ne_none

theorem limit_ne_none_of_encryptDraws {secret t n : Nat} (ht : 1 ≤ t)
    (h : encryptDraws limit secret t n stream = .exhausted rest) : limit ≠ none := by
  obtain hc | ⟨c, mid, -, hxs⟩ := Drawn.bind_eq_exhausted_iff.mp h
  · exact limit_ne_none_of_construct ht hc
  · obtain hd | ⟨xs, rest', -, hok⟩ := Drawn.bind_eq_exhausted_iff.mp hxs
    · exact limit_ne_none_of_drawShares hd
    · cases hok

end Exhaustion

section Failures

variable {s : State} {e : CmdError} {rest : List Answer}

/-! How each kind of effect comes to be a failure. -/

/-- A command with a parameter test fails it, or fails behind it (R184). -/
theorem Effect.ite_eq_fail {p : Prop} [Decidable p] {eff : Effect}
    (h : (if p then .fail .invalidParameters s.rng else eff) = .fail e rest) :
    e = .invalidParameters ∨ (¬ p ∧ eff = .fail e rest) := by
  split at h
  · cases h; exact .inl rfl
  · next hp => exact .inr ⟨hp, h⟩

theorem Effect.ofValue_eq_fail {r : FReg} {v : Option Nat} (h : Effect.ofValue s r v = .fail e rest) :
    e = .zeroInverse := by
  cases v with
  | none => cases h; rfl
  | some v => cases h

theorem Effect.ofDraws_eq_fail {α : Type} {k : α → List Answer → Effect} {d : Drawn α}
    (h : Effect.ofDraws k d = .fail e rest) (hk : ∀ v rest', k v rest' ≠ .fail e rest) :
    e = .rngExhausted ∧ d = .exhausted rest := by
  cases d with
  | ok v rest' => exact absurd h (hk v rest')
  | exhausted rest' => cases h; exact ⟨rfl, rfl⟩
  | waiting => cases h

theorem decryptPayload_error_cases {c : Params} {xs ys : List Nat} {ct : List Byte}
    (h : decryptPayload c xs ys ct = .error e) : e = .zeroInverse ∨ e = .decryptionError := by
  cases hrecon : recon c.p xs ys with
  | none =>
    rw [decryptPayload_of_recon_none hrecon] at h
    cases h; exact .inl rfl
  | some secret =>
    rw [decryptPayload_of_recon_some hrecon] at h
    split at h
    · cases h; exact .inr rfl
    split at h
    · cases h; exact .inr rfl
    · exact .inr (unpad_error h)

theorem Effect.ofPayload_eq_fail {r : Except CmdError (List Byte × List Byte)}
    (h : Effect.ofPayload s r = .fail e rest) : r = .error e := by
  cases r with
  | error e' => cases h; rfl
  | ok lc => cases h

/-- The errors a command can fail with are those of the table. -/
theorem mayReport_of_effectOf_fail {i : Instr} (h : effectOf s i = .fail e rest) :
    MayReport s.cfg.retryMax e i := by
  cases i with
  | fadd | fsub | fmul => cases h
  | finv fd fs1 => exact Effect.ofValue_eq_fail h
  | pcons fs1 =>
    obtain he | ⟨hok, hd⟩ := Effect.ite_eq_fail h
    · exact .inl he
    · obtain ⟨he, hd⟩ := Effect.ofDraws_eq_fail hd fun _ _ => nofun
      exact .inr ⟨he, limit_ne_none_of_construct (by omega) hd⟩
  | peval fd fs1 =>
    obtain he | ⟨-, hreg⟩ := Effect.ite_eq_fail h
    · exact he
    · cases hreg
  | pshare =>
    obtain he | ⟨-, hd⟩ := Effect.ite_eq_fail h
    · exact .inl he
    · obtain ⟨he, hd⟩ := Effect.ofDraws_eq_fail hd fun _ _ => nofun
      exact .inr ⟨he, limit_ne_none_of_drawShares hd⟩
  | lrecon fd =>
    obtain he | ⟨-, hv⟩ := Effect.ite_eq_fail h
    · exact .inl he
    · exact .inr (Effect.ofValue_eq_fail hv)
  | encrypt =>
    obtain he | ⟨hok, hd⟩ := Effect.ite_eq_fail h
    · exact .inl he
    · obtain ⟨he, hd⟩ := Effect.ofDraws_eq_fail hd fun _ _ => nofun
      exact .inr ⟨he, limit_ne_none_of_encryptDraws (one_le_of_not_refused (mt encryptRefused_iff.mpr hok)) hd⟩
  | decrypt =>
    obtain he | ⟨-, hp⟩ := Effect.ite_eq_fail h
    · exact .inl he
    · exact .inr (decryptPayload_error_cases (Effect.ofPayload_eq_fail hp))

end Failures

/-- Settles O17: a reported error is one the command failed with, so stands in its row of the table
(`mayReport_of_effectOf_fail`); the table is then read error by error. -/
theorem errorsComeOnlyFromTheirCommands : Obligations.ErrorsComeOnlyFromTheirCommands := by
  refine ⟨rfl, rfl, rfl, rfl, rfl, State.errCode_range, fun i s t e hbusy hexec hidle herr => ?_⟩
  obtain rfl := exec_next_iff.mp hexec
  obtain ⟨rest, hfail⟩ := Effect.eq_fail_of_err hbusy hidle herr
  have hrow := mayReport_of_effectOf_fail hfail
  cases i with
  | fadd | fsub | fmul => exact hrow.elim
  | finv | peval =>
    obtain rfl : e = _ := hrow
    simp
  | pcons | pshare | encrypt =>
    obtain rfl | ⟨rfl, hlimit⟩ := hrow
    · simp
    · simp [hlimit]
  | lrecon => obtain rfl | rfl := hrow <;> simp
  | decrypt => obtain rfl | rfl | rfl := hrow <;> simp

end Sys2Proof.Machine
end

section
/-! PROOFS. The parameters through every agent's move, and what a reset does to a command under way: the statements of
`70_reset_and_hazards.md`. -/

namespace Sys2Proof.Machine

/-! ## The parameters (R203) -/

section Parameters

variable {s t : State}

@[simp] theorem State.access_cfg (s : State) (q : BusRequest) : (s.access q).1.cfg = s.cfg := by
  cases q with
  | read => rfl
  | write a size v =>
    simp only [State.access]
    cases hloc : accessLoc s.cfg a size with
    | some l => rw [State.memWrite_of_accessLoc hloc, State.writeLoc_cfg]
    | none => rw [State.memWrite_of_accessLoc_none hloc]

@[simp] theorem State.hostTurn_cfg (s : State) : s.hostTurn.cfg = s.cfg := by
  obtain he | ⟨q, rest, -, -, he⟩ := s.hostTurn_cases <;> rw [he]
  exact s.access_cfg q

/-- A completion step commits an effect, and no effect writes a parameter. -/
theorem State.cfg_of_runLatched (h : s.runLatched = .next t) : t.cfg = s.cfg := by
  obtain ⟨i, e, -, rfl⟩ := State.runLatched_commits h
  exact s.commit_cfg e

theorem State.cfg_of_move {who : Turn} (h : s.move who = .next t) : t.cfg = s.cfg := by
  cases who with
  | host => cases h; exact s.hostTurn_cfg
  | reset lost => cases h; rfl
  | sequencer =>
    cases hphase : s.phase with
    | idle => rw [State.move_sequencer_of_idle hphase] at h; cases h; rfl
    | busy => rw [State.move_sequencer_of_busy hphase] at h; exact State.cfg_of_runLatched h

end Parameters

/-- Settles O11: a step is one agent's move, and no agent writes a parameter (`State.cfg_of_move`). -/
theorem parametersNeverChange : Obligations.ParametersNeverChange := by
  intro s t hstep
  cases hturns : s.turns with
  | nil => exact State.cfg_of_move (step_of_turns_nil hturns ▸ hstep)
  | cons who ts => exact State.cfg_of_move (s := { s with turns := ts }) (step_of_turns_cons hturns ▸ hstep)

/-! ## Reset during a command (R201) -/

section Abandoned

variable {s t : State}

theorem State.answersAskedFor_of_idle (h : s.phase = .idle) : s.answersAskedFor = 0 := by
  simp only [State.answersAskedFor, h]

/-- A command that would complete can have been given the answers its completion would consume. -/
theorem State.answersAskedFor_of_completion (hbusy : s.phase = .busy) (hrun : s.runLatched = .next t)
    (hidle : t.phase = .idle) : s.answersAskedFor = s.rng.length - t.rng.length := by
  simp only [State.answersAskedFor, hbusy, hrun, hidle]

/-- A reset step, as the schedule asks for it: the entry is used up, and the answers lost are counted by the command
under way. -/
theorem step_of_reset {lost : Nat} {ts : List Turn} (h : s.turns = .reset lost :: ts) :
    step s = .next { State.reset with
      cfg := s.cfg, rng := s.rng.drop (min lost s.answersAskedFor), turns := ts, inbox := s.inbox,
      outbox := s.outbox } := by
  rw [step_of_turns_cons h, State.move_reset, State.resetTurn, s.answersAskedFor_turns ts s.runLatched_next]
  rfl

end Abandoned

/-- Settles O20: the answers lost are the smaller of what the entry says and what the command can have been given, which
is known while idle (`State.answersAskedFor_of_idle`) and where the command would complete
(`State.answersAskedFor_of_completion`). -/
theorem resetAbandonsTheCommand : Obligations.ResetAbandonsTheCommand := by
  intro s lost ts hturns
  refine ⟨min lost s.answersAskedFor, min_le_left _ _, min_le_right _ _, fun hidle => ?idle,
    fun t hbusy hrun hidle => ?busy, step_of_reset hturns⟩
  case idle => rw [State.answersAskedFor_of_idle hidle, Nat.min_zero]
  case busy => exact State.answersAskedFor_of_completion hbusy hrun hidle ▸ min_le_right _ _

end Sys2Proof.Machine
end
